-- ==== Sys2Proof/Word.lean ====
section
/-! DEFINITION. The word types of the P1logger engine: bytes, the 16-bit checksum, 32-bit codes (R8). -/

namespace Sys2Proof

/-- A byte: the element of every buffer of the block (R8). -/
abbrev Byte := BitVec 8

/-- A 16-bit word: the CRC register and its operands (R8, R33). -/
abbrev Word16 := BitVec 16

/-- A 32-bit word: the error code of ERROR (R107). -/
abbrev Word32 := BitVec 32

end Sys2Proof
end

