-- ==== Sys2Proof/Syntax.lean ====
section
/-! DEFINITION. The commands of P1E-CMD/1 as syntax: one constructor per row of spec/opcode_table.json (R101). -/

namespace Sys2Proof

/-- The ten commands. Operands are the fields of R102 to R107. -/
inductive Instr where
  /-- CRC_SET (R143), format I16. -/
  | crcSet (imm16 : Word16)
  /-- CRC_BYTE (R144), format I8. -/
  | crcByte (imm8 : Byte)
  /-- CRC_SPAN (R145), format SPAN. `buf` is the byte of the encoding: 0 is LINE, 1 is PKT, 2..255 reserved. -/
  | crcSpan (buf off : Byte) (cnt : Word16)
  /-- POP (R162), format N. -/
  | pop
  /-- READ_LINE (R170), format N. -/
  | readLine
  /-- PKT_RESET (R190), format N. -/
  | pktReset
  /-- PARSE_LINE (R210), format N. -/
  | parseLine
  /-- PKT_STORE (R192), format ST. -/
  | pktStore (off val : Byte)
  /-- ERROR (R270), format ERR. `pay` is PAY[0..N-1]; `N` is its length. -/
  | error (code : Word32) (pay : List Byte)
  /-- SEND (R242), format N. -/
  | send
  deriving DecidableEq, Repr

/-- The opcodes, apart from their operands (R101). -/
inductive Opcode where
  | crcSet | crcByte | crcSpan | pop | readLine | pktReset | parseLine | pktStore | error | send
  deriving DecidableEq, Repr

end Sys2Proof
end

