-- ==== Sys2Proof/WellFormed.lean ====
section
/-! DEFINITION. Which terms of `Instr` are commands that have an encoding (R105, R107, R109). -/

namespace Sys2Proof

/-- R105: `BUF` is 0 (LINE) or 1 (PKT). R107: the payload length `N` is one byte. Every other operand is legal at
every value of its width (R109). -/
def Instr.wf : Instr → Bool
  | .crcSet _ => true
  | .crcByte _ => true
  | .crcSpan buf _ _ => decide (buf.toNat < 2)
  | .pop => true
  | .readLine => true
  | .pktReset => true
  | .parseLine => true
  | .pktStore _ _ => true
  | .error _ pay => decide (pay.length < 256)
  | .send => true

end Sys2Proof
end

