-- ==== Sys2Proof/Decode.lean ====
section
/-! DEFINITION. The decoder of the command stream (R100 to R111), total on any bytes and rejecting by name, and after it
the encoder. -/

namespace Sys2Proof

/-- Why bytes are no command (R100: "exactly one of"). -/
inductive DecodeError where
  /-- R109: the opcode byte is not in the map of R101. -/
  | illegalOpcode
  /-- R110: the command runs past the end of the bytes. -/
  | truncatedCommand
  /-- R109: CRC_SPAN with `BUF` of 2 or more. -/
  | reservedOperand
  deriving DecidableEq, Repr

/-- What the decoder reads: one command and the bytes after it, or a rejection. -/
inductive Decoded where
  | command (i : Instr) (rest : List Byte)
  | rejected (e : DecodeError)
  deriving DecidableEq, Repr

/-! ## The encoding tables, shared by decoder and encoder -/

/-- The opcode map of R101. -/
def Opcode.byte : Opcode → Byte
  | .crcSet    => 0x01#8
  | .crcByte   => 0x02#8
  | .crcSpan   => 0x03#8
  | .pop       => 0x10#8
  | .readLine  => 0x11#8
  | .pktReset  => 0x20#8
  | .parseLine => 0x21#8
  | .pktStore  => 0x22#8
  | .error     => 0x23#8
  | .send      => 0x30#8

/-- Every opcode, in the order of R101. -/
def Opcode.all : List Opcode :=
  [.crcSet, .crcByte, .crcSpan, .pop, .readLine, .pktReset, .parseLine, .pktStore, .error, .send]

/-- The opcode a byte stands for; none for the illegal bytes of R109. -/
def Opcode.ofByte (b : Byte) : Option Opcode :=
  Opcode.all.find? fun o => o.byte == b

/-- The opcode of a command. -/
def Instr.opcode : Instr → Opcode
  | .crcSet _ => .crcSet
  | .crcByte _ => .crcByte
  | .crcSpan _ _ _ => .crcSpan
  | .pop => .pop
  | .readLine => .readLine
  | .pktReset => .pktReset
  | .parseLine => .parseLine
  | .pktStore _ _ => .pktStore
  | .error _ _ => .error
  | .send => .send

/-- A command's length in bytes (R101). -/
def Instr.length : Instr → Nat
  | .crcSet _ => 3
  | .crcByte _ => 2
  | .crcSpan _ _ _ => 5
  | .pop => 1
  | .readLine => 1
  | .pktReset => 1
  | .parseLine => 1
  | .pktStore _ _ => 3
  | .error _ pay => 6 + pay.length
  | .send => 1

/-- The length in bytes of the longest command, an ERROR with 255 payload bytes (R107). -/
def maxCommandLength : Nat := 261

/-- The number whose little-endian bytes are given, first byte least significant (R73, R108). -/
def leValue : List Byte → Nat
  | [] => 0
  | b :: bs => b.toNat + 256 * leValue bs

/-- The first `n` little-endian bytes of a number (R72, R73). -/
def leBytes : Nat → Nat → List Byte
  | 0, _ => []
  | n + 1, v => BitVec.ofNat 8 v :: leBytes n (v / 256)

/-! ## The decoder -/

/-- The operands after the opcode byte, by format (R102 to R107). -/
def decodeOperands : Opcode → List Byte → Decoded
  | .crcSet, b0 :: b1 :: rest => .command (.crcSet (BitVec.ofNat 16 (leValue [b0, b1]))) rest
  | .crcByte, b :: rest => .command (.crcByte b) rest
  | .crcSpan, buf :: off :: c0 :: c1 :: rest =>
    if buf.toNat < 2 then .command (.crcSpan buf off (BitVec.ofNat 16 (leValue [c0, c1]))) rest
    else .rejected .reservedOperand
  | .pop, rest => .command .pop rest
  | .readLine, rest => .command .readLine rest
  | .pktReset, rest => .command .pktReset rest
  | .parseLine, rest => .command .parseLine rest
  | .pktStore, off :: val :: rest => .command (.pktStore off val) rest
  | .error, c0 :: c1 :: c2 :: c3 :: n :: rest =>
    if (rest.take n.toNat).length < n.toNat then .rejected .truncatedCommand
    else .command (.error (BitVec.ofNat 32 (leValue [c0, c1, c2, c3])) (rest.take n.toNat)) (rest.drop n.toNat)
  | .send, rest => .command .send rest
  | .crcSet, _ => .rejected .truncatedCommand
  | .crcByte, _ => .rejected .truncatedCommand
  | .crcSpan, _ => .rejected .truncatedCommand
  | .pktStore, _ => .rejected .truncatedCommand
  | .error, _ => .rejected .truncatedCommand

/-- Decode one command from the front of the bytes (R100). The opcode byte is judged first, then the length, then
`BUF` (R303, items 1 to 3). -/
def decode : List Byte → Decoded
  | [] => .rejected .truncatedCommand
  | op :: bs =>
    match Opcode.ofByte op with
    | none => .rejected .illegalOpcode
    | some o => decodeOperands o bs

/-! ## The encoder -/

/-- The operand bytes of a command (R102 to R107). -/
def Instr.operandBytes : Instr → List Byte
  | .crcSet imm16 => leBytes 2 imm16.toNat
  | .crcByte imm8 => [imm8]
  | .crcSpan buf off cnt => buf :: off :: leBytes 2 cnt.toNat
  | .pop => []
  | .readLine => []
  | .pktReset => []
  | .parseLine => []
  | .pktStore off val => [off, val]
  | .error code pay => leBytes 4 code.toNat ++ BitVec.ofNat 8 pay.length :: pay
  | .send => []

/-- The bytes of a command. -/
def encode (i : Instr) : List Byte :=
  i.opcode.byte :: i.operandBytes

/-! ## The numbering of spec/opcode_table.json -/

/-- The bytes of an instruction whose bits are `w`, numbered as spec/opcode_table.json numbers them (byte `k` holds
bits `8k+7..8k`), with every bit from `nbits` up zero, to the length of the longest command. -/
def tableBytes (nbits w : Nat) : List Byte :=
  leBytes maxCommandLength (w % 2 ^ nbits)

/-- The command the decoder reads from those bytes; none where it rejects them. -/
def decodeTableWord (nbits w : Nat) : Option Instr :=
  match decode (tableBytes nbits w) with
  | .command i _ => some i
  | .rejected _ => none

/-- Those bytes cut to the decoded command's own length; all of them where the decoder rejects them. -/
def tableCommand (nbits w : Nat) : List Byte :=
  match decodeTableWord nbits w with
  | some i => (tableBytes nbits w).take i.length
  | none => tableBytes nbits w

end Sys2Proof
end

