-- ==== Sys2Proof/Machine/Memory.lean ====
section
/-! DEFINITION. The block's byte memories as plain data (R11, R70): a list of (offset, byte) pairs, offsets strictly
rising; an offset that is not listed is *unwritten*. -/

namespace Sys2Proof.Machine

/-- One of the four address spaces of R70, in canonical form (`Memory.wf`). -/
abbrev Memory := List Host.Cell

/-- Read one byte; `none` is *unwritten* (R11). This is what an unlisted offset reads as. -/
def Memory.read : Memory → Nat → Option Byte
  | [], _ => none
  | (c, v) :: m, a => if c = a then some v else Memory.read m a

/-- Write one byte, keeping the offsets strictly rising. -/
def Memory.write : Memory → Nat → Byte → Memory
  | [], a, b => [(a, b)]
  | (c, v) :: m, a, b =>
    if a < c then (a, b) :: (c, v) :: m
    else if a = c then (a, b) :: m
    else (c, v) :: Memory.write m a b

/-- Write bytes at rising offsets from `off` on, in order. -/
def Memory.writeBytes (m : Memory) (off : Nat) : List Byte → Memory
  | [] => m
  | b :: bs => Memory.writeBytes (Memory.write m off b) (off + 1) bs

/-- The `cnt` bytes from `off` on; `none` when one of them is unwritten (R11, R145). -/
def Memory.readSpan (m : Memory) (off : Nat) : Nat → Option (List Byte)
  | 0 => some []
  | cnt + 1 =>
    match Memory.read m off, Memory.readSpan m (off + 1) cnt with
    | some b, some bs => some (b :: bs)
    | _, _ => none

/-- Whether all `cnt` bytes from `off` on are written. -/
def Memory.written (m : Memory) (off cnt : Nat) : Bool :=
  (Memory.readSpan m off cnt).isSome

/-- Every listed offset lies in `lo..size-1`, and the offsets rise strictly. -/
def Memory.rising (lo size : Nat) : Memory → Bool
  | [] => true
  | (c, _) :: m => decide (lo ≤ c) && decide (c < size) && Memory.rising (c + 1) size m

/-- The canonical form of a memory of `size` bytes (R70). No entry can equal what an unlisted offset reads as, since
that is *unwritten* and no write stores it. -/
def Memory.wf (size : Nat) (m : Memory) : Bool :=
  Memory.rising 0 size m

/-- A memory byte by byte, unwritten ones included, as an observation shows it (R308). -/
def Memory.image (size : Nat) (m : Memory) : List (Option Byte) :=
  (List.range size).map (Memory.read m)

end Sys2Proof.Machine
end

