-- ==== Sys2Proof/Config.lean ====
section
/-! DEFINITION. What a launch fixes (the open parameters of R7, as plain data), the agents (R290), and the free values
of the model (opaque constants with no body: nothing can be proved about which value they take). -/

namespace Sys2Proof

/-- The four agents of the block (R290). -/
inductive Agent where
  /-- `CTRL`: the control agent, which executes the command stream. -/
  | ctrl
  /-- `RXI`: the receive-complete interrupt; its step is RX_PUSH. -/
  | rxi
  /-- `TXI`: the transmit-register-empty interrupt; its step is TX_DRAIN. -/
  | txi
  /-- `TXS`: the radio UART's transmitter; its step is TX_SHIFT. -/
  | txs
  deriving DecidableEq, Repr, Inhabited

/-- The field slots F0 to F20 of the measurement shape, in the order of R112. -/
inductive Slot where
  | timestamp
  | energyDeliveredT1 | energyDeliveredT2 | energyInjectedT1 | energyInjectedT2
  | powerDelivered | powerInjected
  | powerDeliveredL1 | powerDeliveredL2 | powerDeliveredL3
  | powerInjectedL1 | powerInjectedL2 | powerInjectedL3
  | voltageL1 | voltageL2 | voltageL3
  | currentL1 | currentL2 | currentL3
  | gas
  | tariff
  deriving DecidableEq, Repr

/-- The extraction kinds of a prefix-table entry (R195). -/
inductive Kind where
  | ts | u8 | u16 | u32
  deriving DecidableEq, Repr

/-- One entry of `PREFIX_TABLE` (R195): the prefix bytes, the slot, the kind and the skip flag. -/
structure PrefixEntry where
  pfx  : List Byte
  slot : Slot
  kind : Kind
  skip : Bool
  deriving DecidableEq, Repr

/-- `TIME_CONV` (R7, R219): integers, in seconds. -/
structure TimeConv where
  epochBase : Int
  tzOffset  : Int
  dstShift  : Int
  deriving DecidableEq, Repr

/-- `ERROR_RESIDUE` (R273). -/
inductive Residue where
  | retain | zero | sentinel
  deriving DecidableEq, Repr

/-- `TX_CLEAR_POLICY` (R245, R246). -/
inductive TxClearPolicy where
  | onEmpty | onLastWrite
  deriving DecidableEq, Repr

/-- The open parameters of R7, which a launch hands over and no step writes (R55). `N_PREFIX` is the length of
`prefixTable`. `tsBlank` and `tsTimeout` have no value unless a launch gives one, and no rule of the block uses them.
`pktInit` is `none` for the value `unwritten`. -/
structure Params where
  prefixTable  : List PrefixEntry
  errFlagBit   : Nat
  fatalFlagBit : Nat
  timeConv     : TimeConv
  errorResidue : Residue
  pktInit      : Option (List Byte)
  txClear      : TxClearPolicy
  tsBlank      : Option Word32
  tsTimeout    : Option Word32
  deriving DecidableEq, Repr

/-- DESIGN CHOICE (log 2, safe): the agent the schedule names at its `n`-th free choice. R291: "The choice is free
and is not part of the state." -/
opaque Config.freeAgent : Nat → Agent

/-- DESIGN CHOICE (log 7, safe): what the 8-bit `MIDX` holds after a match at an entry whose index is 256 or more.
R41 gives the index, which does not fit, and states no value for that case. -/
opaque Config.midxBeyond : Nat → Byte

end Sys2Proof
end

