-- ==== Sys2Proof/Machine/Params.lean ====
section
/-! DEFINITION. The fixed parameters of R6, and the defaults of the open parameters of R7 with the candidate prefix
table of R200. -/

namespace Sys2Proof.Machine

/-! ## Fixed parameters (R6) -/

/-- `RING_SIZE`. -/
def ringSize : Nat := 256

/-- `LINE_BUF_SIZE`. -/
def lineBufSize : Nat := 256

/-- `LINE_MAX`: the most bytes READ_LINE copies. -/
def lineMax : Nat := 255

/-- `PKT_SIZE`. -/
def pktSize : Nat := 60

/-- `ERR_PAYLOAD_CAP`. -/
def errPayloadCap : Nat := 50

/-- `MIN_LINE`. -/
def minLine : Nat := 14

/-- `MIN_TS_LINE`. -/
def minTsLine : Nat := 24

/-- `CRC_POLY_R`. -/
def crcPolyR : Word16 := 0xA001#16

/-- `CRC_SEED0`. -/
def crcSeed0 : Word16 := 0x0000#16

/-- `LEAD`: record bytes 0, 1, 2. -/
def leadMarker : List Byte := [0x42#8, 0xAA#8, 0xFF#8]

/-- `TRAIL`: record bytes 58, 59. -/
def trailMarker : List Byte := [0x55#8, 0xAA#8]

/-- `SENTINEL_BYTE`. -/
def sentinelByte : Byte := 0xFF#8

/-- `NL`. -/
def newline : Byte := 0x0A#8

/-- The offset of the checksum field (R112, R113). -/
def checksumOffset : Nat := 56

/-! ## The candidate prefix table (R200) -/

/-- A number below 100 in decimal digits, without a leading zero. -/
def decimalDigits (n : Nat) : List Byte :=
  if n < 10 then [BitVec.ofNat 8 (0x30 + n)]
  else [BitVec.ofNat 8 (0x30 + n / 10), BitVec.ofNat 8 (0x30 + n % 10)]

/-- The ASCII bytes of the OBIS prefix `a-b:c.d.e(`. -/
def obis (a b c d e : Nat) : List Byte :=
  decimalDigits a ++ 0x2D#8 :: decimalDigits b ++ 0x3A#8 :: decimalDigits c ++ 0x2E#8 :: decimalDigits d
    ++ 0x2E#8 :: decimalDigits e ++ [0x28#8]

/-- The table of R200, row by row. -/
def candidateTable : List PrefixEntry :=
  [⟨obis 0 0 1 0 0, .timestamp, .ts, false⟩,
   ⟨obis 1 0 1 8 1, .energyDeliveredT1, .u32, false⟩,
   ⟨obis 1 0 1 8 2, .energyDeliveredT2, .u32, false⟩,
   ⟨obis 1 0 2 8 1, .energyInjectedT1, .u32, false⟩,
   ⟨obis 1 0 2 8 2, .energyInjectedT2, .u32, false⟩,
   ⟨obis 1 0 1 7 0, .powerDelivered, .u16, false⟩,
   ⟨obis 1 0 2 7 0, .powerInjected, .u16, false⟩,
   ⟨obis 1 0 21 7 0, .powerDeliveredL1, .u16, false⟩,
   ⟨obis 1 0 41 7 0, .powerDeliveredL2, .u16, false⟩,
   ⟨obis 1 0 61 7 0, .powerDeliveredL3, .u16, false⟩,
   ⟨obis 1 0 22 7 0, .powerInjectedL1, .u16, false⟩,
   ⟨obis 1 0 42 7 0, .powerInjectedL2, .u16, false⟩,
   ⟨obis 1 0 62 7 0, .powerInjectedL3, .u16, false⟩,
   ⟨obis 1 0 32 7 0, .voltageL1, .u16, false⟩,
   ⟨obis 1 0 52 7 0, .voltageL2, .u16, false⟩,
   ⟨obis 1 0 72 7 0, .voltageL3, .u16, false⟩,
   ⟨obis 1 0 31 7 0, .currentL1, .u16, false⟩,
   ⟨obis 1 0 51 7 0, .currentL2, .u16, false⟩,
   ⟨obis 1 0 71 7 0, .currentL3, .u16, false⟩,
   ⟨obis 0 1 24 2 1, .gas, .u32, true⟩,
   ⟨obis 0 0 96 14 0, .tariff, .u8, false⟩]

/-- The defaults of R7; `TIME_CONV` is the reference configuration R0. -/
def defaultParams : Params where
  prefixTable  := candidateTable
  errFlagBit   := 31
  fatalFlagBit := 30
  timeConv     := ⟨0, 0, 0⟩
  errorResidue := .retain
  pktInit      := none
  txClear      := .onEmpty
  tsBlank      := none
  tsTimeout    := none

end Sys2Proof.Machine
end

