-- ==== Sys2Proof/Machine/State.lean ====
section
/-! DEFINITION. The state of the P1logger engine as plain data (10_state.md), the reasons a step can stop, and the
state right after reset (R56, R330). -/

namespace Sys2Proof.Machine

/-- `CPH`, the control phase (R32). `rdl n seen` counts the bytes a READ_LINE has copied, 0 ≤ n < `LINE_MAX`. -/
inductive Phase where
  | ready
  | popSeen
  | rdl (n : Fin 255) (seen : Bool)
  | snd (fatal : Bool)
  | halted
  | faulted
  deriving DecidableEq, Repr

/-- The causes of a model fault (R301). -/
inductive FaultCause where
  | illegalOpcode | reservedOperand | spanOutOfRange | uninitialisedRead
  | parseUnterminated | parseMalformed | txOverrun | truncatedCommand
  deriving DecidableEq, Repr

/-- Why the machine has stopped. -/
inductive Fault where
  /-- Raised by `step` alone, in a state whose `FAULT` flag is 1: no agent has a step (R290, R300), for good. The
  code is `FCODE`. Safe: the machine stops where the spec stops. -/
  | faulted (fcode : Byte)
  deriving DecidableEq, Repr

/-- Which condition of R196 a `PREFIX_TABLE` breaks. -/
inductive TableFlaw where
  /-- (a): a prefix has no byte, or more than 14, or its last byte is not `(`. -/
  | badPrefix
  /-- (b): the kind does not fit the slot. -/
  | kindOfSlot
  /-- (c): skip without kind U32. -/
  | skipKind
  /-- (d): a TS prefix of more than 11 bytes. -/
  | tsPrefix
  /-- (e): a prefix is a prefix of another entry's prefix. -/
  | overlap
  deriving DecidableEq, Repr

/-- Why a machine does not run. -/
inductive Refusal where
  /-- `exec`'s arm for an instruction that has no meaning yet. No arm answers it. Safe. -/
  | notModelled (mnemonic : String)
  /-- R313: the launch's `PREFIX_TABLE` breaks R196. Raised by `launch` and `step`. Safe: nothing runs. -/
  | prefixTable (flaw : TableFlaw)
  /-- R313: `ERR_FLAG_BIT` or `FATAL_FLAG_BIT` is outside 0..31. Raised by `launch` and `step`. Safe. -/
  | flagBitRange
  /-- R313: `ERR_FLAG_BIT = FATAL_FLAG_BIT`. Raised by `launch` and `step`. Safe. -/
  | flagBitsEqual
  /-- R313: a `PKT_INIT` image that is not 60 bytes. Raised by `launch` and `step`. Safe. -/
  | pktInitSize
  deriving DecidableEq, Repr

/-- All the spec gives the block (10_state.md), the launch's constants (`params`, `cmd`; R55, log 1), and the model's
own schedule (`plan`, `tick`; log 2). -/
structure State where
  /-- The open parameters of R7, fixed at launch. -/
  params  : Params
  /-- `CMD` (R31), fixed at launch. -/
  cmd     : List Byte
  /-- `CIX` (R30). -/
  cix     : Nat
  /-- `CPH` (R32). -/
  cph     : Phase
  /-- `CRC` (R33). -/
  crc     : Word16
  /-- `RING` (R34). -/
  ring    : Memory
  /-- `WIDX` (R35). -/
  widx    : Byte
  /-- `RIDX` (R35). -/
  ridx    : Byte
  /-- `LINE` (R37). -/
  line    : Memory
  /-- `LEN` (R38, R49: 9 bits). -/
  len     : BitVec 9
  /-- `RXB` (R39); `none` is *unwritten*. -/
  rxb     : Option Byte
  /-- `PKT` (R40). -/
  pkt     : Memory
  /-- `MATCH` (R41). -/
  matched : Bool
  /-- `MIDX` (R41). -/
  midx    : Byte
  /-- `TXBUF` (R42). -/
  txbuf   : Memory
  /-- `TXIDX` (R43). -/
  txidx   : Byte
  /-- `TXBUSY` (R44). -/
  txbusy  : Bool
  /-- `TXIE` (R45). -/
  txie    : Bool
  /-- `TXDR` (R46); `none` is *unwritten*. -/
  txdr    : Option Byte
  /-- `TXE` (R46). -/
  txe     : Bool
  /-- `IN` (R47). -/
  inp     : List Byte
  /-- `WIRE_OUT` (R47). -/
  wireOut : List Byte
  /-- `FAULT` (R48). -/
  fault   : Bool
  /-- `FCODE` (R48). -/
  fcode   : Byte
  /-- The model's own: the turns still to be given, the next one first (log 2). -/
  plan    : List Agent
  /-- The model's own: how many turns were given by free choice (log 2). -/
  tick    : Nat
  deriving DecidableEq, Repr

/-- What a meaning answers. -/
abbrev Answer := Host.Outcome State Fault Refusal

/-- The machine right after reset, with the default parameters, an empty `CMD` and an empty `IN` (R56, R330). Every
register has the value R56 states; `plan` and `tick` are DESIGN CHOICE (log 2). -/
def State.reset : State where
  params  := defaultParams
  cmd     := []
  cix     := 0
  cph     := .ready
  crc     := 0x0000#16
  ring    := []
  widx    := 0#8
  ridx    := 0#8
  line    := []
  len     := 0#9
  rxb     := none
  pkt     := []
  matched := false
  midx    := 0xFF#8
  txbuf   := []
  txidx   := 0#8
  txbusy  := false
  txie    := false
  txdr    := none
  txe     := true
  inp     := []
  wireOut := []
  fault   := false
  fcode   := 0x00#8
  plan    := []
  tick    := 0

end Sys2Proof.Machine
end

