-- ==== Sys2Proof/Machine/Ops.lean ====
section
/-! DEFINITION. The operations every meaning is written over: little-endian memory access (R10, R72), completing a
command (R30), holding (R10), raising a model fault (R300), and the ring's take (R162, R170). -/

namespace Sys2Proof.Machine

/-! ## Little-endian access (R10, R72) -/

/-- `MemWrite(Buf, off, n, v)`. -/
def Memory.writeLe (m : Memory) (off n v : Nat) : Memory :=
  Memory.writeBytes m off (leBytes n v)

/-- `MemRead(Buf, off, n)`; `none` when one of the bytes is unwritten (R11). -/
def Memory.readLe (m : Memory) (off n : Nat) : Option Nat :=
  (Memory.readSpan m off n).map leValue

/-! ## Holding and completing -/

/-- `hold until c` while `c` is false: the agent's state does not change (R10, R30). -/
def hold (s : State) : Answer :=
  .next s

/-- The end of a command of `n` bytes: `CPH <- READY; CIX <- CIX + n` (R30). -/
def State.completed (s : State) (n : Nat) : State :=
  { s with cph := .ready, cix := s.cix + n }

/-- A command's last step: it ends with the command completed. -/
def complete (n : Nat) (s : State) : Answer :=
  .next (s.completed n)

/-- A command whose rule says "Enabled: at `CPH = READY`": in every other phase, and with `FAULT = 1`, the control
agent has no step of this command (R290; log 9). -/
def whenReady (s : State) (k : Answer) : Answer :=
  if s.fault then hold s
  else
    match s.cph with
    | .ready => k
    | _ => hold s

/-! ## Raising a model fault (R300)

This is the block's whole exception entry: there is no handler, no saved program counter and no return (R298, R300);
`FAULT` and `FCODE` are never cleared (R48). -/

/-- `FCODE` of a cause (R301). -/
def FaultCause.code : FaultCause → Byte
  | .illegalOpcode     => 0x01#8
  | .reservedOperand   => 0x02#8
  | .spanOutOfRange    => 0x03#8
  | .uninitialisedRead => 0x04#8
  | .parseUnterminated => 0x05#8
  | .parseMalformed    => 0x06#8
  | .txOverrun         => 0x07#8
  | .truncatedCommand  => 0x08#8

/-- The cause a rejection of the decoder raises (R109, R110). -/
def decodeCause : DecodeError → FaultCause
  | .illegalOpcode    => .illegalOpcode
  | .truncatedCommand => .truncatedCommand
  | .reservedOperand  => .reservedOperand

/-- `raise Fault(code)` in a step that is no control step: `FAULT <- 1; FCODE <- code` and nothing else (R300). No
reachable event step raises one (R301; log 8). -/
def State.eventRaised (s : State) (c : FaultCause) : State :=
  { s with fault := true, fcode := c.code }

/-- `raise Fault(code)` in a control step: the step's other writes are discarded, `FAULT <- 1; FCODE <- code;
CPH <- FAULTED` (R300). -/
def State.raised (s : State) (c : FaultCause) : State :=
  { s with fault := true, fcode := c.code, cph := .faulted }

/-- A control step that raises a fault; `s` is the state before the step. -/
def raise (c : FaultCause) (s : State) : Answer :=
  .next (s.raised c)

/-! ## The ring (R34 to R36) -/

/-- The ring is empty exactly when `WIDX = RIDX` (R36). -/
def State.ringEmpty (s : State) : Bool :=
  s.widx == s.ridx

/-- The unread count `(WIDX - RIDX) mod 256` (R36). -/
def State.unreadCount (s : State) : Nat :=
  (s.widx - s.ridx).toNat

/-- The byte a take step reads, `RING[RIDX]` (R162, R170). -/
def State.ringHead (s : State) : Option Byte :=
  s.ring.read s.ridx.toNat

/-! ## The schedule (R291; log 2) -/

/-- The agent that has the next turn: the plan's first, or a free choice when the plan is empty. That infinite runs are
fair (R350) is a premise of the claims that need it, `WeaklyFair` (Safety.lean). -/
def State.chosen (s : State) : Agent :=
  match s.plan with
  | a :: _ => a
  | [] => Config.freeAgent s.tick

/-- The state with that turn spent. -/
def State.spendTurn (s : State) : State :=
  match s.plan with
  | _ :: rest => { s with plan := rest }
  | [] => { s with tick := s.tick + 1 }

end Sys2Proof.Machine
end

