-- ==== Sys2Proof/Machine/Operands.lean ====
section
/-! DEFINITION. The operand forms: the spans of CRC_SPAN (R105, R145) and the field slots of the packet record (R112). -/

namespace Sys2Proof.Machine

/-- The buffer that `BUF` names, with its size in bytes; none for a reserved value (R105, R145). -/
def spanBuffer (buf : Byte) (s : State) : Option (Nat × Memory) :=
  if buf.toNat = 0 then some (lineBufSize, s.line)
  else if buf.toNat = 1 then some (pktSize, s.pkt)
  else none

/-- The offset of a field slot in the record (R112). -/
def slotOffset : Slot → Nat
  | .timestamp         => 3
  | .energyDeliveredT1 => 7
  | .energyDeliveredT2 => 11
  | .energyInjectedT1  => 15
  | .energyInjectedT2  => 19
  | .powerDelivered    => 23
  | .powerInjected     => 25
  | .powerDeliveredL1  => 27
  | .powerDeliveredL2  => 29
  | .powerDeliveredL3  => 31
  | .powerInjectedL1   => 33
  | .powerInjectedL2   => 35
  | .powerInjectedL3   => 37
  | .voltageL1         => 39
  | .voltageL2         => 41
  | .voltageL3         => 43
  | .currentL1         => 45
  | .currentL2         => 47
  | .currentL3         => 49
  | .gas               => 51
  | .tariff            => 55

/-- The width of a field slot in bytes (R112). -/
def slotWidth : Slot → Nat
  | .timestamp         => 4
  | .energyDeliveredT1 => 4
  | .energyDeliveredT2 => 4
  | .energyInjectedT1  => 4
  | .energyInjectedT2  => 4
  | .powerDelivered    => 2
  | .powerInjected     => 2
  | .powerDeliveredL1  => 2
  | .powerDeliveredL2  => 2
  | .powerDeliveredL3  => 2
  | .powerInjectedL1   => 2
  | .powerInjectedL2   => 2
  | .powerInjectedL3   => 2
  | .voltageL1         => 2
  | .voltageL2         => 2
  | .voltageL3         => 2
  | .currentL1         => 2
  | .currentL2         => 2
  | .currentL3         => 2
  | .gas               => 4
  | .tariff            => 1

/-- The slots in the order of R112, F0 to F20. -/
def allSlots : List Slot :=
  [.timestamp, .energyDeliveredT1, .energyDeliveredT2, .energyInjectedT1, .energyInjectedT2, .powerDelivered,
   .powerInjected, .powerDeliveredL1, .powerDeliveredL2, .powerDeliveredL3, .powerInjectedL1, .powerInjectedL2,
   .powerInjectedL3, .voltageL1, .voltageL2, .voltageL3, .currentL1, .currentL2, .currentL3, .gas, .tariff]

/-- The width in bits of the value a kind extracts (R212, R216). -/
def kindBits : Kind → Nat
  | .u8  => 8
  | .u16 => 16
  | .u32 => 32
  | .ts  => 32

/-- Which kinds a slot takes (R196 (b)). -/
def kindFits : Kind → Slot → Bool
  | .ts, slot  => slot == .timestamp
  | .u32, slot => slotWidth slot == 4 && slot != .timestamp
  | .u16, slot => slotWidth slot == 2
  | .u8, slot  => slotWidth slot == 1

/-- The field write of R220: `MemWrite(PKT, offset(slot), width(slot), v)`. -/
def writeSlot (pkt : Memory) (slot : Slot) (v : Nat) : Memory :=
  pkt.writeLe (slotOffset slot) (slotWidth slot) v

/-- A field slot's value in the record; `none` when a byte of it is unwritten. -/
def readSlot (pkt : Memory) (slot : Slot) : Option Nat :=
  pkt.readLe (slotOffset slot) (slotWidth slot)

end Sys2Proof.Machine
end

