-- ==== Sys2Proof/Machine/Crc.lean ====
section
/-! DEFINITION. The CRC-16 engine (40_crc.md): the functions of R140 and R141, and CRC_SET, CRC_BYTE, CRC_SPAN. -/

namespace Sys2Proof.Machine

/-- One round of R140: shift right, and XOR the polynomial if the low bit was set. -/
def crcRound (c : Word16) : Word16 :=
  if c.getLsbD 0 then (c >>> 1) ^^^ crcPolyR else c >>> 1

/-- `n` rounds. -/
def crcRounds : Nat → Word16 → Word16
  | 0, c => c
  | n + 1, c => crcRounds n (crcRound c)

/-- `crc_step(c, b)` (R140): XOR the byte into the low byte of the checksum, then 8 rounds. -/
def crcStep (c : Word16) (b : Byte) : Word16 :=
  crcRounds 8 (c ^^^ b.setWidth 16)

/-- `crc16(seed, s)` (R141): fold `crc_step` over the bytes, first byte first. -/
def crc16 : Word16 → List Byte → Word16
  | c, [] => c
  | c, b :: bs => crc16 (crcStep c b) bs

/-- CRC_SET (R143): `CRC <- imm16; CIX <- CIX + 3`. -/
def execCrcSet (imm16 : Word16) (s : State) : Answer :=
  whenReady s (complete 3 { s with crc := imm16 })

/-- CRC_BYTE (R144): `CRC <- crc_step(CRC, imm8); CIX <- CIX + 2`. -/
def execCrcByte (imm8 : Byte) (s : State) : Answer :=
  whenReady s (complete 2 { s with crc := crcStep s.crc imm8 })

/-- CRC_SPAN (R145): the checks in the rule's order, then fold the span. A reserved `BUF` is rejected by the decoder
already (R100); the command's own rule raises the same fault (log 10). -/
def execCrcSpan (buf off : Byte) (cnt : Word16) (s : State) : Answer :=
  whenReady s
    (match spanBuffer buf s with
     | none => raise .reservedOperand s
     | some (size, m) =>
       if size < off.toNat + cnt.toNat then raise .spanOutOfRange s
       else
         match m.readSpan off.toNat cnt.toNat with
         | none => raise .uninitialisedRead s
         | some bytes => complete 5 { s with crc := crc16 s.crc bytes })

end Sys2Proof.Machine
end

