-- ==== Sys2Proof/Machine/Packet.lean ====
section
/-! DEFINITION. The record commands PKT_RESET (R190) and PKT_STORE (R192). -/

namespace Sys2Proof.Machine

/-- The freshly reset record of R190: leading marker, 55 sentinel bytes, trailing marker. -/
def sentinelRecord : List Byte :=
  leadMarker ++ List.replicate 55 sentinelByte ++ trailMarker

/-- PKT_RESET (R190). -/
def execPktReset (s : State) : Answer :=
  whenReady s (complete 1 { s with pkt := s.pkt.writeBytes 0 sentinelRecord })

/-- PKT_STORE (R192): `if OFF >= 60: raise Fault(SpanOutOfRange); PKT[OFF] <- VAL; CIX <- CIX + 3`. -/
def execPktStore (off val : Byte) (s : State) : Answer :=
  whenReady s
    (if pktSize ≤ off.toNat then raise .spanOutOfRange s
     else complete 3 { s with pkt := s.pkt.write off.toNat val })

end Sys2Proof.Machine
end

