-- ==== Sys2Proof/Machine/Flags.lean ====
section
/-! DEFINITION. The flags (R51, R52): the STATUS view, the interrupt conditions (R292 to R294), and the outcome PARSE_LINE
records (R41). There is no condition-code register (R52). -/

namespace Sys2Proof.Machine

/-- `STATUS`, the read-only view of R51. Bit 7 is reserved and reads 0. -/
def State.status (s : State) : Byte :=
  BitVec.ofNat 8
    (s.txbusy.toNat + 2 * s.txie.toNat + 4 * s.txe.toNat + 8 * s.ringEmpty.toNat
      + 16 * (decide (s.cph = .halted)).toNat + 32 * s.fault.toNat + 64 * s.matched.toNat)

/-- The receive-complete interrupt is pending while `IN` is non-empty; it has no mask (R292). -/
def State.rxPending (s : State) : Bool :=
  !s.inp.isEmpty

/-- The transmit-register-empty interrupt is pending while `TXE = 1`; `TXIE` masks it (R293). -/
def State.txPending (s : State) : Bool :=
  s.txe

/-- `MIDX` after a match at entry `i` (R41): the index, where 8 bits hold it; else a free value (log 7). -/
def midxOf (i : Nat) : Byte :=
  if i < 256 then BitVec.ofNat 8 i else Config.midxBeyond i

/-- `MATCH <- 1; MIDX <- i` (R210). -/
def State.matchAt (s : State) (i : Nat) : State :=
  { s with matched := true, midx := midxOf i }

/-- `MATCH <- 0; MIDX <- 0xFF` (R210). -/
def State.noMatch (s : State) : State :=
  { s with matched := false, midx := 0xFF#8 }

end Sys2Proof.Machine
end

