-- ==== Sys2Proof/Machine/Parser.lean ====
section
/-! DEFINITION. The field parser PARSE_LINE (R195 to R221). -/

namespace Sys2Proof.Machine

/-- A byte `'0'..'9'` (R119). -/
def isDigit (c : Byte) : Bool :=
  decide (0x30 ≤ c.toNat) && decide (c.toNat ≤ 0x39)

/-- The value of a digit byte. -/
def digitValue (c : Byte) : Nat :=
  c.toNat - 0x30

/-- The first entry, in table order, whose prefix equals the line's leading bytes (R201, R205), with its index;
`i` is the index of the table's first entry. -/
def findEntry (line : List Byte) : Nat → List PrefixEntry → Option (Nat × PrefixEntry)
  | _, [] => none
  | i, e :: es => if e.pfx.isPrefixOf line then some (i, e) else findEntry line (i + 1) es

/-! ## Numbers (R212 to R215) -/

/-- The terminator of a kind (R214): `)` for U8, `*` for U16 and U32. -/
def terminator : Kind → Byte
  | .u8 => 0x29#8
  | _   => 0x2A#8

/-- R213: what follows the next `(`; none if no `(` comes before the end of the line. -/
def skipToParen : List Byte → Option (List Byte)
  | [] => none
  | c :: cs => if c = 0x28#8 then some cs else skipToParen cs

/-- The scan of R212: accumulate digits modulo `m` from `v` on and skip other bytes, up to the terminator; none if the
line ends first. -/
def scanDigits (term : Byte) (m : Nat) : Nat → List Byte → Option Nat
  | _, [] => none
  | v, c :: cs =>
    if c = term then some v
    else if isDigit c then scanDigits term m ((10 * v + digitValue c) % m) cs
    else scanDigits term m v cs

/-- Where the scan starts: at the first byte after the prefix, or past an embedded timestamp (R213). -/
def scanStart (skip : Bool) (field : List Byte) : Option (List Byte) :=
  if skip then skipToParen field else some field

/-- `extract_num` (R212); `field` is the line from the first byte after the prefix on. -/
def extractNum (kind : Kind) (skip : Bool) (field : List Byte) : Except FaultCause Nat :=
  match scanStart skip field with
  | none => .error .parseUnterminated
  | some cs =>
    match scanDigits (terminator kind) (2 ^ kindBits kind) 0 cs with
    | none => .error .parseUnterminated
    | some v => .ok v

/-! ## Timestamps (R216 to R219) -/

/-- `days_from_civil(y, m, d)` (R219), the proleptic Gregorian day count. `/` and `%` on Int divide toward negative
infinity for the positive divisors used here. -/
def daysFromCivil (y m d : Int) : Int :=
  let y' := y - (if m ≤ 2 then 1 else 0)
  let era := y' / 400
  let yoe := y' - 400 * era
  let mp := (m + 9) % 12
  let doy := (153 * mp + 2) / 5 + d - 1
  let doe := 365 * yoe + yoe / 4 - yoe / 100 + doy
  146097 * era + doe - 719468

/-- `time_conv` (R219). -/
def timeConv (conv : TimeConv) (YY MM DD hh mi ss isdst : Int) : Nat :=
  let m0 := MM - 1
  let year := 2000 + YY + m0 / 12
  let days := daysFromCivil year (m0 % 12 + 1) 1 + (DD - 1)
  let secs := 86400 * days + 3600 * hh + 60 * mi + ss
  let t := secs - conv.tzOffset - isdst * conv.dstShift - conv.epochBase
  (t % 2 ^ 32).toNat

/-- The two-digit field at digit `k` of a timestamp (R216). -/
def twoDigits (field : List Byte) (k : Nat) : Int :=
  10 * (digitValue (field.getD k 0#8) : Int) + (digitValue (field.getD (k + 1) 0#8) : Int)

/-- The DST flag byte (R218): 'S' is 1, 'W' is 0, nothing else. -/
def dstFlag (f : Byte) : Option Int :=
  if f = 0x53#8 then some 1 else if f = 0x57#8 then some 0 else none

/-- `extract_ts` (R216); `field` is the line from the first byte after the prefix on. -/
def extractTs (conv : TimeConv) (field : List Byte) : Except FaultCause Nat :=
  if (List.range 12).all fun k => isDigit (field.getD k 0#8) then
    match dstFlag (field.getD 12 0#8) with
    | none => .error .parseMalformed
    | some isdst =>
      .ok (timeConv conv (twoDigits field 0) (twoDigits field 2) (twoDigits field 4) (twoDigits field 6)
        (twoDigits field 8) (twoDigits field 10) isdst)
  else .error .parseMalformed

/-! ## The command -/

/-- The extraction of a matched entry (R210). -/
def extract (conv : TimeConv) (e : PrefixEntry) (line : List Byte) : Except FaultCause Nat :=
  match e.kind with
  | .ts => extractTs conv (line.drop e.pfx.length)
  | _ => extractNum e.kind e.skip (line.drop e.pfx.length)

/-- PARSE_LINE on a line whose `LEN` bytes are all written (R210). -/
def parseBytes (line : List Byte) (s : State) : Answer :=
  match findEntry line 0 s.params.prefixTable with
  | none => complete 1 s.noMatch
  | some (i, e) =>
    if e.kind = .ts ∧ line.length < minTsLine then complete 1 s.noMatch
    else
      match extract s.params.timeConv e line with
      | .error c => raise c s
      | .ok v => complete 1 (({ s with pkt := writeSlot s.pkt e.slot v } : State).matchAt i)

/-- PARSE_LINE (R210). Every byte of the line is written in a reachable state (R54, R205); R11 says what an unwritten
one does (log 8). -/
def execParseLine (s : State) : Answer :=
  whenReady s
    (if s.len.toNat < minLine then complete 1 s.noMatch
     else
       match s.line.readSpan 0 s.len.toNat with
       | none => raise .uninitialisedRead s
       | some line => parseBytes line s)

end Sys2Proof.Machine
end

