-- ==== Sys2Proof/Machine/Receive.lean ====
section
/-! DEFINITION. The receive path (41_ring_and_line.md): the event RX_PUSH, and the commands POP and READ_LINE, each split
into see and take steps. -/

namespace Sys2Proof.Machine

/-- RX_PUSH (R160): `b <- head(IN); IN <- tail(IN); RING[WIDX] <- b; WIDX <- (WIDX + 1) mod 256`. -/
def rxPush (s : State) : State :=
  match s.inp with
  | [] => s
  | b :: rest => { s with inp := rest, ring := s.ring.write s.widx.toNat b, widx := s.widx + 1#8 }

/-- The see step of POP and READ_LINE: hold until `WIDX != RIDX`, then enter the phase (R162, R170). -/
def seeByte (seen : Phase) (s : State) : Answer :=
  if s.ringEmpty then hold s else .next { s with cph := seen }

/-- POP's take step (R162). The ring byte is written in every reachable state; R11 says what an unwritten one does
(log 8). -/
def popTake (s : State) : Answer :=
  match s.ringHead with
  | none => raise .uninitialisedRead s
  | some b => complete 1 { s with rxb := some b, ridx := s.ridx + 1#8 }

/-- POP (R162). -/
def execPop (s : State) : Answer :=
  if s.fault then hold s
  else
    match s.cph with
    | .ready => seeByte .popSeen s
    | .popSeen => popTake s
    | _ => hold s

/-- READ_LINE's take step for byte `n` (R170): copy the byte; the line ends at a newline or at `LINE_MAX` bytes. -/
def lineTake (n : Fin 255) (s : State) : Answer :=
  match s.ringHead with
  | none => raise .uninitialisedRead s
  | some b =>
    if more : b ≠ newline ∧ n.val + 1 < lineMax then
      .next { s with ridx := s.ridx + 1#8, line := s.line.write n.val b, cph := .rdl ⟨n.val + 1, more.2⟩ false }
    else
      complete 1
        { s with
          ridx := s.ridx + 1#8
          line := (s.line.write n.val b).write (n.val + 1) 0x00#8
          len := BitVec.ofNat 9 (n.val + 1) }

/-- READ_LINE (R170). -/
def execReadLine (s : State) : Answer :=
  if s.fault then hold s
  else
    match s.cph with
    | .ready => seeByte (.rdl 0 true) s
    | .rdl n false => seeByte (.rdl n true) s
    | .rdl n true => lineTake n s
    | _ => hold s

end Sys2Proof.Machine
end

