-- ==== Sys2Proof/Machine/Transmit.lean ====
section
/-! DEFINITION. The transmitter (43_transmitter.md): the stamp, SEND, and the events TX_DRAIN and TX_SHIFT. -/

namespace Sys2Proof.Machine

/-- The record with its checksum field zeroed (R241). -/
def zeroChecksum (pkt : Memory) : Memory :=
  pkt.writeLe checksumOffset 2 0

/-- `stamp()` (R241): the record with its checksum written; `none` when a byte other than 56 and 57 is unwritten. -/
def stamped (pkt : Memory) : Option Memory :=
  match (zeroChecksum pkt).readSpan 0 pktSize with
  | none => none
  | some bytes => some (pkt.writeLe checksumOffset 2 (crc16 crcSeed0 bytes).toNat)

/-- The part of `send_record()` after the stamp (R242): copy the record into `TXBUF`, write its first byte to the
UART and arm the interrupt. -/
def startTransmission (pkt : Memory) (record : List Byte) (s : State) : State :=
  let txbuf := s.txbuf.writeBytes 0 record
  { s with
    pkt := pkt
    txbuf := txbuf
    txbusy := true
    txdr := txbuf.read 0
    txe := false
    txidx := 1#8
    txie := true }

/-- `send_record()` (R242), shared by SEND and ERROR's send step. The faults in the rule's order: UninitialisedRead
from the stamp, then TxOverrun (R243). -/
def sendRecord (s : State) : Except FaultCause State :=
  match stamped s.pkt with
  | none => .error .uninitialisedRead
  | some pkt =>
    if s.txe then
      match pkt.readSpan 0 pktSize with
      | none => .error .uninitialisedRead
      | some record => .ok (startTransmission pkt record s)
    else .error .txOverrun

/-- A step that holds until `TXBUSY = 0` and then sends the record; `after` is what the command does next. -/
def sendThen (after : State → Answer) (s : State) : Answer :=
  if s.txbusy then hold s
  else
    match sendRecord s with
    | .error c => raise c s
    | .ok s' => after s'

/-- SEND (R242). -/
def execSend (s : State) : Answer :=
  whenReady s (sendThen (complete 1) s)

/-- Whether the TX_DRAIN that writes byte `TXIDX` also clears `TXBUSY` and `TXIE` (R246). -/
def clearsOnWrite (s : State) : Bool :=
  decide (s.params.txClear = .onLastWrite) && decide (s.txidx.toNat + 1 = pktSize)

/-- TX_DRAIN (R245, R246): write the next byte of `TXBUF`, or disarm when the buffer is exhausted. Every byte it reads
is written in a reachable state; R11 says what an unwritten one does (log 8). -/
def txDrain (s : State) : State :=
  if s.txidx.toNat < pktSize then
    match s.txbuf.read s.txidx.toNat with
    | none => s.eventRaised .uninitialisedRead
    | some b =>
      { s with
        txdr := some b
        txe := false
        txidx := s.txidx + 1#8
        txbusy := s.txbusy && !clearsOnWrite s
        txie := s.txie && !clearsOnWrite s }
  else { s with txbusy := false, txie := false }

/-- TX_SHIFT (R247): `emit(TXDR); TXE <- 1`. `TXDR` is written in a reachable state (log 8). -/
def txShift (s : State) : State :=
  match s.txdr with
  | none => s.eventRaised .uninitialisedRead
  | some b => { s with wireOut := s.wireOut ++ [b], txe := true }

end Sys2Proof.Machine
end

