-- ==== Sys2Proof/Machine/Report.lean ====
section
/-! DEFINITION. The error report ERROR (44_error_report.md): the build step and the send step. -/

namespace Sys2Proof.Machine

/-- `L`, the payload length after the clamp (R271). -/
def errLen (pay : List Byte) : Nat :=
  min pay.length errPayloadCap

/-- `residue(L)` (R273): the record bytes `8+L .. 57`. -/
def writeResidue (r : Residue) (l : Nat) (pkt : Memory) : Memory :=
  match r with
  | .retain => pkt
  | .zero => pkt.writeBytes (8 + l) (List.replicate (errPayloadCap - l) 0x00#8)
  | .sentinel => pkt.writeBytes (8 + l) (List.replicate (errPayloadCap - l) sentinelByte)

/-- `CODE OR 2^ERR_FLAG_BIT` (R270). -/
def flaggedCode (p : Params) (code : Word32) : Word32 :=
  code ||| BitVec.twoPow 32 p.errFlagBit

/-- Bit `FATAL_FLAG_BIT` of the given code (R272). -/
def isFatal (p : Params) (code : Word32) : Bool :=
  code.getLsbD p.fatalFlagBit

/-- The record the build step leaves (R270): residue, code, length, payload. -/
def errorRecord (p : Params) (code : Word32) (pay : List Byte) (pkt : Memory) : Memory :=
  let l := errLen pay
  let m := (writeResidue p.errorResidue l pkt).writeLe 3 4 (flaggedCode p code).toNat
  (m.write 7 (BitVec.ofNat 8 l)).writeBytes 8 (pay.take l)

/-- ERROR's build step (R270). -/
def errorBuild (code : Word32) (pay : List Byte) (s : State) : Answer :=
  .next { s with pkt := errorRecord s.params code pay s.pkt, cph := .snd (isFatal s.params code) }

/-- What ERROR does after its record is sent: halt for good (R272), or go on past its 6 + N bytes. -/
def errorSent (fatal : Bool) (n : Nat) (s : State) : Answer :=
  if fatal then .next { s with cph := .halted } else complete (6 + n) s

/-- ERROR (R270). -/
def execError (code : Word32) (pay : List Byte) (s : State) : Answer :=
  if s.fault then hold s
  else
    match s.cph with
    | .ready => errorBuild code pay s
    | .snd fatal => sendThen (errorSent fatal pay.length) s
    | _ => hold s

end Sys2Proof.Machine
end

