-- ==== Sys2Proof/Machine/Dispatch.lean ====
section
/-! DEFINITION. One step of the control agent on a decoded command: one arm per constructor of Instr. -/

namespace Sys2Proof.Machine

def exec (i : Instr) (s : State) : Host.Outcome State Fault Refusal :=
  match i with
  | .crcSet imm16 => Sys2Proof.Machine.execCrcSet imm16 s
  | .crcByte imm8 => Sys2Proof.Machine.execCrcByte imm8 s
  | .crcSpan buf off cnt => Sys2Proof.Machine.execCrcSpan buf off cnt s
  | .pop => Sys2Proof.Machine.execPop s
  | .readLine => Sys2Proof.Machine.execReadLine s
  | .pktReset => Sys2Proof.Machine.execPktReset s
  | .parseLine => Sys2Proof.Machine.execParseLine s
  | .pktStore off val => Sys2Proof.Machine.execPktStore off val s
  | .error code pay => Sys2Proof.Machine.execError code pay s
  | .send => Sys2Proof.Machine.execSend s

end Sys2Proof.Machine
end

