-- ==== Sys2Proof/Machine/Launch.lean ====
section
/-! DEFINITION. The launch (R308, R330): which parameters are refused (R196, R313), and the state a launch starts from. -/

namespace Sys2Proof.Machine

/-! ## Well-formed prefix tables (R196) -/

/-- R196 (a): 1 to 14 bytes, the last of them `(`. -/
def prefixOk (p : List Byte) : Bool :=
  decide (1 ≤ p.length) && decide (p.length ≤ minLine) && p.getLast? == some 0x28#8

/-- R196 (e), for two entries: one prefix begins with the other. -/
def prefixesOverlap (p q : List Byte) : Bool :=
  p.isPrefixOf q || q.isPrefixOf p

/-- R196 (e) is broken somewhere in the table. -/
def anyOverlap : List PrefixEntry → Bool
  | [] => false
  | e :: es => es.any (fun f => prefixesOverlap e.pfx f.pfx) || anyOverlap es

/-- The first condition of R196, in its order, that a table breaks. -/
def tableFlaw (t : List PrefixEntry) : Option TableFlaw :=
  if t.any fun e => !prefixOk e.pfx then some .badPrefix
  else if t.any fun e => !kindFits e.kind e.slot then some .kindOfSlot
  else if t.any fun e => e.skip && e.kind != .u32 then some .skipKind
  else if t.any fun e => e.kind == .ts && decide (11 < e.pfx.length) then some .tsPrefix
  else if anyOverlap t then some .overlap
  else none

/-! ## Refused launches (R313) -/

/-- A `PKT_INIT` image that is not 60 bytes. -/
def pktInitBad : Option (List Byte) → Bool
  | none => false
  | some image => image.length != pktSize

/-- The condition of R313 that the parameters break, the first in the rule's order (log 15); none when the launch is
not refused. `ERROR_RESIDUE` and `TX_CLEAR_POLICY` cannot leave their value sets: they are types. -/
def launchRefusal (p : Params) : Option Refusal :=
  match tableFlaw p.prefixTable with
  | some flaw => some (.prefixTable flaw)
  | none =>
    if p.errFlagBit = p.fatalFlagBit then some .flagBitsEqual
    else if 32 ≤ p.errFlagBit ∨ 32 ≤ p.fatalFlagBit then some .flagBitRange
    else if pktInitBad p.pktInit then some .pktInitSize
    else none

/-! ## The launched state -/

/-- `PKT` at reset: the parameter `PKT_INIT` (R40). -/
def initialPkt : Option (List Byte) → Memory
  | none => []
  | some image => Memory.writeBytes [] 0 (image.take pktSize)

/-- The reset state of R56 with a launch's parameters, `CMD` and `IN` (R308). -/
def State.launched (p : Params) (cmd inp : List Byte) : State :=
  { State.reset with params := p, cmd := cmd, inp := inp, pkt := initialPkt p.pktInit }

/-- A launch: refused, saying which condition failed, or the state it starts from (R313, R330). -/
def launch (p : Params) (cmd inp : List Byte) : Answer :=
  match launchRefusal p with
  | some r => .refused r
  | none => .next (.launched p cmd inp)

end Sys2Proof.Machine
end

