-- ==== Sys2Proof/Machine/Control.lean ====
section
/-! DEFINITION. The turns of the four agents (R290, R291): fetching and running a command, the events, and which agents
have an enabled step. -/

namespace Sys2Proof.Machine

/-- What stands in `CMD` at `CIX`, decoded; none when `CIX` is at the end (R100, R290). -/
def fetch (s : State) : Option Decoded :=
  if s.cix < s.cmd.length then some (decode (s.cmd.drop s.cix)) else none

/-- A turn of the control agent: one step of the command at `CIX`. Decoding belongs to a command's first step (R100),
so a rejection is raised at `CPH = READY` only. `CMD` and `CIX` do not change inside a command, so decoding again in a
later phase reads the same command. -/
def ctrlTurn (s : State) : Answer :=
  if s.fault then hold s
  else
    match fetch s with
    | none => hold s
    | some (.command i _) => exec i s
    | some (.rejected e) => whenReady s (raise (decodeCause e) s)

/-- The hold conditions of a command's first step (R162, R170, R242): whether it may be taken. -/
def firstStepEnabled (s : State) : Decoded → Bool
  | .command .pop _ => !s.ringEmpty
  | .command .readLine _ => !s.ringEmpty
  | .command .send _ => !s.txbusy
  | .command _ _ => true
  | .rejected _ => true

/-- Whether the control agent has a step (R290), apart from `FAULT = 0`. -/
def ctrlEnabled (s : State) : Bool :=
  match s.cph with
  | .ready =>
    match fetch s with
    | none => false
    | some d => firstStepEnabled s d
  | .popSeen => true
  | .rdl _ true => true
  | .rdl _ false => !s.ringEmpty
  | .snd _ => !s.txbusy
  | .halted => false
  | .faulted => false

/-- Whether an agent has an enabled step (R290; R160, R245, R247). -/
def State.enabled (s : State) : Agent → Bool
  | .ctrl => !s.fault && ctrlEnabled s
  | .rxi => !s.fault && s.rxPending
  | .txi => !s.fault && s.txie && s.txPending
  | .txs => !s.fault && !s.txe

/-- A turn of an agent; with no enabled step it holds (log 3). -/
def turn (a : Agent) (s : State) : Answer :=
  match a with
  | .ctrl => ctrlTurn s
  | .rxi => if s.enabled .rxi then .next (rxPush s) else hold s
  | .txi => if s.enabled .txi then .next (txDrain s) else hold s
  | .txs => if s.enabled .txs then .next (txShift s) else hold s

/-- One step of the block: a refused launch does not run (R313), a faulted block does not step (R300), and otherwise
the agent whose turn it is moves. -/
def stepOf (s : State) : Answer :=
  match launchRefusal s.params with
  | some r => .refused r
  | none => if s.fault then .fault (.faulted s.fcode) else turn s.chosen s.spendTurn

/-! ## The states without an enabled step (R305, R310) -/

/-- No agent has an enabled step. -/
def State.quiescent (s : State) : Bool :=
  !s.enabled .ctrl && !s.enabled .rxi && !s.enabled .txi && !s.enabled .txs

/-- The control agent has finished its commands or is halted (R310 (2)). -/
def State.ctrlDone (s : State) : Bool :=
  (decide (s.cph = .ready) && decide (s.cix = s.cmd.length)) || decide (s.cph = .halted)

/-- A final state (R310). -/
def State.final (s : State) : Bool :=
  !s.fault && s.ctrlDone && s.inp.isEmpty && !s.txbusy && s.txe

/-- A stuck state (R305): no agent has an enabled step, no fault, and not final. -/
def State.stuck (s : State) : Bool :=
  s.quiescent && !s.fault && !s.final

end Sys2Proof.Machine
end

