-- ==== Sys2Proof/Machine/Step.lean ====
section
/-! DEFINITION. One step of the machine, and how a command is placed where the next step fetches it. -/

namespace Sys2Proof.Machine

/-- One step (R290, R291, R300, R313). -/
def step (s : State) : Host.Outcome State Fault Refusal :=
  stepOf s

/-- `s` with the command whose table bits are `w` placed at `CIX` (what stands before `CIX` in `CMD` stays, filled up
with zero bytes if `CMD` is shorter), the control agent between commands and given the next turn. The command is the
last one of `CMD`. This stands for a launch with that command in `CMD` (log 1). -/
def State.withFetchWord (s : State) (nbits w : Nat) : State :=
  { s with
    cmd := s.cmd.take s.cix ++ List.replicate (s.cix - s.cmd.length) 0#8 ++ tableCommand nbits w
    cph := .ready
    plan := .ctrl :: s.plan }

end Sys2Proof.Machine
end

