-- ==== Sys2Proof/Machine/Observe.lean ====
section
/-! DEFINITION. What the host reads: the register view by number (R49) and the observation of a final state (R308, R310). -/

namespace Sys2Proof.Machine

/-- The scalar state elements that have a register number (R49). -/
inductive Reg where
  | crc | rxb | len | matched | midx | widx | ridx | txidx | status | fcode | txdr | cix
  deriving DecidableEq, Repr

/-- The register numbers of R49. -/
def regNumber : Reg → Nat
  | .crc     => 0x00
  | .rxb     => 0x01
  | .len     => 0x02
  | .matched => 0x03
  | .midx    => 0x04
  | .widx    => 0x05
  | .ridx    => 0x06
  | .txidx   => 0x07
  | .status  => 0x08
  | .fcode   => 0x09
  | .txdr    => 0x0A
  | .cix     => 0x0B

/-- The registers in the order of their numbers. -/
def allRegs : List Reg :=
  [.crc, .rxb, .len, .matched, .midx, .widx, .ridx, .txidx, .status, .fcode, .txdr, .cix]

/-- The register with a number; none where R49 gives the number to none. -/
def regOfNumber (n : Nat) : Option Reg :=
  allRegs.find? fun r => regNumber r == n

/-- A register's value as an unsigned number; `none` is *unwritten* (R49). Reading has no side effect (R78). -/
def State.reg (s : State) : Reg → Option Nat
  | .crc     => some s.crc.toNat
  | .rxb     => s.rxb.map BitVec.toNat
  | .len     => some s.len.toNat
  | .matched => some s.matched.toNat
  | .midx    => some s.midx.toNat
  | .widx    => some s.widx.toNat
  | .ridx    => some s.ridx.toNat
  | .txidx   => some s.txidx.toNat
  | .status  => some s.status.toNat
  | .fcode   => some s.fcode.toNat
  | .txdr    => s.txdr.map BitVec.toNat
  | .cix     => some s.cix

/-- The observation of R308. Each buffer byte is a value or *unwritten*; `regs` lists the registers of R49 in the order
of their numbers. R308's table does not hand `RING` back, while R310 calls unread ring bytes "part of the observed
state": the observation follows the table and leaves `RING` out (DESIGN CHOICE, log 18). -/
structure Observation where
  wireOut : List Byte
  pkt     : List (Option Byte)
  line    : List (Option Byte)
  txbuf   : List (Option Byte)
  regs    : List (Option Nat)
  cph     : Phase
  fault   : Bool
  fcode   : Byte
  inp     : List Byte
  deriving DecidableEq, Repr

/-- The host reads a final state; the observation of any other state is not defined (R310). -/
def observe (s : State) : Option Observation :=
  if s.final then
    some
      { wireOut := s.wireOut
        pkt := s.pkt.image pktSize
        line := s.line.image lineBufSize
        txbuf := s.txbuf.image pktSize
        regs := allRegs.map s.reg
        cph := s.cph
        fault := s.fault
        fcode := s.fcode
        inp := s.inp }
  else none

end Sys2Proof.Machine
end

