-- ==== Sys2Proof/Safety.lean ====
section
/-! DEFINITION. The terms claims are stated in: launches and premises on runs (R332, R341, R350), the ring as a queue (R36), the
invariants of the reachable states (R53, R54 and what the rules imply), the records on the wire (R241, R248), and the
budget every step spends (R305). -/

namespace Sys2Proof.Machine

/-! ## Launches -/

/-- `clean_launch` (R332), under any schedule: the reset state with parameters that are not refused. -/
def CleanLaunch (s : State) : Prop :=
  ∃ p cmd inp plan tick,
    launchRefusal p = none ∧ s = { State.launched p cmd inp with plan := plan, tick := tick }

/-- The launch is not refused and no fault is recorded: the states in which some agent may step (R290, R313). -/
def State.runs (s : State) : Prop :=
  launchRefusal s.params = none ∧ s.fault = false

/-- `FAULT = 0` and `CPH = READY`: the enabling condition of the commands that take one step (R143 and its like). -/
def State.ready (s : State) : Prop :=
  s.fault = false ∧ s.cph = .ready

/-- `k` steps from `s`, up to the first fault or refusal: a run's state after them. -/
def runFor : Nat → State → Answer
  | 0, s => .next s
  | k + 1, s =>
    match step s with
    | .next t => runFor k t
    | .fault r => .fault r
    | .refused r => .refused r

/-! ## Weak fairness (R350) -/

/-- An infinite run: every state's step answers the next one. So none of its states is faulted or refused. -/
def IsRun (run : Nat → State) : Prop :=
  ∀ n, step (run n) = .next (run (n + 1))

/-- Weak fairness (R350): no agent stays enabled from some point of the run on without taking a step. An enabled agent
that is given the turn takes its step. -/
def WeaklyFair (run : Nat → State) : Prop :=
  ∀ (a : Agent) (n : Nat), (∀ k, n ≤ k → (run k).enabled a = true) → ∃ k, n ≤ k ∧ (run k).chosen = a

/-! ## Prefix tables (R196) -/

/-- The slots that R196 (b) allows a kind. -/
def kindSlots : Kind → List Slot
  | .ts  => [.timestamp]
  | .u32 => [.energyDeliveredT1, .energyDeliveredT2, .energyInjectedT1, .energyInjectedT2, .gas]
  | .u16 =>
    [.powerDelivered, .powerInjected, .powerDeliveredL1, .powerDeliveredL2, .powerDeliveredL3, .powerInjectedL1,
     .powerInjectedL2, .powerInjectedL3, .voltageL1, .voltageL2, .voltageL3, .currentL1, .currentL2, .currentL3]
  | .u8  => [.tariff]

/-! ## The ring as a queue (R36, R161) -/

/-- The ring byte `k` places after `RIDX`. -/
def State.ringByte (s : State) (k : Nat) : Option Byte :=
  s.ring.read (s.ridx + BitVec.ofNat 8 k).toNat

/-- The unread bytes, oldest first. -/
def State.unread (s : State) : List (Option Byte) :=
  (List.range s.unreadCount).map s.ringByte

/-- The control agent has seen a non-empty ring and will take a byte (R32). -/
def Phase.seen : Phase → Bool
  | .popSeen => true
  | .rdl _ true => true
  | _ => false

/-- How many bytes from `RIDX` on the control agent's later steps may read before another RX_PUSH. Between see and
take the producer may lap `RIDX` (R162), and the count is then taken from the byte after the one to be read. -/
def State.takeable (s : State) : Nat :=
  if s.cph.seen then (s.widx - s.ridx - 1#8).toNat + 1 else s.unreadCount

/-- `ring_lag_ok` over the next `k` steps (R341): no RX_PUSH finds 255 unread bytes. -/
def ringLagOk : Nat → State → Prop
  | 0, _ => True
  | k + 1, s =>
    (s.chosen = .rxi → s.rxPending = true → s.unreadCount < 255) ∧ ∀ t, step s = .next t → ringLagOk k t

/-! ## Invariants of the reachable states -/

/-- Each memory is in its canonical form and within its space (R70). -/
structure MemoriesInv (s : State) : Prop where
  ring  : s.ring.wf ringSize = true
  line  : s.line.wf lineBufSize = true
  pkt   : s.pkt.wf pktSize = true
  txbuf : s.txbuf.wf pktSize = true

/-- Every ring byte a take step can read is written (R34, R162). -/
structure RingInv (s : State) : Prop where
  written : ∀ k, k < s.takeable → ∃ b, s.ringByte k = some b

/-- The line buffer (R54). While a READ_LINE is copying, it may have written over the terminator of the previous line
(log 17). -/
structure LineInv (s : State) : Prop where
  lenMax     : s.len.toNat ≤ lineMax
  written    : ∀ i, i < s.len.toNat → ∃ b, s.line.read i = some b
  terminated : (∀ n seen, s.cph ≠ .rdl n seen) → s.fault = false → 0 < s.len.toNat →
    s.line.read s.len.toNat = some 0x00#8
  copied     : ∀ n seen, s.cph = .rdl n seen → ∀ i, i < n.val → ∃ b, s.line.read i = some b

/-- The transmitter (R53 and the facts it rests on). -/
structure TransmitInv (s : State) : Prop where
  enable    : s.txie = s.txbusy
  index     : s.txidx.toNat ≤ pktSize
  idleIndex : s.txbusy = false → s.txidx = 0#8 ∨ s.txidx = 60#8
  idleEmpty : s.params.txClear = .onEmpty → s.txbusy = false → s.txe = true
  lastWrite : s.params.txClear = .onLastWrite → s.txbusy = true → s.txidx.toNat < pktSize
  data      : s.txe = false → ∃ b, s.txdr = some b
  started   : s.txbusy = true ∨ s.txe = false → 1 ≤ s.txidx.toNat ∧ s.txbuf.written 0 pktSize = true

/-- The control agent stands inside `CMD`, and the phase of a multi-step command is that of the command at `CIX`
(R30, R32, R272). -/
structure ControlInv (s : State) : Prop where
  inRange   : s.cix ≤ s.cmd.length
  popPhase  : s.cph = .popSeen → ∃ rest, fetch s = some (.command .pop rest)
  linePhase : ∀ n seen, s.cph = .rdl n seen → ∃ rest, fetch s = some (.command .readLine rest)
  sendPhase : ∀ fatal, s.cph = .snd fatal →
    ∃ code pay rest, fetch s = some (.command (.error code pay) rest) ∧ fatal = isFatal s.params code
  haltPhase : s.cph = .halted →
    ∃ code pay rest, fetch s = some (.command (.error code pay) rest) ∧ isFatal s.params code = true

/-- The fault record (R48, R300, R301): faulted exactly in phase FAULTED, code 0 while there is no fault, else one of
the eight codes; TxOverrun only under OnLastWrite (R243). -/
structure FaultInv (s : State) : Prop where
  phase   : s.fault = true ↔ s.cph = .faulted
  clear   : s.fault = false → s.fcode = 0x00#8
  code    : s.fault = true → 0x01 ≤ s.fcode.toNat ∧ s.fcode.toNat ≤ 0x08
  overrun : s.fcode = 0x07#8 → s.params.txClear = .onLastWrite

/-- The invariant of the reachable states. -/
structure Inv (s : State) : Prop where
  memories : MemoriesInv s
  ring     : RingInv s
  line     : LineInv s
  transmit : TransmitInv s
  control  : ControlInv s
  fault    : FaultInv s

/-! ## Records on the wire (R80, R241, R248) -/

/-- A record's bytes with its checksum field zeroed (R113). -/
def zeroedRecord (r : List Byte) : List Byte :=
  r.take 56 ++ [0x00#8, 0x00#8] ++ r.drop 58

/-- 60 bytes whose checksum field holds the CRC-16 over the record with that field zeroed (R113, R241). -/
def RecordOk (r : List Byte) : Prop :=
  r.length = pktSize ∧ (crc16 crcSeed0 (zeroedRecord r)).toNat = leValue ((r.drop 56).take 2)

/-- How many bytes of the record in `TXBUF` have left on the wire: `TXIDX` bytes have been written to `TXDR`, and the
last of them is still there when `TXE = 0`. -/
def State.sent (s : State) : Nat :=
  if s.txe then s.txidx.toNat else s.txidx.toNat - 1

/-- `WIRE_OUT` is whole records, each with a valid checksum, then the part of the record in `TXBUF` sent so far. -/
structure WireInv (s : State) : Prop where
  buffer : s.txbusy = true ∨ s.txe = false → ∃ r, s.txbuf.readSpan 0 pktSize = some r ∧ RecordOk r
  data   : s.txe = false → s.txdr = s.txbuf.read (s.txidx.toNat - 1)
  wire   : ∃ records : List (List Byte), ∃ part : List Byte,
    s.wireOut = records.flatten ++ part ∧ (∀ r ∈ records, RecordOk r) ∧
      part.length = s.sent % pktSize ∧ ∀ k, k < part.length → part[k]? = s.txbuf.read k

/-! ## Values independent of the parser's own scan -/

/-- The number that a run of decimal digit bytes writes, exact (R215). -/
def decimalValue (digits : List Byte) : Nat :=
  digits.foldl (fun v c => 10 * v + (c.toNat - 0x30)) 0

/-- The leap years of the Gregorian calendar. -/
def leapYear (y : Nat) : Bool :=
  (y % 4 == 0 && y % 100 != 0) || y % 400 == 0

/-- The days of month `m` (1 to 12) of year `y`. -/
def monthDays (y m : Nat) : Nat :=
  if m = 2 then (if leapYear y then 29 else 28)
  else if m = 4 ∨ m = 6 ∨ m = 9 ∨ m = 11 then 30
  else 31

/-- The days from 1 January 1970 to 1 January of the year `1970 + n`, year by year. -/
def daysToYear : Nat → Nat
  | 0 => 0
  | n + 1 => daysToYear n + (if leapYear (1970 + n) then 366 else 365)

/-- The days of the first `m` months of year `y`, month by month. -/
def daysToMonth (y : Nat) : Nat → Nat
  | 0 => 0
  | m + 1 => daysToMonth y m + monthDays y (m + 1)

/-! ## The budget (R305) -/

/-- The steps a phase may still take, bounded. -/
def Phase.work : Phase → Nat
  | .ready       => 600
  | .popSeen     => 1
  | .rdl n false => 2 * (255 - n.val)
  | .rdl n true  => 2 * (255 - n.val) - 1
  | .snd _       => 130
  | .halted      => 0
  | .faulted     => 0

/-- A bound on the steps that are not holds: the bytes of `CMD` and `IN` still to come, the phase, and the transmission
in flight. -/
def State.work (s : State) : Nat :=
  1000 * (s.cmd.length - s.cix) + s.cph.work + s.inp.length + 2 * (pktSize - s.txidx.toNat)
    + s.txie.toNat + (!s.txe).toNat + (!s.fault).toNat

end Sys2Proof.Machine
end

