-- ==== Sys2Proof/Certificates/Slice0/Obligations.lean ====
section
/-! DEFINITION. The statements for the provers. Each docstring names the rules of spec/ it follows, and says where a
clause is the model's choice (with its log entry). -/

open Sys2Proof Sys2Proof.Machine

/-! ## Encodings (30_encoding.md) -/

/-- R124, row by row: the bytes of each example decode to its command. The rule marks its rows as derived from R101 to
R107. -/
def Obligations.ExampleBytesDecode : Prop :=
  decode [0x01#8, 0xFF#8, 0xFF#8] = .command (.crcSet 0xFFFF#16) [] ∧
  decode [0x02#8, 0x31#8] = .command (.crcByte 0x31#8) [] ∧
  decode [0x03#8, 0x00#8, 0x00#8, 0x1A#8, 0x00#8] = .command (.crcSpan 0#8 0#8 26#16) [] ∧
  decode [0x03#8, 0x01#8, 0x00#8, 0x3C#8, 0x00#8] = .command (.crcSpan 1#8 0#8 60#16) [] ∧
  decode [0x10#8] = .command .pop [] ∧
  decode [0x11#8] = .command .readLine [] ∧
  decode [0x20#8] = .command .pktReset [] ∧
  decode [0x21#8] = .command .parseLine [] ∧
  decode [0x22#8, 0x03#8, 0xFE#8] = .command (.pktStore 3#8 0xFE#8) [] ∧
  decode [0x23#8, 0x01#8, 0x00#8, 0x00#8, 0x00#8, 0x04#8, 0xDE#8, 0xAD#8, 0xBE#8, 0xEF#8] =
    .command (.error 0x00000001#32 [0xDE#8, 0xAD#8, 0xBE#8, 0xEF#8]) [] ∧
  decode [0x30#8] = .command .send []

/-- R100 to R108: decoding the encoding of a well-formed command gives it back, whatever bytes follow. -/
def Obligations.DecodeInvertsEncode : Prop :=
  ∀ (i : Instr) (rest : List Byte), i.wf = true → decode (encode i ++ rest) = .command i rest

/-- R100 to R108, the other way: what decodes to a command is that command's encoding, and the command is
well-formed. -/
def Obligations.EncodeInvertsDecode : Prop :=
  ∀ (bytes : List Byte) (i : Instr) (rest : List Byte),
    decode bytes = .command i rest → i.wf = true ∧ bytes = encode i ++ rest

/-- R100, R109, R110: which bytes are rejected, and by which name. -/
def Obligations.DecodeRejectsExactly : Prop :=
  ∀ (op : Byte) (bytes : List Byte),
    (decode (op :: bytes) = .rejected .illegalOpcode ↔
      op.toNat = 0x00 ∨ (0x04 ≤ op.toNat ∧ op.toNat ≤ 0x0F) ∨ (0x12 ≤ op.toNat ∧ op.toNat ≤ 0x1F) ∨
        (0x24 ≤ op.toNat ∧ op.toNat ≤ 0x2F) ∨ 0x31 ≤ op.toNat) ∧
    (decode (op :: bytes) = .rejected .truncatedCommand ↔
      (op = 0x01#8 ∧ bytes.length + 1 < 3) ∨ (op = 0x02#8 ∧ bytes.length + 1 < 2) ∨
        (op = 0x03#8 ∧ bytes.length + 1 < 5) ∨ (op = 0x22#8 ∧ bytes.length + 1 < 3) ∨
        (op = 0x23#8 ∧ (bytes.length + 1 < 6 ∨ bytes.length + 1 < 6 + (bytes.getD 4 0#8).toNat))) ∧
    (decode (op :: bytes) = .rejected .reservedOperand ↔
      op = 0x03#8 ∧ 5 ≤ bytes.length + 1 ∧ 2 ≤ (bytes.getD 0 0#8).toNat)

/-! ## The step (R290, R291, R300, R313) -/

/-- R100, R290, R291: a step is the turn of the chosen agent, in the state with the turn spent (the turn is the model's
own, log 2); and when the bytes at `CIX` decode to a command, the control agent's turn is that command's meaning, which
itself moves `CIX`. -/
def Obligations.StepRunsFetchedCommand : Prop :=
  (∀ s : State, s.runs → step s = turn s.chosen s.spendTurn) ∧
  ∀ (s : State) (i : Instr) (rest : List Byte),
    s.runs → s.chosen = .ctrl → s.cix < s.cmd.length → decode (s.cmd.drop s.cix) = .command i rest →
      step s = exec i s.spendTurn

/-- R109, R110, R300, R301: bytes that are no command raise the fault of their rejection at READY: `FAULT`, `FCODE`
and `CPH` change, nothing else but the turn. -/
def Obligations.StepRejectsByName : Prop :=
  ∀ (s : State) (e : DecodeError),
    s.runs → s.chosen = .ctrl → s.cph = .ready → s.cix < s.cmd.length → decode (s.cmd.drop s.cix) = .rejected e →
      step s =
        .next
          { s.spendTurn with
            fault := true
            cph := .faulted
            fcode :=
              match e with
              | .illegalOpcode => 0x01#8
              | .reservedOperand => 0x02#8
              | .truncatedCommand => 0x08#8 }

/-- R300: a faulted block does not step. That the model then answers a fault is log 4. -/
def Obligations.FaultedBlockStops : Prop :=
  ∀ s : State, launchRefusal s.params = none → s.fault = true → step s = .fault (.faulted s.fcode)

/-- R196: a prefix table is accepted exactly when (a) to (e) hold. -/
def Obligations.TableAcceptedIffWellFormed : Prop :=
  ∀ t : List PrefixEntry,
    tableFlaw t = none ↔
      (∀ e ∈ t, 1 ≤ e.pfx.length ∧ e.pfx.length ≤ 14 ∧ e.pfx.getLast? = some 0x28#8) ∧
      (∀ e ∈ t, e.slot ∈ kindSlots e.kind) ∧
      (∀ e ∈ t, e.skip = true → e.kind = .u32) ∧
      (∀ e ∈ t, e.kind = .ts → e.pfx.length ≤ 11) ∧
      (∀ (i j : Nat) (e f : PrefixEntry), i ≠ j → t[i]? = some e → t[j]? = some f → ¬e.pfx <+: f.pfx)

/-- R313: which launches are refused; a refused launch does not run; and the refusal names a condition that failed, down
to the one of R196 (a) to (e). That `step` refuses too, and which condition is named where several fail, are the model's
choice (log 5, log 15). -/
def Obligations.RefusedLaunchDoesNotRun : Prop :=
  (∀ p : Params,
    launchRefusal p = none ↔
      tableFlaw p.prefixTable = none ∧ p.errFlagBit ≠ p.fatalFlagBit ∧ p.errFlagBit ≤ 31 ∧ p.fatalFlagBit ≤ 31 ∧
        ∀ image, p.pktInit = some image → image.length = 60) ∧
  (∀ (s : State) (r : Refusal), launchRefusal s.params = some r ↔ step s = .refused r) ∧
  (∀ (p : Params) (cmd inp : List Byte) (r : Refusal), launchRefusal p = some r ↔ launch p cmd inp = .refused r) ∧
  (∀ (p : Params) (r : Refusal), launchRefusal p = some r →
    (∃ flaw, r = .prefixTable flaw ∧ tableFlaw p.prefixTable = some flaw) ∨
      (r = .flagBitsEqual ∧ p.errFlagBit = p.fatalFlagBit) ∨
      (r = .flagBitRange ∧ (32 ≤ p.errFlagBit ∨ 32 ≤ p.fatalFlagBit)) ∨
      (r = .pktInitSize ∧ ∃ image, p.pktInit = some image ∧ image.length ≠ 60)) ∧
  (∀ (t : List PrefixEntry) (flaw : TableFlaw), tableFlaw t = some flaw →
    match flaw with
    | .badPrefix => ∃ e ∈ t, e.pfx.length = 0 ∨ 14 < e.pfx.length ∨ e.pfx.getLast? ≠ some 0x28#8
    | .kindOfSlot => ∃ e ∈ t, e.slot ∉ kindSlots e.kind
    | .skipKind => ∃ e ∈ t, e.skip = true ∧ e.kind ≠ .u32
    | .tsPrefix => ∃ e ∈ t, e.kind = .ts ∧ 11 < e.pfx.length
    | .overlap =>
      ∃ (i j : Nat) (e f : PrefixEntry), i ≠ j ∧ t[i]? = some e ∧ t[j]? = some f ∧ e.pfx <+: f.pfx)

/-- R56: the reset value of every state element, under any launch (R308, R330). `plan` and `tick` are the
model's own and not named. -/
def Obligations.LaunchStartsFromResetValues : Prop :=
  ∀ (p : Params) (cmd inp : List Byte) (s : State), launch p cmd inp = .next s →
    s.params = p ∧ s.cmd = cmd ∧ s.inp = inp ∧
    s.cix = 0 ∧ s.cph = .ready ∧ s.crc = 0x0000#16 ∧ (∀ a, s.ring.read a = none) ∧ s.widx = 0#8 ∧ s.ridx = 0#8 ∧
    (∀ a, s.line.read a = none) ∧ s.len = 0#9 ∧ s.rxb = none ∧
    (p.pktInit = none → ∀ a, s.pkt.read a = none) ∧
    (∀ image, p.pktInit = some image → ∀ a, s.pkt.read a = image[a]?) ∧
    s.matched = false ∧ s.midx = 0xFF#8 ∧ (∀ a, s.txbuf.read a = none) ∧ s.txidx = 0#8 ∧ s.txbusy = false ∧
    s.txie = false ∧ s.txdr = none ∧ s.txe = true ∧ s.fault = false ∧ s.fcode = 0x00#8 ∧ s.wireOut = []

/-- R51: the layout of `STATUS`, and its reset value, which the rule marks as derived. -/
def Obligations.StatusLayout : Prop :=
  (∀ s : State,
    s.status.getLsbD 0 = s.txbusy ∧ s.status.getLsbD 1 = s.txie ∧ s.status.getLsbD 2 = s.txe ∧
    s.status.getLsbD 3 = decide (s.widx = s.ridx) ∧ s.status.getLsbD 4 = decide (s.cph = .halted) ∧
    s.status.getLsbD 5 = s.fault ∧ s.status.getLsbD 6 = s.matched ∧ s.status.getLsbD 7 = false) ∧
  State.reset.status = 0x0C#8

/-! ## The CRC engine (40_crc.md) -/

/-- R143. -/
def Obligations.CrcSetSetsRegister : Prop :=
  (∀ (s : State) (imm16 : Word16), s.ready →
    exec (.crcSet imm16) s = .next { s with crc := imm16, cix := s.cix + 3 }) ∧
  (∀ bytes : List Byte, bytes.length < 2 → decode (0x01#8 :: bytes) = .rejected .truncatedCommand)

/-- R144, with the corner case of R142 (c). -/
def Obligations.CrcByteFoldsByte : Prop :=
  (∀ (s : State) (imm8 : Byte), s.ready →
    exec (.crcByte imm8) s = .next { s with crc := crcStep s.crc imm8, cix := s.cix + 2 }) ∧
  (∀ s : State, s.ready → s.crc = 0x0000#16 → exec (.crcByte 0x00#8) s = .next { s with cix := s.cix + 2 }) ∧
  decode [0x02#8] = .rejected .truncatedCommand

/-- R145: the checks in the rule's order, each with its fault (R300), and the fold. `size` and the buffer are those of
`BUF`. A reserved `BUF` never reaches the meaning from `CMD` (the decoder rejects it, log 10). -/
def Obligations.CrcSpanFoldsSpan : Prop :=
  (∀ (s : State) (buf off : Byte) (cnt : Word16), s.ready → 2 ≤ buf.toNat →
    exec (.crcSpan buf off cnt) s = .next { s with fault := true, fcode := 0x02#8, cph := .faulted }) ∧
  (∀ (s : State) (buf off : Byte) (cnt : Word16) (size : Nat) (m : Memory), s.ready →
    (buf = 0#8 ∧ size = 256 ∧ m = s.line) ∨ (buf = 1#8 ∧ size = 60 ∧ m = s.pkt) →
    (size < off.toNat + cnt.toNat →
      exec (.crcSpan buf off cnt) s = .next { s with fault := true, fcode := 0x03#8, cph := .faulted }) ∧
    (off.toNat + cnt.toNat ≤ size → (∃ k, k < cnt.toNat ∧ m.read (off.toNat + k) = none) →
      exec (.crcSpan buf off cnt) s = .next { s with fault := true, fcode := 0x04#8, cph := .faulted }) ∧
    (∀ bytes : List Byte, off.toNat + cnt.toNat ≤ size → bytes.length = cnt.toNat →
      (∀ k, k < cnt.toNat → m.read (off.toNat + k) = bytes[k]?) →
      exec (.crcSpan buf off cnt) s = .next { s with crc := crc16 s.crc bytes, cix := s.cix + 5 })) ∧
  (∀ bytes : List Byte, bytes.length < 4 → decode (0x03#8 :: bytes) = .rejected .truncatedCommand)

/-- R142: the laws (a), (b) and (c) of `crc16`, which the rule marks as derived from R140 and R141. -/
def Obligations.CrcLaws : Prop :=
  (∀ c : Word16, crc16 c [] = c) ∧
  (∀ (c : Word16) (s t : List Byte), crc16 c (s ++ t) = crc16 (crc16 c s) t) ∧
  crcStep 0x0000#16 0x00#8 = 0x0000#16

/-- From R140 and R141: two sequences of one length that differ in exactly one byte never have the same checksum from
the same seed. -/
def Obligations.CrcDetectsOneChangedByte : Prop :=
  ∀ (c : Word16) (s t : List Byte) (a b : Byte), a ≠ b → crc16 c (s ++ a :: t) ≠ crc16 c (s ++ b :: t)

/-! ## The receive path (41_ring_and_line.md) -/

/-- R160: when RX_PUSH is enabled, in every control phase, and what it does. -/
def Obligations.RxPushStoresByte : Prop :=
  ∀ s : State,
    (s.enabled .rxi = true ↔ s.fault = false ∧ s.inp ≠ []) ∧
    ∀ b rest, s.fault = false → s.inp = b :: rest →
      turn .rxi s = .next { s with inp := rest, ring := s.ring.write s.widx.toNat b, widx := s.widx + 1#8 } ∧
      ∀ a, (s.ring.write s.widx.toNat b).read a = if a = s.widx.toNat then some b else s.ring.read a

/-- R161: after `p` pushes from unread count `c` the count is `(c + p) mod 256`, and the unread bytes are the last
that many bytes written, oldest first. The rule marks this as derived from R160 and R36. The schedule is the model's
`plan` (log 2). -/
def Obligations.PushesKeepTheLastBytes : Prop :=
  ∀ (s : State) (pushed later : List Byte) (turns : List Agent),
    s.runs → s.inp = pushed ++ later → s.plan = List.replicate pushed.length .rxi ++ turns →
      ∃ t, runFor pushed.length s = .next t ∧ t.plan = turns ∧ t.inp = later ∧ t.ridx = s.ridx ∧
        t.unreadCount = (s.unreadCount + pushed.length) % 256 ∧
        t.unread =
          (s.unread ++ pushed.map some).drop
            (s.unreadCount + pushed.length - (s.unreadCount + pushed.length) % 256)

/-- R162: POP's see and take steps. -/
def Obligations.PopSeesThenTakes : Prop :=
  (∀ s : State, s.ready → s.widx = s.ridx → exec .pop s = .next s) ∧
  (∀ s : State, s.ready → s.widx ≠ s.ridx → exec .pop s = .next { s with cph := .popSeen }) ∧
  (∀ (s : State) (b : Byte), s.fault = false → s.cph = .popSeen → s.ring.read s.ridx.toNat = some b →
    exec .pop s = .next { s with rxb := some b, ridx := s.ridx + 1#8, cph := .ready, cix := s.cix + 1 })

/-- R162, between see and take: with `c` unread bytes at the see step and `p` pushes before the take, the take reads
the byte seen when `p < 257 - c`, and otherwise the newest of the pushed bytes that went to its place; either way the
count is then `(c + p - 1) mod 256`. -/
def Obligations.PushesBetweenSeeAndTake : Prop :=
  ∀ (s : State) (seen : Byte) (pushed later rest : List Byte) (turns : List Agent),
    s.runs → s.cph = .popSeen → fetch s = some (.command .pop rest) → 1 ≤ s.unreadCount →
      s.ring.read s.ridx.toNat = some seen → s.inp = pushed ++ later →
      s.plan = List.replicate pushed.length .rxi ++ .ctrl :: turns →
      ∃ t, runFor (pushed.length + 1) s = .next t ∧ t.cph = .ready ∧ t.cix = s.cix + 1 ∧ t.ridx = s.ridx + 1#8 ∧
        t.unreadCount = (s.unreadCount + pushed.length + 255) % 256 ∧
        (pushed.length < 257 - s.unreadCount → t.rxb = some seen) ∧
        (257 - s.unreadCount ≤ pushed.length →
          ∃ k, k < pushed.length ∧ pushed.length ≤ k + 256 ∧ (s.unreadCount + k) % 256 = 0 ∧ t.rxb = pushed[k]?)

/-- R80 (a), one take: while the producer has not lapped the reader, the byte POP takes is the oldest unread one, and
the others stay unread in their order. -/
def Obligations.PopTakesOldestUnread : Prop :=
  ∀ (s : State) (b : Byte) (others : List (Option Byte)),
    s.fault = false → s.cph = .popSeen → s.unread = some b :: others →
      ∃ t, exec .pop s = .next t ∧ t.rxb = some b ∧ t.unread = others ∧ t.cix = s.cix + 1 ∧ t.cph = .ready

/-- R163 and R342. From an empty ring, `N` pushes and then POPs. With `N` at most 255, the `k`-th POP gives the `k`-th
byte pushed, and after the `N`-th the ring is empty. With `N = 256` the ring reads as empty (`STATUS` bit 3), and a POP
holds until a 257th byte arrives. Both rules mark this as derived from R160 and R162. The schedule is the model's `plan`
(log 2). -/
def Obligations.FifoUpTo255 : Prop :=
  (∀ (s : State) (pushed later more : List Byte) (k : Nat) (turns : List Agent),
    s.runs → s.cph = .ready → s.widx = s.ridx → pushed.length ≤ 255 → s.inp = pushed ++ later →
      s.cmd.drop s.cix = List.replicate pushed.length 0x10#8 ++ more → k ≤ pushed.length →
      s.plan = List.replicate pushed.length .rxi ++ List.replicate (2 * k) .ctrl ++ turns →
      ∃ t, runFor (pushed.length + 2 * k) s = .next t ∧ (1 ≤ k → t.rxb = pushed[k - 1]?) ∧
        t.unread = (pushed.drop k).map some ∧ t.cix = s.cix + k ∧ t.cph = .ready ∧ t.fault = false) ∧
  (∀ (s : State) (pushed later : List Byte) (turns : List Agent),
    s.runs → s.cph = .ready → s.widx = s.ridx → pushed.length = 256 → s.inp = pushed ++ later →
      s.plan = List.replicate 256 .rxi ++ turns →
      ∃ t, runFor 256 s = .next t ∧ t.inp = later ∧ t.widx = t.ridx ∧ t.status.getLsbD 3 = true ∧
        exec .pop t = .next t ∧
        ∀ b rest, later = b :: rest →
          ∃ u, turn .rxi t = .next u ∧ exec .pop u = .next { u with cph := .popSeen })

/-- R170: the steps of READ_LINE. -/
def Obligations.ReadLineSeesThenTakes : Prop :=
  (∀ s : State, s.ready →
    exec .readLine s = if s.widx = s.ridx then .next s else .next { s with cph := .rdl 0 true }) ∧
  (∀ (s : State) (n : Fin 255), s.fault = false → s.cph = .rdl n false →
    exec .readLine s = if s.widx = s.ridx then .next s else .next { s with cph := .rdl n true }) ∧
  (∀ (s : State) (n : Fin 255) (b : Byte), s.fault = false → s.cph = .rdl n true →
    s.ring.read s.ridx.toNat = some b →
    (b = 0x0A#8 ∨ n.val + 1 = 255 →
      exec .readLine s =
        .next
          { s with
            ridx := s.ridx + 1#8
            line := (s.line.write n.val b).write (n.val + 1) 0x00#8
            len := BitVec.ofNat 9 (n.val + 1)
            cph := .ready
            cix := s.cix + 1 }) ∧
    (∀ next : Fin 255, b ≠ 0x0A#8 → next.val = n.val + 1 →
      exec .readLine s =
        .next { s with ridx := s.ridx + 1#8, line := s.line.write n.val b, cph := .rdl next false }))

/-- R170, whole lines: with the line's bytes unread in the ring, one byte taken in two turns, READ_LINE copies the
bytes up to the first newline (or `LINE_MAX` bytes), ends them with a null, and counts them. The schedule is the model's
`plan` (log 2). -/
def Obligations.ReadLineAssemblesLine : Prop :=
  ∀ (s : State) (text : List Byte) (last : Byte) (rest : List Byte) (turns : List Agent),
    s.runs → s.cph = .ready → s.cix < s.cmd.length → decode (s.cmd.drop s.cix) = .command .readLine rest →
      0x0A#8 ∉ text → (last = 0x0A#8 ∧ text.length < 255) ∨ text.length = 254 →
      text.length + 1 ≤ s.unreadCount →
      (∀ k, k < text.length + 1 → s.ringByte k = (text ++ [last])[k]?) →
      s.plan = List.replicate (2 * (text.length + 1)) .ctrl ++ turns →
      runFor (2 * (text.length + 1)) s =
        .next
          { s with
            ridx := s.ridx + BitVec.ofNat 8 (text.length + 1)
            line := s.line.writeBytes 0 (text ++ [last, 0x00#8])
            len := BitVec.ofNat 9 (text.length + 1)
            cix := s.cix + 1
            plan := turns }

/-! ## The packet record (42_packet_and_parser.md) -/

/-- R190, and R117 for the fresh record: every byte, every field slot, and nothing else. -/
def Obligations.PktResetFillsRecord : Prop :=
  ∀ s : State, s.ready →
    ∃ t, exec .pktReset s = .next t ∧ t = { s with pkt := t.pkt, cix := s.cix + 1 } ∧
      t.pkt.read 0 = some 0x42#8 ∧ t.pkt.read 1 = some 0xAA#8 ∧ t.pkt.read 2 = some 0xFF#8 ∧
      (∀ a, 3 ≤ a → a ≤ 57 → t.pkt.read a = some 0xFF#8) ∧
      t.pkt.read 58 = some 0x55#8 ∧ t.pkt.read 59 = some 0xAA#8 ∧
      (∀ a, 60 ≤ a → t.pkt.read a = s.pkt.read a) ∧
      (∀ slot, readSlot t.pkt slot = some (2 ^ (8 * slotWidth slot) - 1))

/-- R192. -/
def Obligations.PktStoreWritesOneByte : Prop :=
  (∀ (s : State) (off val : Byte), s.ready → off.toNat < 60 →
    exec (.pktStore off val) s = .next { s with pkt := s.pkt.write off.toNat val, cix := s.cix + 3 } ∧
    ∀ a, (s.pkt.write off.toNat val).read a = if a = off.toNat then some val else s.pkt.read a) ∧
  (∀ (s : State) (off val : Byte), s.ready → 60 ≤ off.toNat →
    exec (.pktStore off val) s = .next { s with fault := true, fcode := 0x03#8, cph := .faulted }) ∧
  (∀ bytes : List Byte, bytes.length < 2 → decode (0x22#8 :: bytes) = .rejected .truncatedCommand)

/-- R210, the outcomes without a match: a line shorter than 14 bytes, a line no entry matches, and a timestamp line
shorter than 24 bytes. `line` is `LINE[0..LEN-1]`. -/
def Obligations.ParseLineNoMatch : Prop :=
  ∀ s : State, s.ready →
    (s.len.toNat < 14 → exec .parseLine s = .next { s with matched := false, midx := 0xFF#8, cix := s.cix + 1 }) ∧
    (∀ line : List Byte, 14 ≤ s.len.toNat → s.line.readSpan 0 s.len.toNat = some line →
      (∀ e ∈ s.params.prefixTable, e.pfx <+: line → e.kind = .ts ∧ s.len.toNat < 24) →
      exec .parseLine s = .next { s with matched := false, midx := 0xFF#8, cix := s.cix + 1 })

/-- R201, R205, R210 to R215, R220: a line that begins with the prefix of the table's numeric entry `i`, whose value
has a terminator: the decimal value of its digits, modulo 2^N, goes to the entry's slot, and the entry's index to
`MIDX`. An index that does not fit 8 bits leaves a free value there (log 7). -/
def Obligations.ParseLineStoresNumber : Prop :=
  (∀ i, i < 256 → midxOf i = BitVec.ofNat 8 i) ∧
  ∀ (s : State) (i : Nat) (e : PrefixEntry) (body tail : List Byte) (term : Byte) (bits : Nat),
    s.ready → tableFlaw s.params.prefixTable = none → s.params.prefixTable[i]? = some e →
      (e.kind = .u8 ∧ term = 0x29#8 ∧ bits = 8) ∨ (e.kind = .u16 ∧ term = 0x2A#8 ∧ bits = 16) ∨
        (e.kind = .u32 ∧ term = 0x2A#8 ∧ bits = 32) →
      e.skip = false → term ∉ body → 14 ≤ s.len.toNat →
      s.line.readSpan 0 s.len.toNat = some (e.pfx ++ body ++ term :: tail) →
      exec .parseLine s =
        .next
          { s with
            pkt :=
              s.pkt.writeBytes (slotOffset e.slot)
                (leBytes (slotWidth e.slot) (decimalValue (body.filter isDigit) % 2 ^ bits))
            matched := true
            midx := midxOf i
            cix := s.cix + 1 }

/-- R213 with R210, R212, R220: an entry whose skip flag is set passes over an embedded timestamp before it reads the
value. `midxOf` as in `ParseLineStoresNumber`. -/
def Obligations.ParseLineSkipsTimestamp : Prop :=
  ∀ (s : State) (i : Nat) (e : PrefixEntry) (stamp body tail : List Byte),
    s.ready → tableFlaw s.params.prefixTable = none → s.params.prefixTable[i]? = some e →
      e.skip = true → 0x28#8 ∉ stamp → 0x2A#8 ∉ body → 14 ≤ s.len.toNat →
      s.line.readSpan 0 s.len.toNat = some (e.pfx ++ stamp ++ 0x28#8 :: body ++ 0x2A#8 :: tail) →
      exec .parseLine s =
        .next
          { s with
            pkt :=
              s.pkt.writeBytes (slotOffset e.slot) (leBytes 4 (decimalValue (body.filter isDigit) % 2 ^ 32))
            matched := true
            midx := midxOf i
            cix := s.cix + 1 }

/-- R216, R218, R220 with R210: twelve digits and a flag 'S' or 'W' after the prefix of a TS entry store the time of
R219. `num k` is the two-digit field at digit `k`; `midxOf` as in `ParseLineStoresNumber`. -/
def Obligations.ParseLineStoresTimestamp : Prop :=
  ∀ (s : State) (i : Nat) (e : PrefixEntry) (digits tail : List Byte) (flag : Byte) (isdst : Int) (num : Nat → Int),
    s.ready → tableFlaw s.params.prefixTable = none → s.params.prefixTable[i]? = some e →
      e.kind = .ts → digits.length = 12 → (∀ c ∈ digits, 0x30 ≤ c.toNat ∧ c.toNat ≤ 0x39) →
      (flag = 0x53#8 ∧ isdst = 1) ∨ (flag = 0x57#8 ∧ isdst = 0) →
      (∀ k, num k = (decimalValue ((digits.drop k).take 2) : Int)) →
      24 ≤ s.len.toNat → s.line.readSpan 0 s.len.toNat = some (e.pfx ++ digits ++ flag :: tail) →
      exec .parseLine s =
        .next
          { s with
            pkt :=
              s.pkt.writeBytes 3
                (leBytes 4
                  (timeConv s.params.timeConv (num 0) (num 2) (num 4) (num 6) (num 8) (num 10) isdst))
            matched := true
            midx := midxOf i
            cix := s.cix + 1 }

/-- R212, R213, R214, R217, R218 with R300: a matched numeric line without its terminator where the scan runs (past the
next `(` for an entry that skips), or without a `(` to skip to, raises ParseUnterminated; a matched timestamp with a non-digit among its twelve bytes, or with another flag, raises
ParseMalformed. Nothing else changes. -/
def Obligations.ParseLineRaises : Prop :=
  ∀ (s : State) (i : Nat) (e : PrefixEntry) (field : List Byte),
    s.ready → tableFlaw s.params.prefixTable = none → s.params.prefixTable[i]? = some e → 14 ≤ s.len.toNat →
      s.line.readSpan 0 s.len.toNat = some (e.pfx ++ field) →
      ((e.kind = .u8 ∧ 0x29#8 ∉ field) ∨ ((e.kind = .u16 ∨ e.kind = .u32) ∧ 0x2A#8 ∉ field) ∨
          (e.skip = true ∧
            (0x28#8 ∉ field ∨
              ∃ stamp body, field = stamp ++ 0x28#8 :: body ∧ 0x28#8 ∉ stamp ∧ 0x2A#8 ∉ body)) →
        exec .parseLine s = .next { s with fault := true, fcode := 0x05#8, cph := .faulted }) ∧
      (e.kind = .ts → 24 ≤ s.len.toNat →
        (∃ k c, k < 12 ∧ field[k]? = some c ∧ (c.toNat < 0x30 ∨ 0x39 < c.toNat)) ∨
          (∃ c, field[12]? = some c ∧ c ≠ 0x53#8 ∧ c ≠ 0x57#8) →
        exec .parseLine s = .next { s with fault := true, fcode := 0x06#8, cph := .faulted })

/-- R219: for a month 1 to 12, `time_conv` counts the days of the Gregorian calendar year by year and month by month;
other months carry into the year. -/
def Obligations.TimeConvCountsGregorianDays : Prop :=
  (∀ (conv : TimeConv) (yy mm : Nat) (dd hh mi ss isdst : Int), 1 ≤ mm → mm ≤ 12 →
    (timeConv conv yy mm dd hh mi ss isdst : Int) =
      (86400 * (daysToYear (30 + yy) + daysToMonth (2000 + yy) (mm - 1) + (dd - 1)) + 3600 * hh + 60 * mi + ss
        - conv.tzOffset - isdst * conv.dstShift - conv.epochBase) % 2 ^ 32) ∧
  (∀ (conv : TimeConv) (yy mm dd hh mi ss isdst : Int),
    timeConv conv yy (mm + 12) dd hh mi ss isdst = timeConv conv (yy + 1) mm dd hh mi ss isdst)

/-! ## The transmitter (43_transmitter.md) -/

/-- R241 (and R113): the stamp needs every byte but 56 and 57 written; it then writes exactly those two, and the
record carries its checksum. -/
def Obligations.StampWritesChecksum : Prop :=
  ∀ pkt : Memory,
    ((∃ k, k < 60 ∧ k ≠ 56 ∧ k ≠ 57 ∧ pkt.read k = none) → stamped pkt = none) ∧
    ((∀ k, k < 60 → k ≠ 56 → k ≠ 57 → ∃ b, pkt.read k = some b) →
      ∃ m r, stamped pkt = some m ∧ m.readSpan 0 60 = some r ∧ RecordOk r ∧
        ∀ a, a ≠ 56 → a ≠ 57 → m.read a = pkt.read a)

/-- R242, the completing case: with the transmitter idle, the UART empty and the record written, SEND stamps, copies
and starts. `r` is the stamped record. -/
def Obligations.SendStartsTransmission : Prop :=
  ∀ s : State, s.ready → s.txbusy = false → s.txe = true →
    (∀ k, k < 60 → k ≠ 56 → k ≠ 57 → ∃ b, s.pkt.read k = some b) →
    ∃ r : List Byte, ∃ c0 c1 : Byte, RecordOk r ∧ r[56]? = some c0 ∧ r[57]? = some c1 ∧
      (∀ k, k < 60 → k ≠ 56 → k ≠ 57 → r[k]? = s.pkt.read k) ∧
      exec .send s =
        .next
          { s with
            pkt := s.pkt.writeBytes 56 [c0, c1]
            txbuf := s.txbuf.writeBytes 0 r
            txbusy := true
            txdr := r[0]?
            txe := false
            txidx := 1#8
            txie := true
            cix := s.cix + 1 }

/-- R242, R243, R270 with R300: SEND and ERROR's send step hold while `TXBUSY = 1`; an unwritten byte other than 56 and
57 raises UninitialisedRead; and with all of them written, `TXE = 0` raises TxOverrun. -/
def Obligations.SendHoldsAndFaults : Prop :=
  ∀ (s : State) (i : Instr), s.fault = false →
    (i = .send ∧ s.cph = .ready) ∨ (∃ code pay fatal, i = .error code pay ∧ s.cph = .snd fatal) →
    (s.txbusy = true → exec i s = .next s) ∧
    (s.txbusy = false → (∃ k, k < 60 ∧ k ≠ 56 ∧ k ≠ 57 ∧ s.pkt.read k = none) →
      exec i s = .next { s with fault := true, fcode := 0x04#8, cph := .faulted }) ∧
    (s.txbusy = false → (∀ k, k < 60 → k ≠ 56 → k ≠ 57 → ∃ b, s.pkt.read k = some b) → s.txe = false →
      exec i s = .next { s with fault := true, fcode := 0x07#8, cph := .faulted })

/-- R245: when TX_DRAIN is enabled, in every control phase, and what it does under OnEmpty. -/
def Obligations.TxDrainUnderOnEmpty : Prop :=
  ∀ s : State,
    (s.enabled .txi = true ↔ s.fault = false ∧ s.txie = true ∧ s.txe = true) ∧
    (s.enabled .txi = true → s.params.txClear = .onEmpty →
      (∀ b, s.txidx.toNat < 60 → s.txbuf.read s.txidx.toNat = some b →
        turn .txi s = .next { s with txdr := some b, txe := false, txidx := s.txidx + 1#8 }) ∧
      (s.txidx.toNat = 60 → turn .txi s = .next { s with txbusy := false, txie := false }))

/-- R246: TX_DRAIN under OnLastWrite clears the flags on the step that writes byte 59. -/
def Obligations.TxDrainUnderOnLastWrite : Prop :=
  ∀ (s : State) (b : Byte), s.enabled .txi = true → s.params.txClear = .onLastWrite → s.txidx.toNat < 60 →
    s.txbuf.read s.txidx.toNat = some b →
      (s.txidx.toNat + 1 = 60 →
        turn .txi s =
          .next
            { s with
              txdr := some b, txe := false, txidx := s.txidx + 1#8, txbusy := false, txie := false }) ∧
      (s.txidx.toNat + 1 ≠ 60 →
        turn .txi s = .next { s with txdr := some b, txe := false, txidx := s.txidx + 1#8 })

/-- R247: when TX_SHIFT is enabled, in every control phase, and what it does. -/
def Obligations.TxShiftEmitsByte : Prop :=
  ∀ s : State,
    (s.enabled .txs = true ↔ s.fault = false ∧ s.txe = false) ∧
    ∀ b, s.enabled .txs = true → s.txdr = some b →
      turn .txs s = .next { s with wireOut := s.wireOut ++ [b], txe := true }

/-- R248: a started transmission under OnEmpty, the transmit agents taking 60 turns each: exactly the 60 bytes of
`TXBUF` go out, in order, and the transmitter ends idle. Nothing else changes but the turns: the schedule is the
model's `plan` (log 2). -/
def Obligations.TransmissionEmitsRecord : Prop :=
  ∀ (s : State) (r : List Byte) (turns : List Agent),
    s.runs → s.params.txClear = .onEmpty → s.txbusy = true → s.txie = true → s.txe = false → s.txidx = 1#8 →
      r.length = 60 → s.txbuf.readSpan 0 60 = some r → s.txdr = r[0]? →
      s.plan = (List.replicate 60 [Agent.txs, Agent.txi]).flatten ++ turns →
      runFor 120 s =
        .next
          { s with
            wireOut := s.wireOut ++ r
            txdr := r[59]?
            txidx := 60#8
            txe := true
            txbusy := false
            txie := false
            plan := turns }

/-! ## The error report (44_error_report.md) -/

/-- R270 (build), R271, R273: the record the build step leaves, byte by byte, and nothing else changed but the phase. -/
def Obligations.ErrorBuildsRecord : Prop :=
  ∀ (s : State) (code : Word32) (pay : List Byte) (l : Nat), s.ready → l = min pay.length 50 →
    ∃ t, exec (.error code pay) s = .next t ∧
      t = { s with pkt := t.pkt, cph := .snd (code.getLsbD s.params.fatalFlagBit) } ∧
      (∀ a, a < 3 ∨ 58 ≤ a → t.pkt.read a = s.pkt.read a) ∧
      (∀ k, k < 4 →
        t.pkt.read (3 + k) =
          some (BitVec.ofNat 8 ((code ||| BitVec.twoPow 32 s.params.errFlagBit).toNat / 256 ^ k))) ∧
      t.pkt.read 7 = some (BitVec.ofNat 8 l) ∧
      (∀ k, k < l → t.pkt.read (8 + k) = pay[k]?) ∧
      (∀ a, 8 + l ≤ a → a ≤ 57 →
        t.pkt.read a =
          match s.params.errorResidue with
          | .retain => s.pkt.read a
          | .zero => some 0x00#8
          | .sentinel => some 0xFF#8)

/-- R270 (send), R272: with the transmitter idle, the UART empty and the record written, the send step starts the
transmission; a non-fatal code goes on past the command's 6 + N bytes, a fatal one halts with `CIX` unchanged. -/
def Obligations.ErrorSendsThenResumesOrHalts : Prop :=
  ∀ (s : State) (code : Word32) (pay : List Byte) (fatal : Bool),
    s.fault = false → s.cph = .snd fatal → s.txbusy = false → s.txe = true →
    (∀ k, k < 60 → k ≠ 56 → k ≠ 57 → ∃ b, s.pkt.read k = some b) →
    ∃ r : List Byte, ∃ c0 c1 : Byte, RecordOk r ∧ r[56]? = some c0 ∧ r[57]? = some c1 ∧
      (∀ k, k < 60 → k ≠ 56 → k ≠ 57 → r[k]? = s.pkt.read k) ∧
      exec (.error code pay) s =
        .next
          { s with
            pkt := s.pkt.writeBytes 56 [c0, c1]
            txbuf := s.txbuf.writeBytes 0 r
            txbusy := true
            txdr := r[0]?
            txe := false
            txidx := 1#8
            txie := true
            cph := if fatal then .halted else .ready
            cix := if fatal then s.cix else s.cix + (6 + pay.length) }

/-- R272: no step leaves HALTED; the control agent's own state stays as it is. -/
def Obligations.HaltedForGood : Prop :=
  ∀ s t : State, s.cph = .halted → step s = .next t →
    t.cph = .halted ∧ t.cix = s.cix ∧ t.crc = s.crc ∧ t.line = s.line ∧ t.len = s.len ∧ t.rxb = s.rxb ∧
      t.ridx = s.ridx ∧ t.pkt = s.pkt ∧ t.matched = s.matched ∧ t.midx = s.midx ∧ t.txbuf = s.txbuf

/-! ## Frames -/

/-- What CRC_SET, CRC_BYTE and CRC_SPAN leave unchanged (R33, R143 to R145), whatever they do: everything but `CRC`,
`CIX` and, on a fault, the fault record; every byte of every memory. -/
def Obligations.CrcCommandsFrame : Prop :=
  ∀ (s t : State) (i : Instr),
    (∃ imm16, i = .crcSet imm16) ∨ (∃ imm8, i = .crcByte imm8) ∨ (∃ buf off cnt, i = .crcSpan buf off cnt) →
    exec i s = .next t →
      t = { s with crc := t.crc, cix := t.cix, cph := t.cph, fault := t.fault, fcode := t.fcode } ∧
      (∀ a, t.line.read a = s.line.read a ∧ t.pkt.read a = s.pkt.read a ∧ t.ring.read a = s.ring.read a ∧
        t.txbuf.read a = s.txbuf.read a) ∧
      (t.fault = s.fault → t.fcode = s.fcode ∧ t.cph = s.cph) ∧
      (t.fault ≠ s.fault → t.crc = s.crc ∧ t.cix = s.cix ∧ t.cph = .faulted)

/-- What POP and READ_LINE leave unchanged (R35, R38, R39, R162, R170). POP: everything but `RXB`, `RIDX`, the phase,
`CIX` and the fault record. READ_LINE: everything but `RIDX`, `LEN`, the phase, `CIX`, the fault record and, in the take
step of byte `n`, `LINE[n]` and `LINE[n + 1]`. -/
def Obligations.ReceiveCommandsFrame : Prop :=
  ∀ s t : State,
    (exec .pop s = .next t →
      t = { s with rxb := t.rxb, ridx := t.ridx, cph := t.cph, cix := t.cix, fault := t.fault, fcode := t.fcode }) ∧
    (exec .readLine s = .next t →
      t =
        { s with
          ridx := t.ridx, line := t.line, len := t.len, cph := t.cph, cix := t.cix, fault := t.fault,
          fcode := t.fcode } ∧
      (∀ n : Fin 255, s.cph = .rdl n true → ∀ a, a ≠ n.val → a ≠ n.val + 1 → t.line.read a = s.line.read a) ∧
      ((∀ n : Fin 255, s.cph ≠ .rdl n true) → t.line = s.line ∧ t.len = s.len ∧ t.ridx = s.ridx) ∧
      (t.cix = s.cix → t.len = s.len))

/-- What the commands that write the record leave unchanged (R40, R190, R192, R220, R242, R270), whatever they do:
PKT_RESET, PKT_STORE, PARSE_LINE, ERROR's build step, SEND and ERROR's send step. Every byte of `PKT` outside those the
form stores reads as before. -/
def Obligations.RecordCommandsFrame : Prop :=
  ∀ s t : State,
    (exec .pktReset s = .next t → t = { s with pkt := t.pkt, cix := t.cix } ∧
      ∀ a, 60 ≤ a → t.pkt.read a = s.pkt.read a) ∧
    (∀ off val : Byte, exec (.pktStore off val) s = .next t →
      t = { s with pkt := t.pkt, cix := t.cix, cph := t.cph, fault := t.fault, fcode := t.fcode } ∧
      (∀ a, a ≠ off.toNat → t.pkt.read a = s.pkt.read a) ∧ (60 ≤ off.toNat → t.pkt = s.pkt)) ∧
    (exec .parseLine s = .next t →
      t =
        { s with
          pkt := t.pkt, matched := t.matched, midx := t.midx, cix := t.cix, cph := t.cph, fault := t.fault,
          fcode := t.fcode } ∧
      (t.fault ≠ s.fault → t.pkt = s.pkt ∧ t.matched = s.matched ∧ t.midx = s.midx) ∧
      ∀ line, s.line.readSpan 0 s.len.toNat = some line →
        (findEntry line 0 s.params.prefixTable = none → t.pkt = s.pkt) ∧
        ∀ i e, findEntry line 0 s.params.prefixTable = some (i, e) →
          ∀ a, a < slotOffset e.slot ∨ slotOffset e.slot + slotWidth e.slot ≤ a → t.pkt.read a = s.pkt.read a) ∧
    (∀ (code : Word32) (pay : List Byte), s.cph = .ready → exec (.error code pay) s = .next t →
      t = { s with pkt := t.pkt, cph := t.cph } ∧
      ∀ a, a < 3 ∨ 58 ≤ a ∨ (s.params.errorResidue = .retain ∧ 8 + min pay.length 50 ≤ a) →
        t.pkt.read a = s.pkt.read a) ∧
    (∀ i : Instr, (i = .send ∨ ∃ code pay fatal, i = .error code pay ∧ s.cph = .snd fatal) →
      exec i s = .next t →
      t =
        { s with
          pkt := t.pkt, txbuf := t.txbuf, txbusy := t.txbusy, txdr := t.txdr, txe := t.txe, txidx := t.txidx,
          txie := t.txie, cix := t.cix, cph := t.cph, fault := t.fault, fcode := t.fcode } ∧
      (∀ a, a ≠ 56 → a ≠ 57 → t.pkt.read a = s.pkt.read a) ∧
      (∀ a, 60 ≤ a → t.txbuf.read a = s.txbuf.read a) ∧
      (t.fault ≠ s.fault → t.pkt = s.pkt ∧ t.txbuf = s.txbuf ∧ t.txie = s.txie ∧ t.txe = s.txe))

/-! ## Rules of the whole machine -/

/-- Every command, in every state, answers a next state: no meaning stops, and a fault it raises is recorded in that
state (R300). R290 and R300 give no step where `FAULT = 1`, nor in a phase that is not the command's own: that `exec`
answers a hold there is the model's choice (log 4, log 9). -/
def Obligations.NoCommandStops : Prop :=
  ∀ (i : Instr) (s : State), ∃ t, exec i s = .next t

/-- R290: the turn of an agent is a hold exactly when the agent has no enabled step, in every state whose phase belongs
to the command at `CIX`. -/
def Obligations.TurnHoldsIffNotEnabled : Prop :=
  ∀ (s : State) (a : Agent), ControlInv s → (turn a s = .next s ↔ s.enabled a = false)

/-- R302: which faults a command's meaning can raise, in a reachable state. Its decoding faults are
`DecodeRejectsExactly`'s. -/
def Obligations.FaultsByCommand : Prop :=
  ∀ (s t : State) (i : Instr), Inv s → i.wf = true → s.fault = false → exec i s = .next t → t.fault = true →
    match i with
    | .crcSet _ => False
    | .crcByte _ => False
    | .crcSpan _ _ _ => t.fcode = 0x03#8 ∨ t.fcode = 0x04#8
    | .pop => False
    | .readLine => False
    | .pktReset => False
    | .parseLine => t.fcode = 0x05#8 ∨ t.fcode = 0x06#8
    | .pktStore _ _ => t.fcode = 0x03#8
    | .error _ _ => t.fcode = 0x04#8 ∨ t.fcode = 0x07#8
    | .send => t.fcode = 0x04#8 ∨ t.fcode = 0x07#8

/-- R31, R33 to R43, R46 to R48 and R55: which step writes which element of the state; none writes `CMD` or a
parameter. A command is named by what stands at `CIX`. `FCODE` changes only in a step that sets `FAULT`. -/
def Obligations.OnlyItsWritersWrite : Prop :=
  ∀ s t : State, step s = .next t →
    t.cmd = s.cmd ∧ t.params = s.params ∧
    (t.crc ≠ s.crc → s.chosen = .ctrl ∧ ∃ i rest, fetch s = some (.command i rest) ∧
      ((∃ v, i = .crcSet v) ∨ (∃ b, i = .crcByte b) ∨ ∃ buf off cnt, i = .crcSpan buf off cnt)) ∧
    (t.ring ≠ s.ring ∨ t.widx ≠ s.widx ∨ t.inp ≠ s.inp → s.chosen = .rxi) ∧
    (t.ridx ≠ s.ridx → s.chosen = .ctrl ∧
      ∃ rest, fetch s = some (.command .pop rest) ∨ fetch s = some (.command .readLine rest)) ∧
    (t.line ≠ s.line ∨ t.len ≠ s.len → s.chosen = .ctrl ∧ ∃ rest, fetch s = some (.command .readLine rest)) ∧
    (t.rxb ≠ s.rxb → s.chosen = .ctrl ∧ ∃ rest, fetch s = some (.command .pop rest)) ∧
    (t.matched ≠ s.matched ∨ t.midx ≠ s.midx →
      s.chosen = .ctrl ∧ ∃ rest, fetch s = some (.command .parseLine rest)) ∧
    (t.pkt ≠ s.pkt → s.chosen = .ctrl ∧ ∃ i rest, fetch s = some (.command i rest) ∧
      (i = .pktReset ∨ i = .parseLine ∨ i = .send ∨ (∃ off val, i = .pktStore off val) ∨
        ∃ code pay, i = .error code pay)) ∧
    (t.txbuf ≠ s.txbuf → s.chosen = .ctrl ∧ ∃ i rest, fetch s = some (.command i rest) ∧
      (i = .send ∨ ∃ code pay, i = .error code pay)) ∧
    (t.txdr ≠ s.txdr ∨ t.txidx ≠ s.txidx →
      s.chosen = .txi ∨ (s.chosen = .ctrl ∧ ∃ i rest, fetch s = some (.command i rest) ∧
        (i = .send ∨ ∃ code pay fatal, i = .error code pay ∧ s.cph = .snd fatal))) ∧
    (t.wireOut ≠ s.wireOut → s.chosen = .txs) ∧
    (t.fcode ≠ s.fcode → s.fault = false ∧ t.fault = true)

/-- R52: which step sets and which clears each flag. R48: with `FAULT = 1` no agent's turn and no command clears
`FAULT` or changes `FCODE`; that a turn and a command answer a next state there at all is the model's choice (log 4). -/
def Obligations.FlagsChangeByTheirSteps : Prop :=
  (∀ s t : State, step s = .next t →
    (s.txbusy = false → t.txbusy = true → s.chosen = .ctrl ∧ ∃ i rest, fetch s = some (.command i rest) ∧
      (i = .send ∨ ∃ code pay, i = .error code pay)) ∧
    (s.txbusy = true → t.txbusy = false → s.chosen = .txi) ∧
    (s.txie = false → t.txie = true → s.chosen = .ctrl ∧ ∃ i rest, fetch s = some (.command i rest) ∧
      (i = .send ∨ ∃ code pay, i = .error code pay)) ∧
    (s.txie = true → t.txie = false → s.chosen = .txi) ∧
    (s.txe = false → t.txe = true → s.chosen = .txs) ∧
    (s.txe = true → t.txe = false → s.chosen = .txi ∨ (s.chosen = .ctrl ∧ ∃ i rest,
      fetch s = some (.command i rest) ∧ (i = .send ∨ ∃ code pay, i = .error code pay))) ∧
    (t.matched ≠ s.matched → s.chosen = .ctrl ∧ ∃ rest, fetch s = some (.command .parseLine rest))) ∧
  (∀ (s : State) (a : Agent), s.fault = true →
    ∃ t, turn a s = .next t ∧ t.fault = true ∧ t.fcode = s.fcode) ∧
  (∀ (s : State) (i : Instr), s.fault = true →
    ∃ t, exec i s = .next t ∧ t.fault = true ∧ t.fcode = s.fcode)

/-- R30: a step either leaves `CIX` or advances it by the length of the command at `CIX`, which is then complete. -/
def Obligations.CixAdvancesByCommandLength : Prop :=
  ∀ s t : State, step s = .next t → t.cix ≠ s.cix →
    s.chosen = .ctrl ∧ t.cph = .ready ∧
      ∃ i rest, fetch s = some (.command i rest) ∧ t.cix = s.cix + i.length ∧ t.cix ≤ s.cmd.length

/-- R297, which marks this as derived from R290: the steps of the interrupt and UART agents leave the control agent's
state alone. -/
def Obligations.EventsLeaveControlState : Prop :=
  ∀ s t : State, step s = .next t → s.chosen ≠ .ctrl →
    t.cix = s.cix ∧ t.cph = s.cph ∧ t.crc = s.crc ∧ t.ridx = s.ridx ∧ t.line = s.line ∧ t.len = s.len ∧
      t.rxb = s.rxb ∧ t.pkt = s.pkt ∧ t.matched = s.matched ∧ t.midx = s.midx ∧ t.txbuf = s.txbuf

/-- R296, which marks this as derived from the events' rules: RX_PUSH and a transmit event, enabled together, reach the
same state in either order. -/
def Obligations.EventOrdersAgree : Prop :=
  ∀ (s : State) (a : Agent), a = .txi ∨ a = .txs → TransmitInv s → s.enabled .rxi = true → s.enabled a = true →
    ∃ u v t, turn .rxi s = .next u ∧ turn a s = .next v ∧ turn a u = .next t ∧ turn .rxi v = .next t

/-- R310: which states are final, that no agent has an enabled step in one (`TransmitInv` holds in every reachable
state; the rule marks this as derived), and that the observation is defined in the final states alone. R49: what the
register of each number shows. R308: what the observation holds; that it leaves `RING` out is the model's choice
(log 18). -/
def Obligations.FinalStateIsQuiescent : Prop :=
  (∀ s : State,
    s.final = true ↔
      s.fault = false ∧ ((s.cph = .ready ∧ s.cix = s.cmd.length) ∨ s.cph = .halted) ∧ s.inp = [] ∧
        s.txbusy = false ∧ s.txe = true) ∧
  (∀ (s : State) (a : Agent), TransmitInv s → s.final = true → s.enabled a = false) ∧
  (∀ s : State, observe s = none ↔ s.final = false) ∧
  (∀ x : Reg, regOfNumber (regNumber x) = some x) ∧
  (∀ (s : State) (n : Nat),
    (regOfNumber n).map s.reg =
      [some s.crc.toNat, s.rxb.map BitVec.toNat, some s.len.toNat, some s.matched.toNat, some s.midx.toNat,
       some s.widx.toNat, some s.ridx.toNat, some s.txidx.toNat, some s.status.toNat, some s.fcode.toNat,
       s.txdr.map BitVec.toNat, some s.cix][n]?) ∧
  (∀ (s : State) (o : Observation), observe s = some o →
    o.wireOut = s.wireOut ∧ o.inp = s.inp ∧ o.cph = s.cph ∧ o.fault = s.fault ∧ o.fcode = s.fcode ∧
    (∀ n, o.regs[n]? = (regOfNumber n).map s.reg) ∧
    (∀ a, o.pkt[a]? = if a < 60 then some (s.pkt.read a) else none) ∧
    (∀ a, o.line[a]? = if a < 256 then some (s.line.read a) else none) ∧
    (∀ a, o.txbuf[a]? = if a < 60 then some (s.txbuf.read a) else none))

/-- The invariants of the reachable states hold at every launch that is not refused, under every schedule. -/
def Obligations.InvariantsHoldAtLaunch : Prop :=
  ∀ s : State, CleanLaunch s → Inv s ∧ WireInv s

/-- Every step keeps the memories in their canonical form and inside their spaces (R70), the transmitter's invariant,
which contains R53, and the line buffer's, which contains R54 (log 17): each from itself alone. -/
def Obligations.StepKeepsMemoriesTransmitterAndLine : Prop :=
  ∀ s t : State, step s = .next t →
    (MemoriesInv s → MemoriesInv t) ∧ (TransmitInv s → TransmitInv t) ∧ (LineInv s → LineInv t)

/-- Every step keeps the whole invariant: memories, ring (no unwritten ring byte is ever taken, R34), line, transmitter,
control (the phase is that of the command at `CIX`), and the fault record (R48, R301). -/
def Obligations.StepKeepsInv : Prop :=
  ∀ s t : State, Inv s → step s = .next t → Inv t

/-- R80 (b), (c), R241, R248: at every step `WIRE_OUT` stays a sequence of whole records, each with a valid checksum,
followed by the part of the record in flight that has been sent. -/
def Obligations.StepKeepsWireRecords : Prop :=
  ∀ s t : State, Inv s → WireInv s → step s = .next t → WireInv t

/-- R305 (no hang): every step either is a hold, which changes nothing but the turn, or spends from a finite budget. So
no run has infinitely many steps that are not holds. That a turn can be a hold is the model's choice (log 3). No
fairness is used: `FairRunsSettle` adds it, and time is left out (log 14). -/
def Obligations.EveryStepHoldsOrSpends : Prop :=
  ∀ s t : State, step s = .next t → t = s.spendTurn ∨ t.work < s.work

/-- R350 with R249, R290, R305 and R340 (R249 and R305 mark this as derived): every infinite run that is weakly fair
settles. From some point on it is final or stuck; the meter has delivered every byte, the UART has sent every byte, the
transmission has ended, and no SEND and no send step of ERROR is still waiting. The run goes on from there with holds,
which are the model's choice (log 3). -/
def Obligations.FairRunsSettle : Prop :=
  ∀ run : Nat → State, IsRun run → WeaklyFair run → Inv (run 0) →
    ∃ n, ∀ k, n ≤ k →
      ((run k).final = true ∨ (run k).stuck = true) ∧ (run k).inp = [] ∧ (run k).txe = true ∧
        (run k).txbusy = false ∧ (∀ fatal, (run k).cph ≠ .snd fatal) ∧
        ((run k).cph = .ready → ∀ rest, fetch (run k) ≠ some (.command .send rest))
end

