-- ==== Sys2Proof/Laws/Memory.lean ====
section
/-! SUPPORT. The laws of the memories: read after write, the canonical form is kept, spans, little-endian values. -/

namespace Sys2Proof.Machine

/-! ## Little-endian values -/

@[simp] theorem leBytes_length (n v : Nat) : (leBytes n v).length = n := by
  induction n generalizing v with
  | zero => rfl
  | succ n ih => simp [leBytes, ih]

theorem leValue_leBytes (n v : Nat) : leValue (leBytes n v) = v % 256 ^ n := by
  induction n generalizing v with
  | zero => simp [leBytes, leValue, Nat.mod_one]
  | succ n ih =>
    have split : v % 256 ^ (n + 1) = v % 256 + 256 * (v / 256 % 256 ^ n) := by
      rw [Nat.pow_succ', Nat.mod_mul]
    simp only [leBytes, leValue, ih, BitVec.toNat_ofNat]
    exact split.symm

/-! ## One byte -/

theorem Memory.read_write (m : Memory) (a c : Nat) (b : Byte) :
    (Memory.write m a b).read c = if c = a then some b else Memory.read m c := by
  induction m with
  | nil => simp only [Memory.write, Memory.read]; split <;> split <;> simp_all
  | cons cell m ih =>
    obtain ⟨k, v⟩ := cell
    simp only [Memory.write]
    split
    · simp only [Memory.read]; grind
    · split
      · simp only [Memory.read]; grind
      · simp only [Memory.read, ih]; grind

@[simp] theorem Memory.read_write_self (m : Memory) (a : Nat) (b : Byte) :
    (Memory.write m a b).read a = some b := by
  simp [Memory.read_write]

theorem Memory.read_write_other (m : Memory) {a c : Nat} (b : Byte) (h : c ≠ a) :
    (Memory.write m a b).read c = Memory.read m c := by
  simp [Memory.read_write, h]

theorem Memory.rising_mono {lo lo' size : Nat} (h : lo' ≤ lo) {m : Memory} (w : m.rising lo size = true) :
    m.rising lo' size = true := by
  cases m with
  | nil => rfl
  | cons cell m =>
    obtain ⟨k, v⟩ := cell
    simp only [Memory.rising, Bool.and_eq_true, decide_eq_true_eq] at w ⊢
    exact ⟨⟨h.trans w.1.1, w.1.2⟩, w.2⟩

theorem Memory.rising_write {lo size a : Nat} (b : Byte) (hlo : lo ≤ a) (hsize : a < size) {m : Memory}
    (w : m.rising lo size = true) : (Memory.write m a b).rising lo size = true := by
  induction m generalizing lo with
  | nil => simp [Memory.write, Memory.rising, hlo, hsize]
  | cons cell m ih =>
    obtain ⟨k, v⟩ := cell
    simp only [Memory.rising, Bool.and_eq_true, decide_eq_true_eq] at w
    simp only [Memory.write]
    split
    case isTrue h =>
      simp only [Memory.rising, Bool.and_eq_true, decide_eq_true_eq]
      exact ⟨⟨hlo, hsize⟩, ⟨h, w.1.2⟩, w.2⟩
    case isFalse h =>
      split
      case isTrue h' =>
        subst h'
        simp only [Memory.rising, Bool.and_eq_true, decide_eq_true_eq]
        exact ⟨⟨hlo, hsize⟩, w.2⟩
      case isFalse h' =>
        simp only [Memory.rising, Bool.and_eq_true, decide_eq_true_eq]
        exact ⟨w.1, ih (by omega) w.2⟩

/-- A write inside the space keeps the canonical form. -/
theorem Memory.wf_write {size a : Nat} (b : Byte) (h : a < size) {m : Memory} (w : m.wf size = true) :
    (Memory.write m a b).wf size = true :=
  Memory.rising_write b (Nat.zero_le a) h w

@[simp] theorem Memory.wf_nil (size : Nat) : Memory.wf size [] = true := rfl

/-! ## Bytes in a row -/

theorem Memory.wf_writeBytes {size off : Nat} {bs : List Byte} (h : off + bs.length ≤ size) {m : Memory}
    (w : m.wf size = true) : (Memory.writeBytes m off bs).wf size = true := by
  induction bs generalizing m off with
  | nil => exact w
  | cons b bs ih =>
    simp only [List.length_cons] at h
    exact ih (by omega) (Memory.wf_write b (by omega) w)

theorem Memory.wf_writeLe {size off n v : Nat} (h : off + n ≤ size) {m : Memory} (w : m.wf size = true) :
    (Memory.writeLe m off n v).wf size = true :=
  Memory.wf_writeBytes (by simpa using h) w

theorem Memory.read_writeBytes (m : Memory) (off a : Nat) (bs : List Byte) :
    (Memory.writeBytes m off bs).read a =
      if off ≤ a ∧ a < off + bs.length then bs[a - off]? else Memory.read m a := by
  induction bs generalizing m off with
  | nil => rw [if_neg (by simp only [List.length_nil]; omega)]; rfl
  | cons b bs ih =>
    simp only [Memory.writeBytes, ih, Memory.read_write, List.length_cons]
    rcases Nat.lt_trichotomy a off with h | h | h
    · rw [if_neg (by omega), if_neg (by omega), if_neg (by omega)]
    · subst h
      rw [if_neg (by omega), if_pos rfl, if_pos (by omega)]
      simp
    · obtain ⟨k, rfl⟩ : ∃ k, a = off + 1 + k := ⟨a - (off + 1), by omega⟩
      rw [show off + 1 + k - (off + 1) = k by omega, show off + 1 + k - off = k + 1 by omega,
        List.getElem?_cons_succ]
      by_cases hk : k < bs.length
      · rw [if_pos (by omega), if_pos (by omega)]
      · rw [if_neg (by omega), if_neg (by omega), if_neg (by omega)]

/-- Outside the bytes written nothing changes. -/
theorem Memory.read_writeBytes_other {m : Memory} {off a : Nat} {bs : List Byte}
    (h : a < off ∨ off + bs.length ≤ a) : (Memory.writeBytes m off bs).read a = Memory.read m a := by
  rw [Memory.read_writeBytes, if_neg (by omega)]

theorem Memory.read_writeLe_other {m : Memory} {off n v a : Nat} (h : a < off ∨ off + n ≤ a) :
    (Memory.writeLe m off n v).read a = Memory.read m a :=
  Memory.read_writeBytes_other (by simpa using h)

/-! ## Spans -/

/-- A span reads as `bs` exactly when every byte of it is written, with the bytes of `bs` in order. -/
theorem Memory.readSpan_eq_some {m : Memory} {off cnt : Nat} {bs : List Byte} :
    Memory.readSpan m off cnt = some bs ↔
      bs.length = cnt ∧ ∀ k, k < cnt → Memory.read m (off + k) = bs[k]? := by
  induction cnt generalizing off bs with
  | zero =>
    simp only [Memory.readSpan, Option.some.injEq]
    constructor
    · rintro rfl; simp
    · rintro ⟨h, -⟩; exact (List.length_eq_zero_iff.mp h).symm
  | succ n ih =>
    cases hb : Memory.read m off with
    | none =>
      simp only [Memory.readSpan, hb]
      constructor
      · intro h; cases h
      · rintro ⟨hlen, hall⟩
        have := hall 0 (by omega)
        rw [Nat.add_zero, hb] at this
        rw [List.getElem?_eq_getElem (by omega)] at this
        cases this
    | some b =>
      cases bs with
      | nil =>
        constructor
        · intro h
          simp only [Memory.readSpan, hb] at h
          split at h <;> simp_all
        · rintro ⟨h, -⟩; simp at h
      | cons c cs =>
        have key : Memory.readSpan m off (n + 1) = some (c :: cs) ↔
            b = c ∧ Memory.readSpan m (off + 1) n = some cs := by
          simp only [Memory.readSpan, hb]
          cases Memory.readSpan m (off + 1) n <;> simp
        rw [key, ih]
        constructor
        · rintro ⟨rfl, hlen, hall⟩
          refine ⟨by simp [hlen], fun k hk => ?_⟩
          cases k with
          | zero => simpa using hb
          | succ k =>
            have := hall k (by omega)
            rw [show off + (k + 1) = off + 1 + k by omega, this]
            simp
        · rintro ⟨hlen, hall⟩
          refine ⟨?_, by simpa using hlen, fun k hk => ?_⟩
          · have := hall 0 (by omega)
            rw [Nat.add_zero, hb] at this
            simpa using this
          · have := hall (k + 1) (by omega)
            rw [show off + (k + 1) = off + 1 + k by omega] at this
            simpa using this

theorem Memory.readSpan_length {m : Memory} {off cnt : Nat} {bs : List Byte}
    (h : Memory.readSpan m off cnt = some bs) : bs.length = cnt :=
  (Memory.readSpan_eq_some.mp h).1

theorem Memory.written_iff {m : Memory} {off cnt : Nat} :
    Memory.written m off cnt = true ↔ ∀ k, k < cnt → ∃ b, Memory.read m (off + k) = some b := by
  induction cnt generalizing off with
  | zero => simp [Memory.written, Memory.readSpan]
  | succ n ih =>
    have step : Memory.written m off (n + 1) = true ↔
        (∃ b, Memory.read m off = some b) ∧ Memory.written m (off + 1) n = true := by
      simp only [Memory.written, Memory.readSpan]
      cases Memory.read m off <;> cases Memory.readSpan m (off + 1) n <;> simp
    rw [step, ih]
    constructor
    · rintro ⟨h0, hrest⟩ k hk
      cases k with
      | zero => simpa using h0
      | succ k =>
        have := hrest k (by omega)
        rwa [show off + 1 + k = off + (k + 1) by omega] at this
    · intro h
      refine ⟨by simpa using h 0 (by omega), fun k hk => ?_⟩
      have := h (k + 1) (by omega)
      rwa [show off + (k + 1) = off + 1 + k by omega] at this

/-- A span after writing exactly it. -/
theorem Memory.readSpan_writeBytes (m : Memory) (off : Nat) (bs : List Byte) :
    (Memory.writeBytes m off bs).readSpan off bs.length = some bs := by
  rw [Memory.readSpan_eq_some]
  refine ⟨rfl, fun k hk => ?_⟩
  rw [Memory.read_writeBytes, if_pos (by omega)]
  congr 1; omega

/-- MemRead after MemWrite of the same bytes (R10, R72). -/
theorem Memory.readLe_writeLe (m : Memory) (off n v : Nat) :
    (Memory.writeLe m off n v).readLe off n = some (v % 256 ^ n) := by
  have := Memory.readSpan_writeBytes m off (leBytes n v)
  rw [leBytes_length] at this
  simp [Memory.readLe, Memory.writeLe, this, leValue_leBytes]

/-! ## Equal memories are equal data -/

theorem Memory.read_eq_none_of_rising {m : Memory} {lo size a : Nat} (w : m.rising lo size = true)
    (h : a < lo ∨ size ≤ a) : Memory.read m a = none := by
  induction m generalizing lo with
  | nil => rfl
  | cons cell m ih =>
    obtain ⟨k, v⟩ := cell
    simp only [Memory.rising, Bool.and_eq_true, decide_eq_true_eq] at w
    rw [Memory.read, if_neg (by omega)]
    exact ih w.2 (by omega)

theorem Memory.ext_of_rising {size : Nat} {m m' : Memory} {lo lo' : Nat} (w : m.rising lo size = true)
    (w' : m'.rising lo' size = true) (h : ∀ a, Memory.read m a = Memory.read m' a) : m = m' := by
  induction m generalizing m' lo lo' with
  | nil =>
    cases m' with
    | nil => rfl
    | cons cell m' =>
      obtain ⟨k, v⟩ := cell
      have := h k
      simp [Memory.read] at this
  | cons cell m ih =>
    obtain ⟨k, v⟩ := cell
    cases m' with
    | nil =>
      have := h k
      simp [Memory.read] at this
    | cons cell' m' =>
      obtain ⟨k', v'⟩ := cell'
      simp only [Memory.rising, Bool.and_eq_true, decide_eq_true_eq] at w w'
      have hk : k = k' := by
        have h1 := h k
        have h2 := h k'
        by_contra hne
        rw [Memory.read, if_pos rfl, Memory.read, if_neg (Ne.symm hne)] at h1
        rw [Memory.read, if_neg hne, Memory.read, if_pos rfl] at h2
        rcases Nat.lt_or_gt_of_ne hne with hlt | hlt
        · rw [Memory.read_eq_none_of_rising w'.2 (Or.inl (by omega))] at h1; cases h1
        · rw [Memory.read_eq_none_of_rising w.2 (Or.inl (by omega))] at h2; cases h2
      subst hk
      have hv : v = v' := by simpa [Memory.read] using h k
      subst hv
      have htail : m = m' := by
        refine ih w.2 w'.2 fun a => ?_
        by_cases ha : k = a
        · subst ha
          rw [Memory.read_eq_none_of_rising w.2 (Or.inl (by omega)),
            Memory.read_eq_none_of_rising w'.2 (Or.inl (by omega))]
        · simpa [Memory.read, ha] using h a
      rw [htail]

/-- Two memories in canonical form that read the same everywhere are the same list. -/
theorem Memory.ext_of_wf {size : Nat} {m m' : Memory} (w : m.wf size = true) (w' : m'.wf size = true)
    (h : ∀ a, Memory.read m a = Memory.read m' a) : m = m' :=
  Memory.ext_of_rising w w' h

end Sys2Proof.Machine
end

