-- ==== Sys2Proof/Laws/State.lean ====
section
/-! SUPPORT. One lemma per field per named update of State, so that no proof unfolds a record update. -/

namespace Sys2Proof.Machine

variable (s : State)

/-! ## `completed`: a command's end -/

@[simp] theorem State.completed_params (n : Nat) : (s.completed n).params = s.params := rfl
@[simp] theorem State.completed_cmd (n : Nat) : (s.completed n).cmd = s.cmd := rfl
@[simp] theorem State.completed_cix (n : Nat) : (s.completed n).cix = s.cix + n := rfl
@[simp] theorem State.completed_cph (n : Nat) : (s.completed n).cph = .ready := rfl
@[simp] theorem State.completed_crc (n : Nat) : (s.completed n).crc = s.crc := rfl
@[simp] theorem State.completed_ring (n : Nat) : (s.completed n).ring = s.ring := rfl
@[simp] theorem State.completed_widx (n : Nat) : (s.completed n).widx = s.widx := rfl
@[simp] theorem State.completed_ridx (n : Nat) : (s.completed n).ridx = s.ridx := rfl
@[simp] theorem State.completed_line (n : Nat) : (s.completed n).line = s.line := rfl
@[simp] theorem State.completed_len (n : Nat) : (s.completed n).len = s.len := rfl
@[simp] theorem State.completed_rxb (n : Nat) : (s.completed n).rxb = s.rxb := rfl
@[simp] theorem State.completed_pkt (n : Nat) : (s.completed n).pkt = s.pkt := rfl
@[simp] theorem State.completed_matched (n : Nat) : (s.completed n).matched = s.matched := rfl
@[simp] theorem State.completed_midx (n : Nat) : (s.completed n).midx = s.midx := rfl
@[simp] theorem State.completed_txbuf (n : Nat) : (s.completed n).txbuf = s.txbuf := rfl
@[simp] theorem State.completed_txidx (n : Nat) : (s.completed n).txidx = s.txidx := rfl
@[simp] theorem State.completed_txbusy (n : Nat) : (s.completed n).txbusy = s.txbusy := rfl
@[simp] theorem State.completed_txie (n : Nat) : (s.completed n).txie = s.txie := rfl
@[simp] theorem State.completed_txdr (n : Nat) : (s.completed n).txdr = s.txdr := rfl
@[simp] theorem State.completed_txe (n : Nat) : (s.completed n).txe = s.txe := rfl
@[simp] theorem State.completed_inp (n : Nat) : (s.completed n).inp = s.inp := rfl
@[simp] theorem State.completed_wireOut (n : Nat) : (s.completed n).wireOut = s.wireOut := rfl
@[simp] theorem State.completed_fault (n : Nat) : (s.completed n).fault = s.fault := rfl
@[simp] theorem State.completed_fcode (n : Nat) : (s.completed n).fcode = s.fcode := rfl
@[simp] theorem State.completed_plan (n : Nat) : (s.completed n).plan = s.plan := rfl
@[simp] theorem State.completed_tick (n : Nat) : (s.completed n).tick = s.tick := rfl

/-! ## `raised`: a control step's fault -/

@[simp] theorem State.raised_params (c : FaultCause) : (s.raised c).params = s.params := rfl
@[simp] theorem State.raised_cmd (c : FaultCause) : (s.raised c).cmd = s.cmd := rfl
@[simp] theorem State.raised_cix (c : FaultCause) : (s.raised c).cix = s.cix := rfl
@[simp] theorem State.raised_cph (c : FaultCause) : (s.raised c).cph = .faulted := rfl
@[simp] theorem State.raised_crc (c : FaultCause) : (s.raised c).crc = s.crc := rfl
@[simp] theorem State.raised_ring (c : FaultCause) : (s.raised c).ring = s.ring := rfl
@[simp] theorem State.raised_widx (c : FaultCause) : (s.raised c).widx = s.widx := rfl
@[simp] theorem State.raised_ridx (c : FaultCause) : (s.raised c).ridx = s.ridx := rfl
@[simp] theorem State.raised_line (c : FaultCause) : (s.raised c).line = s.line := rfl
@[simp] theorem State.raised_len (c : FaultCause) : (s.raised c).len = s.len := rfl
@[simp] theorem State.raised_rxb (c : FaultCause) : (s.raised c).rxb = s.rxb := rfl
@[simp] theorem State.raised_pkt (c : FaultCause) : (s.raised c).pkt = s.pkt := rfl
@[simp] theorem State.raised_matched (c : FaultCause) : (s.raised c).matched = s.matched := rfl
@[simp] theorem State.raised_midx (c : FaultCause) : (s.raised c).midx = s.midx := rfl
@[simp] theorem State.raised_txbuf (c : FaultCause) : (s.raised c).txbuf = s.txbuf := rfl
@[simp] theorem State.raised_txidx (c : FaultCause) : (s.raised c).txidx = s.txidx := rfl
@[simp] theorem State.raised_txbusy (c : FaultCause) : (s.raised c).txbusy = s.txbusy := rfl
@[simp] theorem State.raised_txie (c : FaultCause) : (s.raised c).txie = s.txie := rfl
@[simp] theorem State.raised_txdr (c : FaultCause) : (s.raised c).txdr = s.txdr := rfl
@[simp] theorem State.raised_txe (c : FaultCause) : (s.raised c).txe = s.txe := rfl
@[simp] theorem State.raised_inp (c : FaultCause) : (s.raised c).inp = s.inp := rfl
@[simp] theorem State.raised_wireOut (c : FaultCause) : (s.raised c).wireOut = s.wireOut := rfl
@[simp] theorem State.raised_fault (c : FaultCause) : (s.raised c).fault = true := rfl
@[simp] theorem State.raised_fcode (c : FaultCause) : (s.raised c).fcode = c.code := rfl
@[simp] theorem State.raised_plan (c : FaultCause) : (s.raised c).plan = s.plan := rfl
@[simp] theorem State.raised_tick (c : FaultCause) : (s.raised c).tick = s.tick := rfl

/-! ## `eventRaised`: an event's fault -/

@[simp] theorem State.eventRaised_params (c : FaultCause) : (s.eventRaised c).params = s.params := rfl
@[simp] theorem State.eventRaised_cmd (c : FaultCause) : (s.eventRaised c).cmd = s.cmd := rfl
@[simp] theorem State.eventRaised_cix (c : FaultCause) : (s.eventRaised c).cix = s.cix := rfl
@[simp] theorem State.eventRaised_cph (c : FaultCause) : (s.eventRaised c).cph = s.cph := rfl
@[simp] theorem State.eventRaised_crc (c : FaultCause) : (s.eventRaised c).crc = s.crc := rfl
@[simp] theorem State.eventRaised_ring (c : FaultCause) : (s.eventRaised c).ring = s.ring := rfl
@[simp] theorem State.eventRaised_widx (c : FaultCause) : (s.eventRaised c).widx = s.widx := rfl
@[simp] theorem State.eventRaised_ridx (c : FaultCause) : (s.eventRaised c).ridx = s.ridx := rfl
@[simp] theorem State.eventRaised_line (c : FaultCause) : (s.eventRaised c).line = s.line := rfl
@[simp] theorem State.eventRaised_len (c : FaultCause) : (s.eventRaised c).len = s.len := rfl
@[simp] theorem State.eventRaised_rxb (c : FaultCause) : (s.eventRaised c).rxb = s.rxb := rfl
@[simp] theorem State.eventRaised_pkt (c : FaultCause) : (s.eventRaised c).pkt = s.pkt := rfl
@[simp] theorem State.eventRaised_matched (c : FaultCause) : (s.eventRaised c).matched = s.matched := rfl
@[simp] theorem State.eventRaised_midx (c : FaultCause) : (s.eventRaised c).midx = s.midx := rfl
@[simp] theorem State.eventRaised_txbuf (c : FaultCause) : (s.eventRaised c).txbuf = s.txbuf := rfl
@[simp] theorem State.eventRaised_txidx (c : FaultCause) : (s.eventRaised c).txidx = s.txidx := rfl
@[simp] theorem State.eventRaised_txbusy (c : FaultCause) : (s.eventRaised c).txbusy = s.txbusy := rfl
@[simp] theorem State.eventRaised_txie (c : FaultCause) : (s.eventRaised c).txie = s.txie := rfl
@[simp] theorem State.eventRaised_txdr (c : FaultCause) : (s.eventRaised c).txdr = s.txdr := rfl
@[simp] theorem State.eventRaised_txe (c : FaultCause) : (s.eventRaised c).txe = s.txe := rfl
@[simp] theorem State.eventRaised_inp (c : FaultCause) : (s.eventRaised c).inp = s.inp := rfl
@[simp] theorem State.eventRaised_wireOut (c : FaultCause) : (s.eventRaised c).wireOut = s.wireOut := rfl
@[simp] theorem State.eventRaised_fault (c : FaultCause) : (s.eventRaised c).fault = true := rfl
@[simp] theorem State.eventRaised_fcode (c : FaultCause) : (s.eventRaised c).fcode = c.code := rfl
@[simp] theorem State.eventRaised_plan (c : FaultCause) : (s.eventRaised c).plan = s.plan := rfl
@[simp] theorem State.eventRaised_tick (c : FaultCause) : (s.eventRaised c).tick = s.tick := rfl

/-! ## `matchAt`: PARSE_LINE's match -/

@[simp] theorem State.matchAt_params (i : Nat) : (s.matchAt i).params = s.params := rfl
@[simp] theorem State.matchAt_cmd (i : Nat) : (s.matchAt i).cmd = s.cmd := rfl
@[simp] theorem State.matchAt_cix (i : Nat) : (s.matchAt i).cix = s.cix := rfl
@[simp] theorem State.matchAt_cph (i : Nat) : (s.matchAt i).cph = s.cph := rfl
@[simp] theorem State.matchAt_crc (i : Nat) : (s.matchAt i).crc = s.crc := rfl
@[simp] theorem State.matchAt_ring (i : Nat) : (s.matchAt i).ring = s.ring := rfl
@[simp] theorem State.matchAt_widx (i : Nat) : (s.matchAt i).widx = s.widx := rfl
@[simp] theorem State.matchAt_ridx (i : Nat) : (s.matchAt i).ridx = s.ridx := rfl
@[simp] theorem State.matchAt_line (i : Nat) : (s.matchAt i).line = s.line := rfl
@[simp] theorem State.matchAt_len (i : Nat) : (s.matchAt i).len = s.len := rfl
@[simp] theorem State.matchAt_rxb (i : Nat) : (s.matchAt i).rxb = s.rxb := rfl
@[simp] theorem State.matchAt_pkt (i : Nat) : (s.matchAt i).pkt = s.pkt := rfl
@[simp] theorem State.matchAt_matched (i : Nat) : (s.matchAt i).matched = true := rfl
@[simp] theorem State.matchAt_midx (i : Nat) : (s.matchAt i).midx = midxOf i := rfl
@[simp] theorem State.matchAt_txbuf (i : Nat) : (s.matchAt i).txbuf = s.txbuf := rfl
@[simp] theorem State.matchAt_txidx (i : Nat) : (s.matchAt i).txidx = s.txidx := rfl
@[simp] theorem State.matchAt_txbusy (i : Nat) : (s.matchAt i).txbusy = s.txbusy := rfl
@[simp] theorem State.matchAt_txie (i : Nat) : (s.matchAt i).txie = s.txie := rfl
@[simp] theorem State.matchAt_txdr (i : Nat) : (s.matchAt i).txdr = s.txdr := rfl
@[simp] theorem State.matchAt_txe (i : Nat) : (s.matchAt i).txe = s.txe := rfl
@[simp] theorem State.matchAt_inp (i : Nat) : (s.matchAt i).inp = s.inp := rfl
@[simp] theorem State.matchAt_wireOut (i : Nat) : (s.matchAt i).wireOut = s.wireOut := rfl
@[simp] theorem State.matchAt_fault (i : Nat) : (s.matchAt i).fault = s.fault := rfl
@[simp] theorem State.matchAt_fcode (i : Nat) : (s.matchAt i).fcode = s.fcode := rfl
@[simp] theorem State.matchAt_plan (i : Nat) : (s.matchAt i).plan = s.plan := rfl
@[simp] theorem State.matchAt_tick (i : Nat) : (s.matchAt i).tick = s.tick := rfl

/-! ## `noMatch`: PARSE_LINE's no match -/

@[simp] theorem State.noMatch_params : (s.noMatch).params = s.params := rfl
@[simp] theorem State.noMatch_cmd : (s.noMatch).cmd = s.cmd := rfl
@[simp] theorem State.noMatch_cix : (s.noMatch).cix = s.cix := rfl
@[simp] theorem State.noMatch_cph : (s.noMatch).cph = s.cph := rfl
@[simp] theorem State.noMatch_crc : (s.noMatch).crc = s.crc := rfl
@[simp] theorem State.noMatch_ring : (s.noMatch).ring = s.ring := rfl
@[simp] theorem State.noMatch_widx : (s.noMatch).widx = s.widx := rfl
@[simp] theorem State.noMatch_ridx : (s.noMatch).ridx = s.ridx := rfl
@[simp] theorem State.noMatch_line : (s.noMatch).line = s.line := rfl
@[simp] theorem State.noMatch_len : (s.noMatch).len = s.len := rfl
@[simp] theorem State.noMatch_rxb : (s.noMatch).rxb = s.rxb := rfl
@[simp] theorem State.noMatch_pkt : (s.noMatch).pkt = s.pkt := rfl
@[simp] theorem State.noMatch_matched : (s.noMatch).matched = false := rfl
@[simp] theorem State.noMatch_midx : (s.noMatch).midx = 0xFF#8 := rfl
@[simp] theorem State.noMatch_txbuf : (s.noMatch).txbuf = s.txbuf := rfl
@[simp] theorem State.noMatch_txidx : (s.noMatch).txidx = s.txidx := rfl
@[simp] theorem State.noMatch_txbusy : (s.noMatch).txbusy = s.txbusy := rfl
@[simp] theorem State.noMatch_txie : (s.noMatch).txie = s.txie := rfl
@[simp] theorem State.noMatch_txdr : (s.noMatch).txdr = s.txdr := rfl
@[simp] theorem State.noMatch_txe : (s.noMatch).txe = s.txe := rfl
@[simp] theorem State.noMatch_inp : (s.noMatch).inp = s.inp := rfl
@[simp] theorem State.noMatch_wireOut : (s.noMatch).wireOut = s.wireOut := rfl
@[simp] theorem State.noMatch_fault : (s.noMatch).fault = s.fault := rfl
@[simp] theorem State.noMatch_fcode : (s.noMatch).fcode = s.fcode := rfl
@[simp] theorem State.noMatch_plan : (s.noMatch).plan = s.plan := rfl
@[simp] theorem State.noMatch_tick : (s.noMatch).tick = s.tick := rfl

/-! ## `spendTurn`: only the model's schedule -/

@[simp] theorem State.spendTurn_params : s.spendTurn.params = s.params := by unfold State.spendTurn; split <;> rfl
@[simp] theorem State.spendTurn_cmd : s.spendTurn.cmd = s.cmd := by unfold State.spendTurn; split <;> rfl
@[simp] theorem State.spendTurn_cix : s.spendTurn.cix = s.cix := by unfold State.spendTurn; split <;> rfl
@[simp] theorem State.spendTurn_cph : s.spendTurn.cph = s.cph := by unfold State.spendTurn; split <;> rfl
@[simp] theorem State.spendTurn_crc : s.spendTurn.crc = s.crc := by unfold State.spendTurn; split <;> rfl
@[simp] theorem State.spendTurn_ring : s.spendTurn.ring = s.ring := by unfold State.spendTurn; split <;> rfl
@[simp] theorem State.spendTurn_widx : s.spendTurn.widx = s.widx := by unfold State.spendTurn; split <;> rfl
@[simp] theorem State.spendTurn_ridx : s.spendTurn.ridx = s.ridx := by unfold State.spendTurn; split <;> rfl
@[simp] theorem State.spendTurn_line : s.spendTurn.line = s.line := by unfold State.spendTurn; split <;> rfl
@[simp] theorem State.spendTurn_len : s.spendTurn.len = s.len := by unfold State.spendTurn; split <;> rfl
@[simp] theorem State.spendTurn_rxb : s.spendTurn.rxb = s.rxb := by unfold State.spendTurn; split <;> rfl
@[simp] theorem State.spendTurn_pkt : s.spendTurn.pkt = s.pkt := by unfold State.spendTurn; split <;> rfl
@[simp] theorem State.spendTurn_matched : s.spendTurn.matched = s.matched := by unfold State.spendTurn; split <;> rfl
@[simp] theorem State.spendTurn_midx : s.spendTurn.midx = s.midx := by unfold State.spendTurn; split <;> rfl
@[simp] theorem State.spendTurn_txbuf : s.spendTurn.txbuf = s.txbuf := by unfold State.spendTurn; split <;> rfl
@[simp] theorem State.spendTurn_txidx : s.spendTurn.txidx = s.txidx := by unfold State.spendTurn; split <;> rfl
@[simp] theorem State.spendTurn_txbusy : s.spendTurn.txbusy = s.txbusy := by unfold State.spendTurn; split <;> rfl
@[simp] theorem State.spendTurn_txie : s.spendTurn.txie = s.txie := by unfold State.spendTurn; split <;> rfl
@[simp] theorem State.spendTurn_txdr : s.spendTurn.txdr = s.txdr := by unfold State.spendTurn; split <;> rfl
@[simp] theorem State.spendTurn_txe : s.spendTurn.txe = s.txe := by unfold State.spendTurn; split <;> rfl
@[simp] theorem State.spendTurn_inp : s.spendTurn.inp = s.inp := by unfold State.spendTurn; split <;> rfl
@[simp] theorem State.spendTurn_wireOut : s.spendTurn.wireOut = s.wireOut := by unfold State.spendTurn; split <;> rfl
@[simp] theorem State.spendTurn_fault : s.spendTurn.fault = s.fault := by unfold State.spendTurn; split <;> rfl
@[simp] theorem State.spendTurn_fcode : s.spendTurn.fcode = s.fcode := by unfold State.spendTurn; split <;> rfl

end Sys2Proof.Machine
end

