-- ==== Sys2Proof/Laws/Ops.lean ====
section
/-! SUPPORT. One inversion lemma per shared operation and per meaning: everything it can do, said once. -/

namespace Sys2Proof.Machine

/-! ## Holding and readiness -/

@[simp] theorem hold_eq (s : State) : hold s = .next s := rfl

theorem whenReady_of_ready {s : State} (k : Answer) (hf : s.fault = false) (hp : s.cph = .ready) :
    whenReady s k = k := by
  simp [whenReady, hf, hp]

theorem whenReady_of_fault {s : State} (k : Answer) (hf : s.fault = true) : whenReady s k = .next s := by
  simp [whenReady, hf]

theorem whenReady_of_not_ready {s : State} (k : Answer) (hp : s.cph ≠ .ready) : whenReady s k = .next s := by
  unfold whenReady
  split
  · rfl
  · split
    · contradiction
    · rfl

/-- What a command enabled only at READY can answer: its rule's answer, at READY without a fault, or a hold. -/
theorem whenReady_cases {s t : State} {k : Answer} (h : whenReady s k = .next t) :
    (s.fault = false ∧ s.cph = .ready ∧ k = .next t) ∨ t = s := by
  unfold whenReady at h
  split at h
  · simp_all
  · split at h
    · exact .inl ⟨by simpa using ‹¬s.fault = true›, ‹_›, h⟩
    · simp_all

theorem complete_eq (n : Nat) (s : State) : complete n s = .next (s.completed n) := rfl

theorem raise_eq (c : FaultCause) (s : State) : raise c s = .next (s.raised c) := rfl

/-! ## The CRC commands -/

theorem execCrcSet_cases {imm16 : Word16} {s t : State} (h : execCrcSet imm16 s = .next t) :
    (s.fault = false ∧ s.cph = .ready ∧ t = ({ s with crc := imm16 } : State).completed 3) ∨ t = s := by
  rcases whenReady_cases h with ⟨hf, hp, hk⟩ | rfl
  · cases hk; exact .inl ⟨hf, hp, rfl⟩
  · exact .inr rfl

theorem execCrcByte_cases {imm8 : Byte} {s t : State} (h : execCrcByte imm8 s = .next t) :
    (s.fault = false ∧ s.cph = .ready ∧ t = ({ s with crc := crcStep s.crc imm8 } : State).completed 2) ∨ t = s := by
  rcases whenReady_cases h with ⟨hf, hp, hk⟩ | rfl
  · cases hk; exact .inl ⟨hf, hp, rfl⟩
  · exact .inr rfl

theorem execCrcSpan_cases {buf off : Byte} {cnt : Word16} {s t : State} (h : execCrcSpan buf off cnt s = .next t) :
    (s.fault = false ∧ s.cph = .ready ∧
      ((∃ c, t = s.raised c) ∨
       ∃ size m bytes, spanBuffer buf s = some (size, m) ∧ off.toNat + cnt.toNat ≤ size ∧
        m.readSpan off.toNat cnt.toNat = some bytes ∧
        t = ({ s with crc := crc16 s.crc bytes } : State).completed 5)) ∨ t = s := by
  rcases whenReady_cases h with ⟨hf, hp, hk⟩ | rfl
  · refine .inl ⟨hf, hp, ?_⟩
    split at hk
    · cases hk; exact .inl ⟨_, rfl⟩
    · split at hk
      · cases hk; exact .inl ⟨_, rfl⟩
      · split at hk
        · cases hk; exact .inl ⟨_, rfl⟩
        · cases hk; exact .inr ⟨_, _, _, ‹_›, by omega, ‹_›, rfl⟩
  · exact .inr rfl

/-! ## The receive path -/

theorem seeByte_cases {p : Phase} {s t : State} (h : seeByte p s = .next t) :
    (s.ringEmpty = false ∧ t = { s with cph := p }) ∨ (s.ringEmpty = true ∧ t = s) := by
  unfold seeByte at h
  split at h <;> cases h <;> simp_all

theorem popTake_cases {s t : State} (h : popTake s = .next t) :
    (∃ b, s.ringHead = some b ∧ t = ({ s with rxb := some b, ridx := s.ridx + 1#8 } : State).completed 1) ∨
      (s.ringHead = none ∧ t = s.raised .uninitialisedRead) := by
  unfold popTake at h
  split at h <;> cases h <;> simp_all

theorem execPop_cases {s t : State} (h : execPop s = .next t) :
    (s.fault = false ∧ s.cph = .ready ∧ s.ringEmpty = false ∧ t = { s with cph := .popSeen }) ∨
    (s.fault = false ∧ s.cph = .popSeen ∧
      ((∃ b, s.ringHead = some b ∧ t = ({ s with rxb := some b, ridx := s.ridx + 1#8 } : State).completed 1) ∨
        (s.ringHead = none ∧ t = s.raised .uninitialisedRead))) ∨ t = s := by
  unfold execPop at h
  split at h
  · simp_all
  · have hf : s.fault = false := by simpa using ‹¬s.fault = true›
    split at h
    · rcases seeByte_cases h with ⟨he, ht⟩ | ⟨-, ht⟩
      · exact .inl ⟨hf, ‹_›, he, ht⟩
      · exact .inr (.inr ht)
    · exact .inr (.inl ⟨hf, ‹_›, popTake_cases h⟩)
    · simp_all

theorem lineTake_cases {n : Fin 255} {s t : State} (h : lineTake n s = .next t) :
    (s.ringHead = none ∧ t = s.raised .uninitialisedRead) ∨
    ∃ b, s.ringHead = some b ∧
      ((∃ more : b ≠ newline ∧ n.val + 1 < lineMax,
          t = { s with
                ridx := s.ridx + 1#8, line := s.line.write n.val b, cph := .rdl ⟨n.val + 1, more.2⟩ false }) ∨
       (¬(b ≠ newline ∧ n.val + 1 < lineMax) ∧
          t = ({ s with
                  ridx := s.ridx + 1#8
                  line := (s.line.write n.val b).write (n.val + 1) 0x00#8
                  len := BitVec.ofNat 9 (n.val + 1) } : State).completed 1)) := by
  unfold lineTake at h
  split at h
  · cases h; exact .inl ⟨‹_›, rfl⟩
  · refine .inr ⟨_, ‹_›, ?_⟩
    split at h
    · cases h; exact .inl ⟨‹_›, rfl⟩
    · cases h; exact .inr ⟨‹_›, rfl⟩

theorem execReadLine_cases {s t : State} (h : execReadLine s = .next t) :
    (s.fault = false ∧ s.cph = .ready ∧ s.ringEmpty = false ∧ t = { s with cph := .rdl 0 true }) ∨
    (∃ n, s.fault = false ∧ s.cph = .rdl n false ∧ s.ringEmpty = false ∧ t = { s with cph := .rdl n true }) ∨
    (∃ n, s.fault = false ∧ s.cph = .rdl n true ∧ lineTake n s = .next t) ∨ t = s := by
  unfold execReadLine at h
  split at h
  · simp_all
  · have hf : s.fault = false := by simpa using ‹¬s.fault = true›
    split at h
    · rcases seeByte_cases h with ⟨he, ht⟩ | ⟨-, ht⟩
      · exact .inl ⟨hf, ‹_›, he, ht⟩
      · exact .inr (.inr (.inr ht))
    · rcases seeByte_cases h with ⟨he, ht⟩ | ⟨-, ht⟩
      · exact .inr (.inl ⟨_, hf, ‹_›, he, ht⟩)
      · exact .inr (.inr (.inr ht))
    · exact .inr (.inr (.inl ⟨_, hf, ‹_›, h⟩))
    · simp_all

/-! ## The record commands and the parser -/

@[simp] theorem sentinelRecord_length : sentinelRecord.length = 60 := by decide

/-- Every field slot lies between the leading marker and the checksum (R112). -/
theorem slot_between (slot : Slot) : 3 ≤ slotOffset slot ∧ slotOffset slot + slotWidth slot ≤ checksumOffset := by
  cases slot <;> decide

/-- The memories of the reset state are in their canonical form. -/
theorem reset_memories_wf :
    State.reset.ring.wf ringSize = true ∧ State.reset.line.wf lineBufSize = true ∧
      State.reset.pkt.wf pktSize = true ∧ State.reset.txbuf.wf pktSize = true := by decide

theorem execPktReset_cases {s t : State} (h : execPktReset s = .next t) :
    (s.fault = false ∧ s.cph = .ready ∧
      t = ({ s with pkt := s.pkt.writeBytes 0 sentinelRecord } : State).completed 1) ∨ t = s := by
  rcases whenReady_cases h with ⟨hf, hp, hk⟩ | rfl
  · cases hk; exact .inl ⟨hf, hp, rfl⟩
  · exact .inr rfl

theorem execPktStore_cases {off val : Byte} {s t : State} (h : execPktStore off val s = .next t) :
    (s.fault = false ∧ s.cph = .ready ∧
      ((pktSize ≤ off.toNat ∧ t = s.raised .spanOutOfRange) ∨
       (off.toNat < pktSize ∧ t = ({ s with pkt := s.pkt.write off.toNat val } : State).completed 3))) ∨ t = s := by
  rcases whenReady_cases h with ⟨hf, hp, hk⟩ | rfl
  · refine .inl ⟨hf, hp, ?_⟩
    split at hk
    · cases hk; exact .inl ⟨‹_›, rfl⟩
    · cases hk; exact .inr ⟨by omega, rfl⟩
  · exact .inr rfl

theorem extractNum_fault {kind : Kind} {skip : Bool} {field : List Byte} {c : FaultCause}
    (h : extractNum kind skip field = .error c) : c = .parseUnterminated := by
  unfold extractNum at h
  split at h
  · cases h; rfl
  · split at h <;> cases h
    rfl

theorem extractTs_fault {conv : TimeConv} {field : List Byte} {c : FaultCause}
    (h : extractTs conv field = .error c) : c = .parseMalformed := by
  unfold extractTs at h
  split at h
  · split at h <;> cases h
    rfl
  · cases h; rfl

theorem extract_fault {conv : TimeConv} {e : PrefixEntry} {line : List Byte} {c : FaultCause}
    (h : extract conv e line = .error c) : c = .parseUnterminated ∨ c = .parseMalformed := by
  unfold extract at h
  split at h
  · exact .inr (extractTs_fault h)
  · exact .inl (extractNum_fault h)

/-- What PARSE_LINE can do with a line: record no match, write the matched slot, or raise a parse fault. -/
theorem parseBytes_cases {line : List Byte} {s t : State} (h : parseBytes line s = .next t) :
    t = s.noMatch.completed 1 ∨
    (∃ i e v, findEntry line 0 s.params.prefixTable = some (i, e) ∧ extract s.params.timeConv e line = .ok v ∧
      t = (({ s with pkt := writeSlot s.pkt e.slot v } : State).matchAt i).completed 1) ∨
    t = s.raised .parseUnterminated ∨ t = s.raised .parseMalformed := by
  unfold parseBytes at h
  split at h
  · cases h; exact .inl rfl
  · split at h
    · cases h; exact .inl rfl
    · split at h
      · cases h
        rcases extract_fault ‹_› with rfl | rfl
        · exact .inr (.inr (.inl rfl))
        · exact .inr (.inr (.inr rfl))
      · cases h; exact .inr (.inl ⟨_, _, _, ‹_›, ‹_›, rfl⟩)

theorem execParseLine_cases {s t : State} (h : execParseLine s = .next t) :
    (s.fault = false ∧ s.cph = .ready ∧
      ((s.len.toNat < minLine ∧ t = s.noMatch.completed 1) ∨
       (s.line.readSpan 0 s.len.toNat = none ∧ t = s.raised .uninitialisedRead) ∨
       ∃ line, s.line.readSpan 0 s.len.toNat = some line ∧ parseBytes line s = .next t)) ∨ t = s := by
  rcases whenReady_cases h with ⟨hf, hp, hk⟩ | rfl
  · refine .inl ⟨hf, hp, ?_⟩
    split at hk
    · cases hk; exact .inl ⟨‹_›, rfl⟩
    · split at hk
      · cases hk; exact .inr (.inl ⟨‹_›, rfl⟩)
      · exact .inr (.inr ⟨_, ‹_›, hk⟩)
  · exact .inr rfl

/-! ## The transmitter -/

/-- What `send_record()` can do: start a transmission of the stamped record, or fault. -/
theorem sendRecord_ok {s t : State} (h : sendRecord s = .ok t) :
    s.txe = true ∧ ∃ pkt record, stamped s.pkt = some pkt ∧ pkt.readSpan 0 pktSize = some record ∧
      t = startTransmission pkt record s := by
  unfold sendRecord at h
  split at h
  · cases h
  · split at h
    · split at h
      · cases h
      · cases h; exact ⟨‹_›, _, _, ‹_›, ‹_›, rfl⟩
    · cases h

theorem sendRecord_fault {s : State} {c : FaultCause} (h : sendRecord s = .error c) :
    c = .uninitialisedRead ∨ (c = .txOverrun ∧ s.txe = false) := by
  unfold sendRecord at h
  split at h
  · cases h; exact .inl rfl
  · split at h
    · split at h <;> cases h
      exact .inl rfl
    · cases h; exact .inr ⟨rfl, by simpa using ‹¬s.txe = true›⟩

theorem sendThen_cases {after : State → Answer} {s t : State} (h : sendThen after s = .next t) :
    (s.txbusy = true ∧ t = s) ∨
    (s.txbusy = false ∧
      ((∃ c, sendRecord s = .error c ∧ t = s.raised c) ∨ ∃ s', sendRecord s = .ok s' ∧ after s' = .next t)) := by
  unfold sendThen at h
  split at h
  · cases h; exact .inl ⟨‹_›, rfl⟩
  · refine .inr ⟨by simpa using ‹¬s.txbusy = true›, ?_⟩
    split at h
    · cases h; exact .inl ⟨_, ‹_›, rfl⟩
    · exact .inr ⟨_, ‹_›, h⟩

theorem execSend_cases {s t : State} (h : execSend s = .next t) :
    (s.fault = false ∧ s.cph = .ready ∧ s.txbusy = false ∧
      ((∃ c, sendRecord s = .error c ∧ t = s.raised c) ∨ ∃ s', sendRecord s = .ok s' ∧ t = s'.completed 1)) ∨
      t = s := by
  rcases whenReady_cases h with ⟨hf, hp, hk⟩ | rfl
  · rcases sendThen_cases hk with ⟨-, rfl⟩ | ⟨hb, hrest⟩
    · exact .inr rfl
    · refine .inl ⟨hf, hp, hb, ?_⟩
      rcases hrest with h1 | ⟨s', hs, hc⟩
      · exact .inl h1
      · cases hc; exact .inr ⟨s', hs, rfl⟩
  · exact .inr rfl

theorem execError_cases {code : Word32} {pay : List Byte} {s t : State} (h : execError code pay s = .next t) :
    (s.fault = false ∧ s.cph = .ready ∧
      t = { s with pkt := errorRecord s.params code pay s.pkt, cph := .snd (isFatal s.params code) }) ∨
    (∃ fatal, s.fault = false ∧ s.cph = .snd fatal ∧ s.txbusy = false ∧
      ((∃ c, sendRecord s = .error c ∧ t = s.raised c) ∨
       ∃ s', sendRecord s = .ok s' ∧
        t = if fatal then { s' with cph := .halted } else s'.completed (6 + pay.length))) ∨ t = s := by
  unfold execError at h
  split at h
  · simp_all
  · have hf : s.fault = false := by simpa using ‹¬s.fault = true›
    split at h
    · cases h; exact .inl ⟨hf, ‹_›, rfl⟩
    · rename_i fatal hp
      rcases sendThen_cases h with ⟨-, ht⟩ | ⟨hb, hrest⟩
      · exact .inr (.inr ht)
      · refine .inr (.inl ⟨fatal, hf, hp, hb, ?_⟩)
        rcases hrest with h1 | ⟨s', hs, hc⟩
        · exact .inl h1
        · refine .inr ⟨s', hs, ?_⟩
          unfold errorSent at hc
          split at hc <;> cases hc <;> simp_all
    · simp_all

/-! ## The events -/

theorem rxPush_cons {s : State} {b : Byte} {rest : List Byte} (h : s.inp = b :: rest) :
    rxPush s = { s with inp := rest, ring := s.ring.write s.widx.toNat b, widx := s.widx + 1#8 } := by
  simp [rxPush, h]

theorem txDrain_cases (s : State) :
    (s.txidx.toNat < pktSize ∧ s.txbuf.read s.txidx.toNat = none ∧ txDrain s = s.eventRaised .uninitialisedRead) ∨
    (∃ b, s.txidx.toNat < pktSize ∧ s.txbuf.read s.txidx.toNat = some b ∧
      txDrain s =
        { s with
          txdr := some b
          txe := false
          txidx := s.txidx + 1#8
          txbusy := s.txbusy && !clearsOnWrite s
          txie := s.txie && !clearsOnWrite s }) ∨
    (pktSize ≤ s.txidx.toNat ∧ txDrain s = { s with txbusy := false, txie := false }) := by
  unfold txDrain
  split
  · split
    · exact .inl ⟨‹_›, ‹_›, rfl⟩
    · exact .inr (.inl ⟨_, ‹_›, ‹_›, rfl⟩)
  · exact .inr (.inr ⟨by omega, rfl⟩)

theorem txShift_cases (s : State) :
    (s.txdr = none ∧ txShift s = s.eventRaised .uninitialisedRead) ∨
      ∃ b, s.txdr = some b ∧ txShift s = { s with wireOut := s.wireOut ++ [b], txe := true } := by
  unfold txShift
  split
  · exact .inl ⟨‹_›, rfl⟩
  · exact .inr ⟨_, ‹_›, rfl⟩

/-! ## Turns and steps -/

/-- What a turn of an agent can do. -/
theorem turn_cases {a : Agent} {s t : State} (h : turn a s = .next t) :
    t = s ∨
    (a = .ctrl ∧ s.fault = false ∧ ∃ i rest, fetch s = some (.command i rest) ∧ exec i s = .next t) ∨
    (a = .ctrl ∧ s.fault = false ∧ s.cph = .ready ∧ ∃ e, fetch s = some (.rejected e) ∧ t = s.raised (decodeCause e)) ∨
    (a = .rxi ∧ s.fault = false ∧ ∃ b rest, s.inp = b :: rest ∧
      t = { s with inp := rest, ring := s.ring.write s.widx.toNat b, widx := s.widx + 1#8 }) ∨
    (a = .txi ∧ s.fault = false ∧ s.txie = true ∧ s.txe = true ∧ t = txDrain s) ∨
    (a = .txs ∧ s.fault = false ∧ s.txe = false ∧ t = txShift s) := by
  cases a with
  | ctrl =>
    simp only [turn, ctrlTurn] at h
    split at h
    · cases h; exact .inl rfl
    · have hf : s.fault = false := by simpa using ‹¬s.fault = true›
      split at h
      · cases h; exact .inl rfl
      · exact .inr (.inl ⟨rfl, hf, _, _, ‹_›, h⟩)
      · rcases whenReady_cases h with ⟨-, hp, hk⟩ | ht
        · cases hk; exact .inr (.inr (.inl ⟨rfl, hf, hp, _, ‹_›, rfl⟩))
        · exact .inl ht
  | rxi =>
    simp only [turn] at h
    split at h
    · rename_i he
      simp only [State.enabled, State.rxPending, Bool.and_eq_true, Bool.not_eq_true'] at he
      cases hin : s.inp with
      | nil => rw [hin] at he; simp at he
      | cons b rest =>
        rw [rxPush_cons hin] at h
        cases h
        exact .inr (.inr (.inr (.inl ⟨rfl, he.1, b, rest, rfl, rfl⟩)))
    · cases h; exact .inl rfl
  | txi =>
    simp only [turn] at h
    split at h
    · rename_i he
      simp only [State.enabled, State.txPending, Bool.and_eq_true, Bool.not_eq_true'] at he
      cases h
      exact .inr (.inr (.inr (.inr (.inl ⟨rfl, he.1.1, he.1.2, he.2, rfl⟩))))
    · cases h; exact .inl rfl
  | txs =>
    simp only [turn] at h
    split at h
    · rename_i he
      simp only [State.enabled, Bool.and_eq_true, Bool.not_eq_true'] at he
      cases h
      exact .inr (.inr (.inr (.inr (.inr ⟨rfl, he.1, he.2, rfl⟩))))
    · cases h; exact .inl rfl

/-- A step that answers a next state is a turn of the chosen agent, in a launch that is not refused and without a
fault. -/
theorem step_cases {s t : State} (h : step s = .next t) :
    s.runs ∧ turn s.chosen s.spendTurn = .next t := by
  unfold step stepOf at h
  split at h
  · cases h
  · split at h
    · cases h
    · exact ⟨⟨‹_›, by simpa using ‹¬s.fault = true›⟩, h⟩

theorem step_of_runs {s : State} (h : s.runs) : step s = turn s.chosen s.spendTurn := by
  simp [step, stepOf, h.1, h.2]

end Sys2Proof.Machine
end

