-- ==== Sys2Proof/Laws/PerInstr.lean ====
section
/-! SUPPORT. The statements made per instruction. -/

/-! ## EncodedLength: a command's encoding has the length R101 gives it -/

namespace Sys2Proof.Laws.EncodedLength

/-- The encoding of a command is as long as R101 says. -/
def Statement (i : Instr) : Prop := (encode i).length = i.length

theorem leBytes_length (n v : Nat) : (leBytes n v).length = n := by
  induction n generalizing v with
  | zero => rfl
  | succ n ih => simp [leBytes, ih]

theorem crcSet (imm16 : Word16) : Statement (.crcSet imm16) := by
  simp [Statement, encode, Instr.operandBytes, Instr.length, leBytes_length]

theorem crcByte (imm8 : Byte) : Statement (.crcByte imm8) := rfl

theorem crcSpan (buf off : Byte) (cnt : Word16) : Statement (.crcSpan buf off cnt) := by
  simp [Statement, encode, Instr.operandBytes, Instr.length, leBytes_length]

theorem pop : Statement .pop := rfl

theorem readLine : Statement .readLine := rfl

theorem pktReset : Statement .pktReset := rfl

theorem parseLine : Statement .parseLine := rfl

theorem pktStore (off val : Byte) : Statement (.pktStore off val) := rfl

theorem error (code : Word32) (pay : List Byte) : Statement (.error code pay) := by
  simp [Statement, encode, Instr.operandBytes, Instr.length, leBytes_length]
  omega

theorem send : Statement .send := rfl

end Sys2Proof.Laws.EncodedLength
end

