-- ==== Sys2Proof/Laws/Run.lean ====
section
/-! SUPPORT. The laws of runs of several steps. -/

namespace Sys2Proof.Machine

/-! ## Spending a turn changes nothing that the spec gives the block -/

@[simp] theorem fetch_spendTurn (s : State) : fetch s.spendTurn = fetch s := by simp [fetch]

@[simp] theorem State.enabled_spendTurn (s : State) (a : Agent) : s.spendTurn.enabled a = s.enabled a := by
  unfold State.spendTurn; split <;> cases a <;> rfl

@[simp] theorem State.work_spendTurn (s : State) : s.spendTurn.work = s.work := by
  unfold State.spendTurn; split <;> rfl

/-! ## Turns in a faulted state, and turns of agents with no enabled step -/

theorem exec_of_fault {s : State} (i : Instr) (hf : s.fault = true) : exec i s = .next s := by
  cases i <;>
    simp [exec, execCrcSet, execCrcByte, execCrcSpan, execPop, execReadLine, execPktReset, execPktStore, execParseLine,
      execError, execSend, whenReady, hold, hf]

theorem turn_of_fault {s : State} (a : Agent) (hf : s.fault = true) : turn a s = .next s := by
  cases a <;> simp [turn, ctrlTurn, State.enabled, hold, hf]

/-! ## Runs -/

@[simp] theorem runFor_zero (s : State) : runFor 0 s = .next s := rfl

theorem runFor_succ {s t : State} (n : Nat) (h : step s = .next t) : runFor (n + 1) s = runFor n t := by
  rw [runFor, h]

/-- A run splits: after `m` steps that end in `t`, the rest goes on from `t`. -/
theorem runFor_add {m : Nat} {s t : State} (n : Nat) (h : runFor m s = .next t) : runFor (m + n) s = runFor n t := by
  induction m generalizing s with
  | zero => cases h; rw [Nat.zero_add]
  | succ m ih =>
    rw [Nat.succ_add]
    cases hs : step s with
    | next u => rw [runFor_succ _ hs] at h ⊢; exact ih h
    | fault r => rw [runFor, hs] at h; cases h
    | refused r => rw [runFor, hs] at h; cases h

end Sys2Proof.Machine
end

