-- ==== Sys2Proof/Machine/Asm.lean ====
section
/-! DEFINITION. The assembler: the pseudo-instructions of R123 and the line syntax of R122. -/

namespace Sys2Proof.Machine

/-! ## Pseudo-instructions (R123) -/

/-- The pseudo-instructions; `crcStr` carries the ASCII bytes of its string. -/
inductive Pseudo where
  | crcInit
  | crcStr (s : List Byte)
  | crcLine (n : Word16)
  | crcPkt
  | pktStore16 (off : Byte) (v : Word16)
  | pktStore32 (off : Byte) (v : Word32)
  | fatal (code : Word32) (pay : List Byte)
  deriving DecidableEq, Repr

/-- PKT_STORE of consecutive bytes from `off` on. -/
def storeBytes (off : Byte) : List Byte → List Instr
  | [] => []
  | b :: bs => .pktStore off b :: storeBytes (off + 1#8) bs

/-- The expansions of R123. -/
def expand (p : Params) : Pseudo → List Instr
  | .crcInit => [.crcSet 0x0000#16]
  | .crcStr s => s.map .crcByte
  | .crcLine n => [.crcSpan 0#8 0#8 n]
  | .crcPkt => [.crcSpan 1#8 0#8 60#16]
  | .pktStore16 off v => storeBytes off (leBytes 2 v.toNat)
  | .pktStore32 off v => storeBytes off (leBytes 4 v.toNat)
  | .fatal code pay => [.error (code ||| BitVec.twoPow 32 p.fatalFlagBit) pay]

/-- The command stream of a list of commands. -/
def assemble (is : List Instr) : List Byte :=
  is.flatMap encode

/-! ## Tokens (R122) -/

/-- The tokens of a line. -/
inductive Token where
  | word (w : List Char)
  | num (n : Nat)
  | str (s : List Byte)
  | comma
  | openBracket
  | closeBracket
  deriving DecidableEq, Repr

/-- A decimal digit's value. -/
def decDigit (c : Char) : Option Nat :=
  if 48 ≤ c.toNat ∧ c.toNat ≤ 57 then some (c.toNat - 48) else none

/-- A hexadecimal digit's value, in either case. -/
def hexDigit (c : Char) : Option Nat :=
  if 65 ≤ c.toNat ∧ c.toNat ≤ 70 then some (c.toNat - 55)
  else if 97 ≤ c.toNat ∧ c.toNat ≤ 102 then some (c.toNat - 87)
  else decDigit c

/-- The number that digits write in a base, from `v` on; none if a character is no digit. -/
def numberFrom (digit : Char → Option Nat) (base : Nat) : Nat → List Char → Option Nat
  | v, [] => some v
  | v, c :: cs =>
    match digit c with
    | none => none
    | some d => numberFrom digit base (base * v + d) cs

/-- A word as a number, decimal or `0x` hexadecimal, where it begins with a decimal digit; else as a word. -/
def wordToken (w : List Char) : Option Token :=
  match w with
  | '0' :: 'x' :: c :: cs => (numberFrom hexDigit 16 0 (c :: cs)).map .num
  | [] => none
  | c :: cs =>
    match decDigit c with
    | some _ => (numberFrom decDigit 10 0 (c :: cs)).map .num
    | none => some (.word w)

/-- The character that opens and closes a string. -/
def quoteChar : Char := Char.ofNat 34

/-- What ends a word: a blank, a comma, a bracket, a quote, or the start of a comment. -/
def endsWord (c : Char) : Bool :=
  c == ' ' || c == Char.ofNat 9 || c == ',' || c == '[' || c == ']' || c == quoteChar || c == ';'

/-- Put a finished word, if there is one, before the tokens after it. -/
def flush (w : List Char) (rest : Option (List Token)) : Option (List Token) :=
  match w with
  | [] => rest
  | _ :: _ =>
    match wordToken w.reverse, rest with
    | some t, some ts => some (t :: ts)
    | _, _ => none

/-- Where the scan stands: in a word (its characters so far, last first), or in a string (its bytes so far, last
first). -/
inductive ScanMode where
  | inWord (w : List Char)
  | inString (s : List Byte)
  deriving DecidableEq, Repr

/-- The tokens of a line; none where a string does not close or a number is malformed. A string stands for its ASCII
bytes (R122), which does not say what a character outside ASCII stands for: none here too (DESIGN CHOICE, log 16). -/
def tokens : ScanMode → List Char → Option (List Token)
  | .inWord w, [] => flush w (some [])
  | .inString _, [] => none
  | .inString s, c :: cs =>
    if c = quoteChar then (tokens (.inWord []) cs).map (Token.str s.reverse :: ·)
    else if c.toNat < 128 then tokens (.inString (BitVec.ofNat 8 c.toNat :: s)) cs
    else none
  | .inWord w, c :: cs =>
    if c = ';' then flush w (some [])
    else if c = quoteChar then flush w (tokens (.inString []) cs)
    else if c = ',' then flush w ((tokens (.inWord []) cs).map (Token.comma :: ·))
    else if c = '[' then flush w ((tokens (.inWord []) cs).map (Token.openBracket :: ·))
    else if c = ']' then flush w ((tokens (.inWord []) cs).map (Token.closeBracket :: ·))
    else if endsWord c then flush w (tokens (.inWord []) cs)
    else tokens (.inWord (c :: w)) cs

/-! ## Lines (R122) -/

/-- A number as an operand of `n` bits; none where it does not fit (log 16). -/
def operand (n : Nat) (v : Nat) : Option (BitVec n) :=
  if v < 2 ^ n then some (BitVec.ofNat n v) else none

/-- The bytes listed before `]`, separated by commas. R122 does not say whether a string may stand among them for its
bytes: none here, each listed byte is a number (DESIGN CHOICE, log 16). -/
def listedBytes : List Token → Option (List Byte)
  | [.closeBracket] => some []
  | [.num b, .closeBracket] => (operand 8 b).map fun x => [x]
  | .num b :: .comma :: .num c :: rest =>
    match operand 8 b, listedBytes (.num c :: rest) with
    | some x, some xs => some (x :: xs)
    | _, _ => none
  | _ => none

/-- `LINE` and `PKT` as the first operand of CRC_SPAN. -/
def bufferName (w : List Char) : Option Byte :=
  if w = ['L', 'I', 'N', 'E'] then some 0#8 else if w = ['P', 'K', 'T'] then some 1#8 else none

/-- A line of the form `code, [b0, ..., bN-1]` after ERROR or FATAL; N is one byte. -/
def codeAndPayload : List Token → Option (Word32 × List Byte)
  | .num code :: .comma :: .openBracket :: rest =>
    match operand 32 code, listedBytes rest with
    | some c, some pay => if pay.length < 256 then some (c, pay) else none
    | _, _ => none
  | _ => none

/-- The mnemonics of R122 and R123. -/
inductive Mnemonic where
  | instr (o : Opcode)
  | crcInit | crcStr | crcLine | crcPkt | pktStore16 | pktStore32 | fatal
  deriving DecidableEq, Repr

/-- Every mnemonic with its spelling. -/
def mnemonicTable : List (List Char × Mnemonic) :=
  [(['C', 'R', 'C', '_', 'S', 'E', 'T'], .instr .crcSet),
   (['C', 'R', 'C', '_', 'B', 'Y', 'T', 'E'], .instr .crcByte),
   (['C', 'R', 'C', '_', 'S', 'P', 'A', 'N'], .instr .crcSpan),
   (['P', 'O', 'P'], .instr .pop),
   (['R', 'E', 'A', 'D', '_', 'L', 'I', 'N', 'E'], .instr .readLine),
   (['P', 'K', 'T', '_', 'R', 'E', 'S', 'E', 'T'], .instr .pktReset),
   (['P', 'A', 'R', 'S', 'E', '_', 'L', 'I', 'N', 'E'], .instr .parseLine),
   (['P', 'K', 'T', '_', 'S', 'T', 'O', 'R', 'E'], .instr .pktStore),
   (['E', 'R', 'R', 'O', 'R'], .instr .error),
   (['S', 'E', 'N', 'D'], .instr .send),
   (['C', 'R', 'C', '_', 'I', 'N', 'I', 'T'], .crcInit),
   (['C', 'R', 'C', '_', 'S', 'T', 'R'], .crcStr),
   (['C', 'R', 'C', '_', 'L', 'I', 'N', 'E'], .crcLine),
   (['C', 'R', 'C', '_', 'P', 'K', 'T'], .crcPkt),
   (['P', 'K', 'T', '_', 'S', 'T', 'O', 'R', 'E', '1', '6'], .pktStore16),
   (['P', 'K', 'T', '_', 'S', 'T', 'O', 'R', 'E', '3', '2'], .pktStore32),
   (['F', 'A', 'T', 'A', 'L'], .fatal)]

/-- The operands of a line after its mnemonic. A string is an operand of CRC_STR only (DESIGN CHOICE, log 16). -/
def parseOperands (p : Params) : Mnemonic → List Token → Option (List Instr)
  | .instr .crcSet, [.num v] => (operand 16 v).map fun x => [.crcSet x]
  | .instr .crcByte, [.num v] => (operand 8 v).map fun x => [.crcByte x]
  | .instr .crcSpan, [.word w, .comma, .num off, .comma, .num cnt] =>
    match bufferName w, operand 8 off, operand 16 cnt with
    | some b, some o, some c => some [.crcSpan b o c]
    | _, _, _ => none
  | .instr .pop, [] => some [.pop]
  | .instr .readLine, [] => some [.readLine]
  | .instr .pktReset, [] => some [.pktReset]
  | .instr .parseLine, [] => some [.parseLine]
  | .instr .pktStore, [.num off, .comma, .num v] =>
    match operand 8 off, operand 8 v with
    | some o, some x => some [.pktStore o x]
    | _, _ => none
  | .instr .error, ts => (codeAndPayload ts).map fun x => [.error x.1 x.2]
  | .instr .send, [] => some [.send]
  | .crcInit, [] => some (expand p .crcInit)
  | .crcStr, [.str s] => some (expand p (.crcStr s))
  | .crcLine, [.num n] => (operand 16 n).map fun x => expand p (.crcLine x)
  | .crcPkt, [] => some (expand p .crcPkt)
  | .pktStore16, [.num off, .comma, .num v] =>
    match operand 8 off, operand 16 v with
    | some o, some x => some (expand p (.pktStore16 o x))
    | _, _ => none
  | .pktStore32, [.num off, .comma, .num v] =>
    match operand 8 off, operand 32 v with
    | some o, some x => some (expand p (.pktStore32 o x))
    | _, _ => none
  | .fatal, ts => (codeAndPayload ts).map fun x => expand p (.fatal x.1 x.2)
  | _, _ => none

/-- The commands of one line: none for a line that is not of R122's forms, the empty list for a line with no
mnemonic. -/
def assembleLine (p : Params) (line : List Char) : Option (List Instr) :=
  match tokens (.inWord []) line with
  | some [] => some []
  | some (.word w :: operands) =>
    match mnemonicTable.find? fun row => row.1 == w with
    | some row => parseOperands p row.2 operands
    | none => none
  | _ => none

/-- The command stream of a program, one command a line. -/
def assembleText (p : Params) : List (List Char) → Option (List Byte)
  | [] => some []
  | line :: rest =>
    match assembleLine p line, assembleText p rest with
    | some is, some bytes => some (assemble is ++ bytes)
    | _, _ => none

end Sys2Proof.Machine
end

