-- ==== Sys2Proof/Tests/Slice0.lean ====
section
/-! SUPPORT. Tests of the model, on values taken from the spec (spec/95_test_vectors.md and the rules' examples). -/

namespace Sys2Proof.Tests

open Sys2Proof.Machine

/-- A field of the next state an answer holds. -/
def after {α : Type} (a : Answer) (f : State → α) : Option α :=
  match a with
  | .next t => some (f t)
  | .fault _ => none
  | .refused _ => none

/-- The ASCII bytes of characters. -/
def ascii (cs : List Char) : List Byte := cs.map fun c => BitVec.ofNat 8 c.toNat

/-! ## WellFormed refuses -/

theorem test_wf_reserved_buf : (Instr.crcSpan 2#8 0#8 0#16).wf = false := by decide

theorem test_wf_payload_too_long : (Instr.error 0#32 (List.replicate 256 0#8)).wf = false := by decide +kernel

/-! ## Decoding: the words of R124, bit by bit from R101 to R107 -/

theorem test_decode_crcSet : decode [0x01#8, 0xFF#8, 0x12#8] = .command (.crcSet 0x12FF#16) [] := by decide

theorem test_decode_crcByte : decode [0x02#8, 0x31#8] = .command (.crcByte 0x31#8) [] := by decide

theorem test_decode_crcSpan :
    decode [0x03#8, 0x01#8, 0x00#8, 0x3C#8, 0x00#8, 0x30#8] = .command (.crcSpan 1#8 0#8 60#16) [0x30#8] := by decide

theorem test_decode_pop : decode [0x10#8] = .command .pop [] := by decide

theorem test_decode_readLine : decode [0x11#8] = .command .readLine [] := by decide

theorem test_decode_pktReset : decode [0x20#8] = .command .pktReset [] := by decide

theorem test_decode_parseLine : decode [0x21#8] = .command .parseLine [] := by decide

theorem test_decode_pktStore : decode [0x22#8, 0x03#8, 0xFE#8] = .command (.pktStore 3#8 0xFE#8) [] := by decide

theorem test_decode_error :
    decode [0x23#8, 0x01#8, 0x00#8, 0x00#8, 0x00#8, 0x04#8, 0xDE#8, 0xAD#8, 0xBE#8, 0xEF#8] =
      .command (.error 1#32 [0xDE#8, 0xAD#8, 0xBE#8, 0xEF#8]) [] := by decide

theorem test_decode_send : decode [0x30#8] = .command .send [] := by decide

/-- 95_test_vectors.md F2: illegal opcodes. -/
theorem test_decode_illegal :
    ∀ b ∈ [0x00#8, 0x04#8, 0x0F#8, 0x12#8, 0x1F#8, 0x24#8, 0x2F#8, 0x31#8, 0xFF#8],
      decode [b] = .rejected .illegalOpcode := by decide

/-- F4, F5: TruncatedCommand outranks ReservedOperand. -/
theorem test_decode_precedence :
    decode [0x03#8, 0x02#8, 0x00#8, 0x00#8] = .rejected .truncatedCommand ∧
      decode [0x03#8, 0x02#8, 0x00#8, 0x00#8, 0x00#8] = .rejected .reservedOperand := by decide

/-- E9: fewer than 6 bytes of an ERROR; E8: fewer than 6 + N. -/
theorem test_decode_error_truncated :
    decode [0x23#8, 0x01#8, 0x00#8] = .rejected .truncatedCommand ∧
      decode [0x23#8, 0x01#8, 0x00#8, 0x00#8, 0x00#8, 0x05#8, 0x01#8, 0x02#8] = .rejected .truncatedCommand := by
  decide

theorem test_tableWord_crcSpan : decodeTableWord 40 0x003C000103 = some (.crcSpan 1#8 0#8 60#16) := by decide

theorem test_tableWord_error_short : decodeTableWord 8 0x23 = some (.error 0#32 []) := by decide

/-! ## The step runs a placed command -/

theorem test_step_runs_placed_command :
    after (step (State.reset.withFetchWord 24 0xFFFF01)) (fun t => (t.crc, t.cix, t.cph)) =
      some (0xFFFF#16, 3, .ready) := by decide

/-- F7: SEND before any PKT_RESET. -/
theorem test_step_send_unwritten :
    after (step (State.reset.withFetchWord 8 0x30)) (fun t => (t.fault, t.fcode, t.cix, t.status)) =
      some (true, 0x04#8, 0, 0x2C#8) := by decide

theorem test_reset_status : State.reset.status = 0x0C#8 := by decide

/-! ## The CRC engine -/

/-- 95_test_vectors.md 2.1. -/
theorem test_crcStep :
    crcStep 0#16 0x01#8 = 0xC0C1#16 ∧ crcStep 0#16 0x80#8 = 0xA001#16 ∧ crcStep 0x1234#16 0x34#8 = 0x0012#16 ∧
      crcStep 0xFFFF#16 0x00#8 = 0x40BF#16 := by decide

/-- R146. -/
theorem test_crc_check_value :
    crc16 0#16 (ascii ['1', '2', '3', '4', '5', '6', '7', '8', '9']) = 0xBB3D#16 := by decide +kernel

theorem test_crcSet : after (exec (.crcSet 0xFFFF#16) .reset) (fun t => (t.crc, t.cix)) = some (0xFFFF#16, 3) := by
  decide

/-- R144. -/
theorem test_crcByte : after (exec (.crcByte 0x80#8) .reset) (fun t => (t.crc, t.cix)) = some (0xA001#16, 2) := by
  decide

/-- C7: `OFF = 60`, `CNT = 0` on an unwritten record. -/
theorem test_crcSpan_empty :
    after (exec (.crcSpan 1#8 60#8 0#16) .reset) (fun t => (t.crc, t.cix, t.fault)) = some (0#16, 5, false) := by
  decide

/-- C9. -/
theorem test_crcSpan_out_of_range :
    after (exec (.crcSpan 1#8 0#8 61#16) .reset) (fun t => (t.fcode, t.cix)) = some (0x03#8, 0) := by decide

/-! ## The receive path -/

/-- G2. -/
theorem test_rxPush_wraps :
    (fun t : State => (t.ring, t.widx, t.inp))
        (rxPush { State.reset with widx := 0xFF#8, ridx := 0x10#8, inp := [0x5A#8] }) =
      ([(255, 0x5A#8)], 0#8, []) := by decide

/-- R162's example: the take step. -/
theorem test_pop_take :
    after
        (exec .pop { State.reset with ring := [(0, 0x41#8), (1, 0x42#8)], widx := 2#8, cph := .popSeen })
        (fun t => (t.rxb, t.ridx, t.cix, t.cph)) = some (some 0x41#8, 1#8, 1, .ready) := by decide

/-- G6: holding on an empty ring. -/
theorem test_pop_holds : after (exec .pop .reset) (fun t => decide (t = .reset)) = some true := by decide

/-- G8: a newline alone. -/
theorem test_readLine_newline :
    after
        (exec .readLine { State.reset with ring := [(0, 0x0A#8)], widx := 1#8, cph := .rdl 0 true })
        (fun t => (t.len, t.line, t.cix, t.cph)) =
      some (1#9, [(0, 0x0A#8), (1, 0x00#8)], 1, .ready) := by decide

/-- R170: the 255th byte ends a line without a newline. -/
theorem test_readLine_cut :
    after
        (exec .readLine { State.reset with ring := [(0, 0x41#8)], widx := 1#8, cph := .rdl 254 true })
        (fun t => (t.len, t.line, t.cix)) =
      some (255#9, [(254, 0x41#8), (255, 0x00#8)], 1) := by decide

/-! ## The record -/

/-- A record just reset. -/
def freshRecord : State := { State.reset with pkt := Memory.writeBytes [] 0 sentinelRecord }

/-- K1. -/
theorem test_pktReset :
    after (exec .pktReset .reset) (fun t => (t.pkt.readSpan 0 4, t.pkt.readSpan 56 4, t.cix)) =
      some (some [0x42#8, 0xAA#8, 0xFF#8, 0xFF#8], some [0xFF#8, 0xFF#8, 0x55#8, 0xAA#8], 1) := by decide

/-- K2 and K3. -/
theorem test_pktStore :
    after (exec (.pktStore 59#8 0#8) .reset) (fun t => (t.pkt, t.cix)) = some ([(59, 0#8)], 3) ∧
      after (exec (.pktStore 60#8 0#8) .reset) (fun t => (t.fcode, t.pkt, t.cix)) = some (0x03#8, [], 0) := by
  decide

/-! ## The parser -/

/-- A fresh record with a line in `LINE`. -/
def withLine (cs : List Char) : State :=
  { freshRecord with line := Memory.writeBytes [] 0 (ascii cs), len := BitVec.ofNat 9 cs.length }

/-- R200: the candidate table's spelling of F1 and F19. -/
theorem test_obis :
    obis 1 0 1 8 1 = ascii ['1', '-', '0', ':', '1', '.', '8', '.', '1', '('] ∧
      obis 0 1 24 2 1 = ascii ['0', '-', '1', ':', '2', '4', '.', '2', '.', '1', '('] := by decide

/-- P6: voltage 230.1. -/
theorem test_parse_voltage :
    after
        (exec .parseLine
          (withLine ['1', '-', '0', ':', '3', '2', '.', '7', '.', '0', '(', '2', '3', '0', '.', '1', '*', 'V', ')']))
        (fun t => (t.pkt.readSpan 38 4, t.matched, t.midx, t.cix)) =
      some (some [0xFF#8, 0xFD#8, 0x08#8, 0xFF#8], true, 13#8, 1) := by decide

/-- T1: 2021-07-03 12:00:00 under R0, and the malformed flag of P16. -/
theorem test_parse_timestamp :
    after
        (exec .parseLine
          (withLine ['0', '-', '0', ':', '1', '.', '0', '.', '0', '(', '2', '1', '0', '7', '0', '3', '1', '2', '0',
            '0', '0', '0', 'S', ')']))
        (fun t => (t.pkt.readLe 3 4, t.midx)) = some (some 1625313600, 0#8) ∧
      extractTs ⟨0, 0, 0⟩ (ascii ['2', '1', '0', '7', '0', '3', '1', '2', '0', '0', '0', '0', 'X']) =
        .error .parseMalformed := by decide

/-- T4, T10: fields out of calendar range are normalised, and the result wraps modulo 2^32. -/
theorem test_timeConv :
    timeConv ⟨0, 0, 0⟩ 0 0 0 0 0 0 0 = 943920000 ∧ timeConv ⟨0, 0, 0⟩ 99 99 99 99 99 99 1 = 42243143 ∧
      timeConv ⟨0, 3600, 3600⟩ 21 7 3 12 0 0 1 = 1625306400 := by decide

/-- Section 1.12: the gas line; P14: no terminator. -/
theorem test_extractNum :
    extractNum .u32 true
        (ascii ['2', '1', 'S', ')', '(', '0', '1', '2', '3', '4', '.', '5', '6', '7', '*', 'm', '3', ')']) =
        .ok 1234567 ∧
      extractNum .u16 false (ascii ['2', '3', '0', '.', '1', ')']) = .error .parseUnterminated := by decide

/-! ## The transmitter -/

/-- R242's example. -/
theorem test_send :
    after (exec .send freshRecord)
        (fun t => (t.pkt.readSpan 56 2, t.txdr, t.txidx, t.txbusy && t.txie && !t.txe, t.cix)) =
      some (some [0x37#8, 0x86#8], some 0x42#8, 1#8, true, 1) := by decide +kernel

/-- R245's example. -/
theorem test_txDrain :
    (fun t : State => (t.txdr, t.txidx, t.txe, t.txbusy))
        (txDrain { State.reset with txbuf := [(59, 0xAA#8)], txidx := 59#8, txbusy := true, txie := true }) =
      (some 0xAA#8, 60#8, false, true) := by decide

/-- R246: the same under OnLastWrite clears the flags. -/
theorem test_txDrain_onLastWrite :
    (fun t : State => (t.txdr, t.txidx, t.txe, t.txbusy, t.txie))
        (txDrain
          { State.reset with
            params := { defaultParams with txClear := .onLastWrite }
            txbuf := [(59, 0xAA#8)], txidx := 59#8, txbusy := true, txie := true }) =
      (some 0xAA#8, 60#8, false, false, false) := by decide

/-- R247's example. -/
theorem test_txShift :
    (fun t : State => (t.wireOut, t.txe)) (txShift { State.reset with txdr := some 0x42#8, txe := false }) =
      ([0x42#8], true) := by decide

/-! ## The error report -/

/-- R270's example, the build step. -/
theorem test_error_build :
    after (exec (.error 1#32 [0xDE#8, 0xAD#8, 0xBE#8, 0xEF#8]) freshRecord)
        (fun t => (t.pkt.readSpan 3 10, t.cph, t.cix)) =
      some
        (some [0x01#8, 0x00#8, 0x00#8, 0x80#8, 0x04#8, 0xDE#8, 0xAD#8, 0xBE#8, 0xEF#8, 0xFF#8], .snd false, 0) := by
  decide

/-- R272: the send step of a fatal code halts; E1's checksum on the other. -/
theorem test_error_send :
    after (exec (.error 0x40000001#32 []) { freshRecord with cph := .snd true }) (fun t => (t.cph, t.cix)) =
      some (.halted, 0) ∧
    after (exec (.error 1#32 []) { freshRecord with cph := .snd false }) (fun t => (t.cph, t.cix, t.txbusy)) =
      some (.ready, 6, true) := by decide

/-! ## Launches and observations -/

theorem test_candidate_table_wf : launchRefusal defaultParams = none := by decide

/-- R313: each refusal. -/
theorem test_launch_refused :
    launchRefusal { defaultParams with errFlagBit := 30 } = some .flagBitsEqual ∧
      launchRefusal { defaultParams with fatalFlagBit := 32 } = some .flagBitRange ∧
      launchRefusal { defaultParams with pktInit := some [0#8] } = some .pktInitSize := by decide

/-- R196: each condition. -/
theorem test_table_refused :
    tableFlaw [⟨[0x31#8], .gas, .u32, false⟩] = some .badPrefix ∧
      tableFlaw [⟨obis 1 0 1 8 1, .tariff, .u32, false⟩] = some .kindOfSlot ∧
      tableFlaw [⟨obis 1 0 1 8 1, .tariff, .u8, true⟩] = some .skipKind ∧
      tableFlaw [⟨obis 10 0 10 8 1, .timestamp, .ts, false⟩] = some .tsPrefix ∧
      tableFlaw [⟨[0x28#8], .gas, .u32, false⟩, ⟨[0x28#8, 0x28#8], .tariff, .u8, false⟩] = some .overlap := by
  decide

/-- R310: the observation of the empty launch, and none while a command remains. -/
theorem test_observe :
    (observe .reset).map (fun o => (o.wireOut, o.regs.take 3, o.cph)) = some ([], [some 0, none, some 0], .ready) ∧
      observe (State.reset.withFetchWord 8 0x20) = none := by decide

/-- R122, R123: lines of the assembler. -/
theorem test_assembleLine :
    assembleLine defaultParams
        ['C', 'R', 'C', '_', 'S', 'P', 'A', 'N', ' ', 'P', 'K', 'T', ',', ' ', '0', ',', ' ', '6', '0', ' ', ';'] =
      some [.crcSpan 1#8 0#8 60#16] ∧
    assembleLine defaultParams
        ['F', 'A', 'T', 'A', 'L', ' ', '0', 'x', '2', ',', ' ', '[', '1', ',', ' ', '0', 'x', 'F', 'f', ']'] =
      some [.error 0x40000002#32 [0x01#8, 0xFF#8]] := by decide

/-- R122, R123: a string is its ASCII bytes. The second line is the model's choice (log 16). -/
theorem test_assembleLine_string :
    assembleLine defaultParams ['C', 'R', 'C', '_', 'S', 'T', 'R', ' ', '"', '1', '~', '"'] =
      some [.crcByte 0x31#8, .crcByte 0x7E#8] ∧
    assembleLine defaultParams ['C', 'R', 'C', '_', 'S', 'T', 'R', ' ', '"', Char.ofNat 128, '"'] = none := by decide

/-! ## Witnesses: states and operands that meet a statement's hypotheses together -/

theorem reset_runs : State.reset.runs := ⟨test_candidate_table_wf, rfl⟩

theorem reset_ready : State.reset.ready := ⟨rfl, rfl⟩

theorem fresh_ready : freshRecord.ready := ⟨rfl, rfl⟩

theorem fresh_written : ∀ k, k < 60 → k ≠ 56 → k ≠ 57 → ∃ b, freshRecord.pkt.read k = some b := by
  have h : freshRecord.pkt.written 0 60 = true := by decide
  intro k hk _ _
  simpa using Memory.written_iff.mp h k hk

theorem witness_DecodeInvertsEncode : (Instr.crcSpan 1#8 255#8 0xFFFF#16).wf = true ∧ (Instr.error 0#32 [7#8]).wf = true := by
  decide

theorem witness_EncodeInvertsDecode : decode [0x22#8, 0x3B#8, 0xAA#8, 0x30#8] = .command (.pktStore 59#8 0xAA#8) [0x30#8] := by
  decide

/-- One command placed at `CIX`. -/
def placed (bytes : List Byte) : State := { State.reset with cmd := bytes, plan := [.ctrl] }

theorem placed_runs (bytes : List Byte) : (placed bytes).runs := reset_runs

theorem witness_StepRunsFetchedCommand :
    (placed [0x20#8]).chosen = .ctrl ∧ (placed [0x20#8]).cix < (placed [0x20#8]).cmd.length ∧
      decode ((placed [0x20#8]).cmd.drop (placed [0x20#8]).cix) = .command .pktReset [] := by decide

theorem witness_StepRejectsByName :
    ∀ x ∈ [([0x00#8], DecodeError.illegalOpcode), ([0x03#8, 2#8, 0#8, 0#8, 0#8], .reservedOperand),
        ([0x01#8], .truncatedCommand)],
      (placed x.1).chosen = .ctrl ∧ (placed x.1).cph = .ready ∧ (placed x.1).cix < (placed x.1).cmd.length ∧
        decode ((placed x.1).cmd.drop (placed x.1).cix) = .rejected x.2 := by decide

theorem witness_FaultedBlockStops : ({ State.reset with fault := true, fcode := 4#8 } : State).fault = true := rfl

/-- Each refusal and each flaw, from the tests of R313 and R196. -/
theorem witness_RefusedLaunchDoesNotRun :
    (∀ x ∈ [({ defaultParams with errFlagBit := 30 }, Refusal.flagBitsEqual),
        ({ defaultParams with errFlagBit := 32 }, .flagBitRange),
        ({ defaultParams with pktInit := some (List.replicate 59 0#8) }, .pktInitSize),
        ({ defaultParams with prefixTable := [⟨[], .gas, .u32, false⟩] }, .prefixTable .badPrefix)],
      launchRefusal x.1 = some x.2) ∧
    (∀ flaw : TableFlaw, ∃ t, tableFlaw t = some flaw) := by
  obtain ⟨h1, h2, h3, h4, h5⟩ := test_table_refused
  exact ⟨by decide, fun flaw => by cases flaw <;> exact ⟨_, by assumption⟩⟩

theorem witness_LaunchStartsFromResetValues :
    (∃ s, launch defaultParams [0x30#8] [0x41#8] = .next s) ∧
      ∃ s, launch { defaultParams with pktInit := some sentinelRecord } [] [] = .next s :=
  ⟨⟨_, rfl⟩, ⟨_, rfl⟩⟩

/-- The four clauses on the span: reserved, out of range by one, unwritten, and the whole record. -/
theorem witness_CrcSpanFoldsSpan :
    2 ≤ (2#8).toNat ∧ 60 < (0#8).toNat + (61#16).toNat ∧ (255#8).toNat + (1#16).toNat ≤ 256 ∧
      (∃ k, k < (1#16).toNat ∧ State.reset.line.read (255 + k) = none) ∧
      ∀ k, k < (60#16).toNat → freshRecord.pkt.read (0 + k) = sentinelRecord[k]? := by decide

theorem witness_CrcDetectsOneChangedByte : (0#8 : Byte) ≠ 1#8 := by decide

/-- Input arriving, the receive interrupt to move. -/
def receiving (bytes : List Byte) (turns : List Agent) : State := { State.reset with inp := bytes, plan := turns }

theorem witness_RxPushStoresByte :
    (receiving [0x41#8] [.rxi]).fault = false ∧ (receiving [0x41#8] [.rxi]).inp = [0x41#8] := by decide

theorem witness_PushesKeepTheLastBytes :
    (receiving (List.replicate 300 7#8) (List.replicate 300 .rxi)).runs ∧
      (receiving (List.replicate 300 7#8) (List.replicate 300 .rxi)).plan =
        List.replicate (List.replicate 300 7#8).length .rxi ++ [] :=
  ⟨reset_runs, by rw [List.length_replicate, List.append_nil]; rfl⟩

/-- Two unread bytes, a POP at `CIX`, in a given phase. -/
def popping (cph : Phase) (turns : List Agent) : State :=
  { State.reset with
    cmd := [0x10#8], ring := [(0, 0x41#8), (1, 0x42#8)], widx := 2#8, cph := cph, plan := turns
    inp := List.replicate 255 7#8 }

theorem witness_PopSeesThenTakes :
    State.reset.widx = State.reset.ridx ∧ (popping .ready []).widx ≠ (popping .ready []).ridx ∧
      (popping .popSeen []).ring.read (popping .popSeen []).ridx.toNat = some 0x41#8 := by decide

/-- No push between, and the least number of pushes that laps. -/
theorem witness_PushesBetweenSeeAndTake :
    fetch (popping .popSeen [.ctrl]) = some (.command .pop []) ∧ (popping .popSeen [.ctrl]).unreadCount = 2 ∧
      (popping .popSeen [.ctrl]).plan = List.replicate 0 .rxi ++ [.ctrl] ∧ 257 - 2 ≤ (List.replicate 255 7#8).length ∧
      (popping .popSeen (List.replicate 255 .rxi ++ [.ctrl])).plan =
        List.replicate (List.replicate 255 7#8).length .rxi ++ .ctrl :: [] := by
  refine ⟨by decide, by decide, rfl, ?_, ?_⟩ <;> rw [List.length_replicate]
  rfl

theorem witness_PopTakesOldestUnread : (popping .popSeen []).unread = [some 0x41#8, some 0x42#8] := by decide

/-- 255 pushes and 255 POPs; 256 pushes and a 257th byte. -/
theorem witness_FifoUpTo255 :
    let bytes := List.replicate 255 7#8
    let s : State :=
      { receiving bytes (List.replicate 255 .rxi ++ List.replicate (2 * 255) .ctrl) with
        cmd := List.replicate 255 0x10#8 }
    s.runs ∧ s.cph = .ready ∧ s.widx = s.ridx ∧ bytes.length ≤ 255 ∧ s.inp = bytes ++ [] ∧
      s.cmd.drop s.cix = List.replicate bytes.length 0x10#8 ++ [] ∧
      s.plan = List.replicate bytes.length .rxi ++ List.replicate (2 * 255) .ctrl ++ [] ∧
      (receiving (List.replicate 256 7#8 ++ [8#8]) (List.replicate 256 .rxi)).inp = List.replicate 256 7#8 ++ [8#8] := by
  intro bytes s
  refine ⟨reset_runs, rfl, rfl, ?_, (List.append_nil _).symm, ?_, ?_, rfl⟩
  · rw [List.length_replicate]
  · rw [List.length_replicate, List.append_nil]; rfl
  · rw [List.length_replicate, List.append_nil]; rfl

/-- The last byte that is not the 255th, and the 255th. -/
theorem witness_ReadLineSeesThenTakes :
    (popping (.rdl 253 true) []).ring.read (popping (.rdl 253 true) []).ridx.toNat = some 0x41#8 ∧
      (0x41#8 : Byte) ≠ 0x0A#8 ∧ (254 : Fin 255).val = (253 : Fin 255).val + 1 ∧ (254 : Fin 255).val + 1 = 255 := by
  decide

theorem witness_ReadLineAssemblesLine :
    let s : State :=
      { State.reset with
        cmd := [0x11#8], ring := [(0, 0x41#8), (1, 0x0A#8)], widx := 2#8, plan := List.replicate 4 .ctrl }
    s.cix < s.cmd.length ∧ decode (s.cmd.drop s.cix) = .command .readLine [] ∧ 0x0A#8 ∉ [0x41#8] ∧ 2 ≤ s.unreadCount ∧
      (∀ k, k < 2 → s.ringByte k = ([0x41#8] ++ [0x0A#8])[k]?) ∧ s.plan = List.replicate (2 * 2) .ctrl ++ [] := by
  decide

/-- The boundary offsets of PKT_STORE. -/
theorem witness_PktStoreWritesOneByte : (59#8).toNat < 60 ∧ 60 ≤ (60#8).toNat := by decide

/-! ### The parser's hypotheses -/

/-- The gas line of R213, its terminator gone in the second. -/
def gasLine : List Char :=
  ['0', '-', '1', ':', '2', '4', '.', '2', '.', '1', '(', '2', '1', 'S', ')', '(', '0', '1', '*', 'm', '3', ')']

theorem witness_ParseLineNoMatch :
    (withLine ['1', '(']).len.toNat < 14 ∧
      (withLine (List.replicate 14 'A')).line.readSpan 0 14 = some (ascii (List.replicate 14 'A')) ∧
      ∀ e ∈ candidateTable, e.pfx <+: ascii (List.replicate 14 'A') → e.kind = .ts ∧ 14 < 24 := by decide

theorem witness_ParseLineStoresNumber :
    candidateTable[20]? = some ⟨obis 0 0 96 14 0, .tariff, .u8, false⟩ ∧ 0x29#8 ∉ ascii ['0', '2'] ∧
      (withLine ['0', '-', '0', ':', '9', '6', '.', '1', '4', '.', '0', '(', '0', '2', ')']).line.readSpan 0 15 =
        some (obis 0 0 96 14 0 ++ ascii ['0', '2'] ++ 0x29#8 :: []) := by decide

theorem witness_ParseLineSkipsTimestamp :
    candidateTable[19]? = some ⟨obis 0 1 24 2 1, .gas, .u32, true⟩ ∧ 0x28#8 ∉ ascii ['2', '1', 'S', ')'] ∧
      (withLine gasLine).line.readSpan 0 22 =
        some
          (obis 0 1 24 2 1 ++ ascii ['2', '1', 'S', ')'] ++ 0x28#8 :: ascii ['0', '1'] ++
            0x2A#8 :: ascii ['m', '3', ')']) := by decide

theorem witness_ParseLineStoresTimestamp :
    candidateTable[0]? = some ⟨obis 0 0 1 0 0, .timestamp, .ts, false⟩ ∧
      (∀ c ∈ ascii (List.replicate 12 '1'), 0x30 ≤ c.toNat ∧ c.toNat ≤ 0x39) ∧
      24 ≤ (obis 0 0 1 0 0 ++ ascii (List.replicate 12 '1') ++ 0x57#8 :: ascii [')']).length := by decide

theorem witness_ParseLineRaises :
    0x29#8 ∉ ascii ['0', '2', '*'] ∧ 0x2A#8 ∉ ascii ['2', '3', ')'] ∧ 0x28#8 ∉ ascii ['2', '1', 'S', ')', '*'] ∧
      (∃ stamp body, ascii ['2', '1', '*', '(', '0', '1', ')'] = stamp ++ 0x28#8 :: body ∧ 0x28#8 ∉ stamp ∧
        0x2A#8 ∉ body) ∧
      (∃ k c, k < 12 ∧ (ascii (List.replicate 11 '1' ++ ['/']))[k]? = some c ∧ (c.toNat < 0x30 ∨ 0x39 < c.toNat)) ∧
      ∃ c, (ascii (List.replicate 12 '9' ++ ['X']))[12]? = some c ∧ c ≠ 0x53#8 ∧ c ≠ 0x57#8 := by
  refine ⟨by decide, by decide, by decide, ⟨ascii ['2', '1', '*'], ascii ['0', '1', ')'], by decide⟩,
    ⟨11, 0x2F#8, by decide⟩, ⟨0x58#8, by decide⟩⟩

theorem witness_TimeConvCountsGregorianDays : 1 ≤ 12 ∧ 12 ≤ 12 := by decide

/-! ### The transmitter's and the error report's hypotheses -/

theorem witness_StampWritesChecksum :
    (∃ k, k < 60 ∧ k ≠ 56 ∧ k ≠ 57 ∧ State.reset.pkt.read k = none) ∧
      ∀ k, k < 60 → k ≠ 56 → k ≠ 57 → ∃ b, freshRecord.pkt.read k = some b :=
  ⟨⟨59, by decide⟩, fresh_written⟩

theorem witness_SendStartsTransmission :
    freshRecord.ready ∧ freshRecord.txbusy = false ∧ freshRecord.txe = true ∧
      ∀ k, k < 60 → k ≠ 56 → k ≠ 57 → ∃ b, freshRecord.pkt.read k = some b :=
  ⟨fresh_ready, rfl, rfl, fresh_written⟩

/-- Busy; unwritten; and idle with the last byte still in the UART. -/
theorem witness_SendHoldsAndFaults :
    ({ freshRecord with txbusy := true } : State).txbusy = true ∧ State.reset.txbusy = false ∧
      ({ freshRecord with txe := false } : State).txbusy = false ∧
      ({ freshRecord with cph := .snd true, txe := false } : State).cph = .snd true := ⟨rfl, rfl, rfl, rfl⟩

/-- A transmission in flight, byte `i` to be written next. -/
def draining (policy : TxClearPolicy) (i : Byte) (txe : Bool) (turns : List Agent) : State :=
  { State.reset with
    params := { defaultParams with txClear := policy }
    txbuf := Memory.writeBytes [] 0 sentinelRecord
    txbusy := true, txie := true, txe := txe, txidx := i, txdr := some 0x42#8, plan := turns }

theorem draining_runs (policy : TxClearPolicy) (i : Byte) (txe : Bool) (turns : List Agent) :
    (draining policy i txe turns).runs := ⟨rfl, rfl⟩

theorem witness_TxDrainUnderOnEmpty :
    (draining .onEmpty 59#8 true [.txi]).enabled .txi = true ∧
      (draining .onEmpty 59#8 true [.txi]).txbuf.read 59 = some 0xAA#8 ∧
      (draining .onEmpty 60#8 true [.txi]).enabled .txi = true ∧
      (draining .onEmpty 60#8 true [.txi]).txidx.toNat = 60 := by
  decide

theorem witness_TxDrainUnderOnLastWrite :
    (draining .onLastWrite 59#8 true [.txi]).enabled .txi = true ∧
      (draining .onLastWrite 59#8 true [.txi]).txidx.toNat + 1 = 60 ∧
      (draining .onLastWrite 59#8 true [.txi]).txbuf.read 59 = some 0xAA#8 ∧
      (draining .onLastWrite 58#8 true [.txi]).txidx.toNat + 1 ≠ 60 ∧
      (draining .onLastWrite 58#8 true [.txi]).txbuf.read 58 = some 0x55#8 := by decide

theorem witness_TxShiftEmitsByte :
    (draining .onEmpty 1#8 false [.txs]).enabled .txs = true ∧
      (draining .onEmpty 1#8 false [.txs]).txdr = some 0x42#8 := by decide

theorem witness_TransmissionEmitsRecord :
    let s := draining .onEmpty 1#8 false (List.replicate 60 [Agent.txs, Agent.txi]).flatten
    s.runs ∧ sentinelRecord.length = 60 ∧ s.txbuf.readSpan 0 60 = some sentinelRecord ∧ s.txdr = sentinelRecord[0]? := by
  refine ⟨draining_runs _ _ _ _, by decide, by decide, by decide⟩

theorem witness_ErrorBuildsRecord :
    freshRecord.ready ∧ (50 : Nat) = min (List.replicate 51 7#8).length 50 ∧ (0 : Nat) = min ([] : List Byte).length 50 :=
  ⟨fresh_ready, by simp, by simp⟩

theorem witness_ErrorSendsThenResumesOrHalts :
    ∀ fatal, ({ freshRecord with cph := .snd fatal } : State).cph = .snd fatal ∧
      ({ freshRecord with cph := .snd fatal } : State).txbusy = false := by decide

theorem witness_HaltedForGood :
    ∃ t, step { receiving [0x41#8] [.rxi] with cph := .halted } = .next t := ⟨_, rfl⟩

/-! ### The frames' hypotheses -/

theorem witness_CrcCommandsFrame : ∃ t, exec (.crcSpan 1#8 0#8 60#16) freshRecord = .next t := ⟨_, rfl⟩

theorem witness_ReceiveCommandsFrame :
    (∃ t, exec .pop (popping .popSeen []) = .next t) ∧ ∃ t, exec .readLine (popping (.rdl 0 true) []) = .next t :=
  ⟨⟨_, rfl⟩, ⟨_, rfl⟩⟩

theorem witness_RecordCommandsFrame :
    (∃ t, exec .pktReset .reset = .next t) ∧ (∃ t, exec (.pktStore 59#8 0#8) .reset = .next t) ∧
      (∃ t, exec .parseLine (withLine gasLine) = .next t) ∧ (∃ t, exec (.error 1#32 [7#8]) .reset = .next t) ∧
      ∃ t, exec .send .reset = .next t :=
  ⟨⟨_, rfl⟩, ⟨_, rfl⟩, ⟨_, rfl⟩, ⟨_, rfl⟩, ⟨_, rfl⟩⟩

/-! ### The invariants' hypotheses -/

/-- A launch with one command and one byte of input. -/
def started (cmd : List Byte) (plan : List Agent := [.ctrl]) : State :=
  { State.reset with cmd := cmd, inp := [0x41#8], plan := plan }

theorem started_clean (cmd : List Byte) : CleanLaunch (started cmd) :=
  ⟨defaultParams, cmd, [0x41#8], [.ctrl], 0, test_candidate_table_wf, rfl⟩

theorem started_inv (cmd : List Byte) (plan : List Agent := [.ctrl]) : Inv (started cmd plan) where
  memories := ⟨rfl, rfl, rfl, rfl⟩
  ring := ⟨fun k h => absurd (show k < (0#8 - 0#8 : Byte).toNat from h) (Nat.not_lt_zero k)⟩
  line := ⟨Nat.zero_le _, fun i h => absurd h (Nat.not_lt_zero i), fun _ _ h => absurd h (Nat.lt_irrefl 0), nofun⟩
  transmit := ⟨rfl, Nat.zero_le _, fun _ => .inl rfl, fun _ _ => rfl, nofun, nofun, by rintro (h | h) <;> cases h⟩
  control := ⟨Nat.zero_le _, nofun, nofun, nofun, nofun⟩
  fault := ⟨⟨nofun, nofun⟩, fun _ => rfl, nofun, nofun⟩

theorem started_wire (cmd : List Byte) : WireInv (started cmd) :=
  ⟨(by rintro (h | h) <;> cases h), nofun, ⟨[], [], rfl, nofun, rfl, nofun⟩⟩

/-- Every statement about one step of a state that meets the invariants. -/
theorem witness_steps :
    Inv (started [0x20#8]) ∧ WireInv (started [0x20#8]) ∧ (started [0x20#8]).chosen = .ctrl ∧
      ∃ t, step (started [0x20#8]) = .next t ∧ t.cix ≠ (started [0x20#8]).cix :=
  ⟨started_inv _, started_wire _, rfl, _, rfl, by decide⟩

theorem witness_EventsLeaveControlState :
    (receiving [0x41#8] [.rxi]).chosen ≠ .ctrl ∧ ∃ t, step (receiving [0x41#8] [.rxi]) = .next t :=
  ⟨by decide, _, rfl⟩

/-- SpanOutOfRange and UninitialisedRead. -/
theorem witness_FaultsByCommand :
    Inv (started []) ∧ (started []).fault = false ∧
      after (exec (.crcSpan 1#8 0#8 61#16) (started [])) (fun t => (t.fault, t.fcode)) = some (true, 0x03#8) ∧
      after (exec (.crcSpan 1#8 0#8 60#16) (started [])) (fun t => (t.fault, t.fcode)) = some (true, 0x04#8) ∧
      after (exec (.pktStore 60#8 0#8) (started [])) (fun t => (t.fault, t.fcode)) = some (true, 0x03#8) ∧
      after (exec .send (started [])) (fun t => (t.fault, t.fcode)) = some (true, 0x04#8) :=
  ⟨started_inv _, rfl, by decide, by decide, by decide, by decide⟩

theorem witness_EventOrdersAgree :
    (∀ a, a = Agent.txi ∨ a = .txs →
      ({ draining .onEmpty 1#8 (decide (a = .txi)) [] with inp := [0x41#8] } : State).enabled .rxi = true ∧
        ({ draining .onEmpty 1#8 (decide (a = .txi)) [] with inp := [0x41#8] } : State).enabled a = true) ∧
      TransmitInv ({ draining .onEmpty 1#8 true [] with inp := [0x41#8] } : State) := by
  refine ⟨by rintro a (rfl | rfl) <;> decide, ⟨rfl, by decide, nofun, nofun, nofun, nofun, fun _ => by decide⟩⟩

theorem witness_FinalStateIsQuiescent :
    TransmitInv .reset ∧ State.reset.final = true ∧ ∃ o, observe .reset = some o :=
  ⟨⟨rfl, Nat.zero_le _, fun _ => .inl rfl, fun _ _ => rfl, nofun, nofun, by rintro (h | h) <;> cases h⟩, rfl, _, rfl⟩

/-- TXDR and TXIDX change in a turn of TX_DRAIN, FCODE in a turn that raises a fault. -/
theorem witness_OnlyItsWritersWrite :
    after (step (draining .onEmpty 58#8 true [.txi])) (fun t => (t.txdr, t.txidx)) = some (some 0x55#8, 59#8) ∧
      after (step (placed [0x30#8])) (fun t => (t.fault, t.fcode)) = some (true, 0x04#8) := by decide

/-- TX_DRAIN clears TXBUSY; and a faulted state, for the clauses on turns and commands there. -/
theorem witness_FlagsChangeByTheirSteps :
    after (step (draining .onEmpty 60#8 true [.txi])) (fun t => t.txbusy) = some false ∧
      ({ State.reset with fault := true, fcode := 4#8 } : State).fault = true := by decide

/-- An infinite fair run: one byte is received, and then every turn is a hold. -/
def fairRun : Nat → State
  | 0 => started [] [.rxi]
  | n + 1 => { State.reset with ring := [(0, 0x41#8)], widx := 1#8, tick := n }

theorem fairRun_idle (n : Nat) (a : Agent) : (fairRun (n + 1)).enabled a = false := by cases a <;> rfl

theorem witness_FairRunsSettle : IsRun fairRun ∧ WeaklyFair fairRun ∧ Inv (fairRun 0) := by
  refine ⟨fun n => ?_, fun a n h => ?_, started_inv [] [.rxi]⟩
  · match n with
    | 0 => rfl
    | n + 1 =>
      have h : (fairRun (n + 1)).runs := reset_runs
      rw [step_of_runs h]
      cases (fairRun (n + 1)).chosen <;> rfl
  · have := h (n + 1) (Nat.le_succ n)
    rw [fairRun_idle] at this
    cases this

end Sys2Proof.Tests
end

section
/-! SUPPORT. Everything a turn can do to the state, as a relation: the effects of one step of a command, and of the four
agents' turns. Every statement about all steps is a case analysis of it. And the length of a fetched command. -/

namespace Sys2Proof.Machine

variable {s t u : State} {i : Instr}

/-! ## The commands by what they write -/

/-- The commands of the CRC engine (R143 to R145). -/
def IsCrcCommand (i : Instr) : Prop :=
  (∃ v, i = .crcSet v) ∨ (∃ b, i = .crcByte b) ∨ ∃ buf off cnt, i = .crcSpan buf off cnt

/-- The commands that only store bytes in the record (R190, R192). -/
def IsStoreCommand (i : Instr) : Prop :=
  i = .pktReset ∨ ∃ off val, i = .pktStore off val

/-! ## The effects of a command's step -/

/-- What one step of the command `i` can make of `s`: a hold, a fault, or the effect its rule states. -/
inductive Effect (s : State) : Instr → State → Prop where
  /-- The step is not enabled (R290). -/
  | hold {i : Instr} : Effect s i s
  /-- R300; TxOverrun arises only in a record sent while the transmitter holds a byte (R243). -/
  | fault {i : Instr} {c : FaultCause} (hf : s.fault = false)
      (overrun : c = .txOverrun → s.txbusy = false ∧ s.txe = false) : Effect s i (s.raised c)
  /-- CRC_SET, CRC_BYTE, CRC_SPAN (R143 to R145). -/
  | checksum {i : Instr} {c : Word16} (hi : IsCrcCommand i) (ready : s.ready) :
      Effect s i (({ s with crc := c } : State).completed i.length)
  /-- PKT_RESET, PKT_STORE (R190, R192). -/
  | store {i : Instr} {m : Memory} (hi : IsStoreCommand i) (ready : s.ready)
      (wf : s.pkt.wf pktSize = true → m.wf pktSize = true) :
      Effect s i (({ s with pkt := m } : State).completed i.length)
  /-- PARSE_LINE without a match (R210). -/
  | noMatch (ready : s.ready) : Effect s .parseLine (s.noMatch.completed 1)
  /-- PARSE_LINE with a match (R210, R220). -/
  | field {slot : Slot} {v k : Nat} (ready : s.ready) :
      Effect s .parseLine ((({ s with pkt := writeSlot s.pkt slot v } : State).matchAt k).completed 1)
  /-- POP's see step (R162). -/
  | popSee (ready : s.ready) (bytes : s.ringEmpty = false) : Effect s .pop { s with cph := .popSeen }
  /-- POP's take step (R162). -/
  | popTake {b : Byte} (hf : s.fault = false) (hp : s.cph = .popSeen) (head : s.ringHead = some b) :
      Effect s .pop (({ s with rxb := some b, ridx := s.ridx + 1#8 } : State).completed 1)
  /-- READ_LINE's see step for byte `n` (R170). -/
  | lineSee {n : Fin 255} (hf : s.fault = false) (hp : (s.cph = .ready ∧ n = 0) ∨ s.cph = .rdl n false)
      (bytes : s.ringEmpty = false) : Effect s .readLine { s with cph := .rdl n true }
  /-- READ_LINE's take step for byte `n`, with more bytes to come (R170). -/
  | lineCopy {n : Fin 255} {b : Byte} (hf : s.fault = false) (hp : s.cph = .rdl n true)
      (head : s.ringHead = some b) (more : n.val + 1 < lineMax) :
      Effect s .readLine
        { s with ridx := s.ridx + 1#8, line := s.line.write n.val b, cph := .rdl ⟨n.val + 1, more⟩ false }
  /-- READ_LINE's last take step, for byte `n` (R170). -/
  | lineEnd {n : Fin 255} {b : Byte} (hf : s.fault = false) (hp : s.cph = .rdl n true)
      (head : s.ringHead = some b) :
      Effect s .readLine
        (({ s with
            ridx := s.ridx + 1#8
            line := (s.line.write n.val b).write (n.val + 1) 0x00#8
            len := BitVec.ofNat 9 (n.val + 1) } : State).completed 1)
  /-- ERROR's build step (R270). -/
  | build {code : Word32} {pay : List Byte} (ready : s.ready) :
      Effect s (.error code pay)
        { s with pkt := errorRecord s.params code pay s.pkt, cph := .snd (isFatal s.params code) }
  /-- SEND (R242). -/
  | send {u : State} (ready : s.ready) (idle : s.txbusy = false) (sent : sendRecord s = .ok u) :
      Effect s .send (u.completed 1)
  /-- ERROR's send step, not fatal (R270). -/
  | report {code : Word32} {pay : List Byte} {u : State} (hf : s.fault = false) (hp : s.cph = .snd false)
      (idle : s.txbusy = false) (sent : sendRecord s = .ok u) :
      Effect s (.error code pay) (u.completed (6 + pay.length))
  /-- ERROR's send step, fatal (R272). -/
  | halt {code : Word32} {pay : List Byte} {u : State} (hf : s.fault = false) (hp : s.cph = .snd true)
      (idle : s.txbusy = false) (sent : sendRecord s = .ok u) :
      Effect s (.error code pay) { u with cph := .halted }

/-! ## Each command's step has one of its effects -/

theorem effect_of_crcSpan {buf off : Byte} {cnt : Word16} (h : execCrcSpan buf off cnt s = .next t) :
    Effect s (.crcSpan buf off cnt) t := by
  rcases whenReady_cases h with ⟨hf, hp, hk⟩ | rfl
  · split at hk
    · cases hk; exact .fault hf nofun
    · split at hk
      · cases hk; exact .fault hf nofun
      · split at hk
        · cases hk; exact .fault hf nofun
        · cases hk; exact .checksum (.inr (.inr ⟨_, _, _, rfl⟩)) ⟨hf, hp⟩
  · exact .hold

theorem effect_of_pop (h : execPop s = .next t) : Effect s .pop t := by
  rcases execPop_cases h with ⟨hf, hp, he, rfl⟩ | ⟨hf, hp, ⟨b, hb, rfl⟩ | ⟨-, rfl⟩⟩ | rfl
  · exact .popSee ⟨hf, hp⟩ he
  · exact .popTake hf hp hb
  · exact .fault hf nofun
  · exact .hold

theorem effect_of_readLine (h : execReadLine s = .next t) : Effect s .readLine t := by
  rcases execReadLine_cases h with ⟨hf, hp, he, rfl⟩ | ⟨n, hf, hp, he, rfl⟩ | ⟨n, hf, hp, ht⟩ | rfl
  · exact .lineSee hf (.inl ⟨hp, rfl⟩) he
  · exact .lineSee hf (.inr hp) he
  · rcases lineTake_cases ht with ⟨-, rfl⟩ | ⟨b, hb, ⟨more, rfl⟩ | ⟨-, rfl⟩⟩
    · exact .fault hf nofun
    · exact .lineCopy hf hp hb more.2
    · exact .lineEnd hf hp hb
  · exact .hold

theorem effect_of_pktStore {off val : Byte} (h : execPktStore off val s = .next t) :
    Effect s (.pktStore off val) t := by
  rcases execPktStore_cases h with ⟨hf, hp, ⟨-, rfl⟩ | ⟨hoff, rfl⟩⟩ | rfl
  · exact .fault hf nofun
  · exact .store (.inr ⟨_, _, rfl⟩) ⟨hf, hp⟩ (Memory.wf_write val hoff)
  · exact .hold

theorem effect_of_pktReset (h : execPktReset s = .next t) : Effect s .pktReset t := by
  rcases execPktReset_cases h with ⟨hf, hp, rfl⟩ | rfl
  · exact .store (.inl rfl) ⟨hf, hp⟩ (Memory.wf_writeBytes (by decide))
  · exact .hold

theorem effect_of_parseLine (h : execParseLine s = .next t) : Effect s .parseLine t := by
  rcases execParseLine_cases h with ⟨hf, hp, ⟨-, rfl⟩ | ⟨-, rfl⟩ | ⟨line, -, hl⟩⟩ | rfl
  · exact .noMatch ⟨hf, hp⟩
  · exact .fault hf nofun
  · rcases parseBytes_cases hl with rfl | ⟨k, e, v, -, -, rfl⟩ | rfl | rfl
    · exact .noMatch ⟨hf, hp⟩
    · exact .field ⟨hf, hp⟩
    · exact .fault hf nofun
    · exact .fault hf nofun
  · exact .hold

/-- A record that is not sent faults, with TxOverrun only where `TXBUSY` and `TXE` are both 0 (R242, R243). -/
theorem effect_of_sendRecord_fault {c : FaultCause} (hf : s.fault = false) (idle : s.txbusy = false)
    (h : sendRecord s = .error c) : Effect s i (s.raised c) := by
  rcases sendRecord_fault h with rfl | ⟨rfl, htxe⟩
  · exact .fault hf nofun
  · exact .fault hf fun _ => ⟨idle, htxe⟩

theorem effect_of_send (h : execSend s = .next t) : Effect s .send t := by
  rcases execSend_cases h with ⟨hf, hp, idle, ⟨c, hc, rfl⟩ | ⟨u, hu, rfl⟩⟩ | rfl
  · exact effect_of_sendRecord_fault hf idle hc
  · exact .send ⟨hf, hp⟩ idle hu
  · exact .hold

theorem effect_of_error {code : Word32} {pay : List Byte} (h : execError code pay s = .next t) :
    Effect s (.error code pay) t := by
  rcases execError_cases h with ⟨hf, hp, rfl⟩ | ⟨fatal, hf, hp, idle, ⟨c, hc, rfl⟩ | ⟨u, hu, rfl⟩⟩ | rfl
  · exact .build ⟨hf, hp⟩
  · exact effect_of_sendRecord_fault hf idle hc
  · cases fatal
    · exact .report hf hp idle hu
    · exact .halt hf hp idle hu
  · exact .hold

/-- What `exec` answers is an effect of its command. -/
theorem effect_of_exec (h : exec i s = .next t) : Effect s i t := by
  cases i with
  | crcSet v =>
    rcases execCrcSet_cases h with ⟨hf, hp, rfl⟩ | rfl
    · exact .checksum (.inl ⟨v, rfl⟩) ⟨hf, hp⟩
    · exact .hold
  | crcByte b =>
    rcases execCrcByte_cases h with ⟨hf, hp, rfl⟩ | rfl
    · exact .checksum (.inr (.inl ⟨b, rfl⟩)) ⟨hf, hp⟩
    · exact .hold
  | crcSpan buf off cnt => exact effect_of_crcSpan h
  | pop => exact effect_of_pop h
  | readLine => exact effect_of_readLine h
  | pktReset => exact effect_of_pktReset h
  | parseLine => exact effect_of_parseLine h
  | pktStore off val => exact effect_of_pktStore h
  | error code pay => exact effect_of_error h
  | send => exact effect_of_send h

/-! ## The length of a fetched command -/

theorem decodeOperands_length {o : Opcode} {bytes rest : List Byte}
    (h : decodeOperands o bytes = .command i rest) : bytes.length + 1 = i.length + rest.length := by
  unfold decodeOperands at h
  split at h
  case h_3 | h_9 =>
    split at h <;> cases h
    simp only [Instr.length, List.length_cons, List.length_take, List.length_drop] at *
    omega
  all_goals cases h <;> simp +arith only [Instr.length, List.length_cons]

theorem decode_length {bytes rest : List Byte} (h : decode bytes = .command i rest) :
    bytes.length = i.length + rest.length := by
  unfold decode at h
  split at h
  · cases h
  · split at h
    · cases h
    · exact decodeOperands_length h

/-- A command that stands at `CIX` lies inside `CMD` (R101, R110). -/
theorem fetch_length_le {rest : List Byte} (h : fetch s = some (.command i rest)) :
    s.cix + i.length ≤ s.cmd.length := by
  unfold fetch at h
  split at h
  · have := decode_length (Option.some.inj h)
    rw [List.length_drop] at this
    omega
  · cases h

/-! ## The effects on the control state -/

/-- What a sent record leaves unchanged, and what it sets (R242). -/
theorem sendRecord_frame (h : sendRecord s = .ok u) :
    u = { s with pkt := u.pkt, txbuf := u.txbuf, txbusy := true, txdr := u.txdr, txe := false, txidx := 1#8,
                 txie := true } := by
  obtain ⟨-, pkt, record, -, -, rfl⟩ := sendRecord_ok h
  rfl

/-- A step moves `CIX` only by completing its command (R30). -/
theorem Effect.cix_eq_or_completed (e : Effect s i t) :
    t.cix = s.cix ∨ (t.cph = .ready ∧ t.cix = s.cix + i.length) := by
  cases e with
  | hold | fault | popSee | lineSee | lineCopy | build => exact .inl rfl
  | checksum | store | noMatch | field | popTake | lineEnd => exact .inr ⟨rfl, rfl⟩
  | send ready idle sent | report hf hp idle sent => rw [sendRecord_frame sent]; exact .inr ⟨rfl, rfl⟩
  | halt hf hp idle sent => rw [sendRecord_frame sent]; exact .inl rfl

/-! ## The effects of a turn -/

/-- What one turn of an agent can make of `s` (R290). -/
inductive TurnEffect (s : State) : Agent → State → Prop where
  /-- The agent has no enabled step (log 3). -/
  | hold {a : Agent} : TurnEffect s a s
  /-- One step of the command at `CIX`. -/
  | command {i : Instr} {rest : List Byte} {t : State} (fetched : fetch s = some (.command i rest))
      (effect : Effect s i t) : TurnEffect s .ctrl t
  /-- The bytes at `CIX` are no command (R109, R110). -/
  | reject {e : DecodeError} : TurnEffect s .ctrl (s.raised (decodeCause e))
  /-- RX_PUSH (R160). -/
  | push {b : Byte} {rest : List Byte} (head : s.inp = b :: rest) :
      TurnEffect s .rxi { s with inp := rest, ring := s.ring.write s.widx.toNat b, widx := s.widx + 1#8 }
  /-- TX_DRAIN writes the next byte of `TXBUF` (R245, R246). -/
  | drain {b : Byte} (armed : s.txie = true) (empty : s.txe = true) (inside : s.txidx.toNat < pktSize) :
      TurnEffect s .txi
        { s with
          txdr := some b
          txe := false
          txidx := s.txidx + 1#8
          txbusy := s.txbusy && !clearsOnWrite s
          txie := s.txie && !clearsOnWrite s }
  /-- TX_DRAIN at the end of `TXBUF` (R245). -/
  | disarm (empty : s.txe = true) (atEnd : pktSize ≤ s.txidx.toNat) :
      TurnEffect s .txi { s with txbusy := false, txie := false }
  /-- TX_DRAIN at an unwritten byte (R11), which no run reaches (log 8). -/
  | drainUnwritten (armed : s.txie = true) (inside : s.txidx.toNat < pktSize)
      (unwritten : s.txbuf.read s.txidx.toNat = none) : TurnEffect s .txi (s.eventRaised .uninitialisedRead)
  /-- TX_SHIFT (R247). -/
  | shift {b : Byte} (full : s.txe = false) : TurnEffect s .txs { s with wireOut := s.wireOut ++ [b], txe := true }
  /-- TX_SHIFT with `TXDR` unwritten (R11), which no run reaches (log 8). -/
  | shiftUnwritten (full : s.txe = false) (unwritten : s.txdr = none) :
      TurnEffect s .txs (s.eventRaised .uninitialisedRead)

theorem turnEffect_of_turn {a : Agent} (h : turn a s = .next t) : TurnEffect s a t := by
  rcases turn_cases h with rfl | ⟨rfl, -, i, rest, fetched, he⟩ | ⟨rfl, -, -, e, -, rfl⟩ |
    ⟨rfl, -, b, rest, head, rfl⟩ | ⟨rfl, -, armed, empty, rfl⟩ | ⟨rfl, -, full, rfl⟩
  · exact .hold
  · exact .command fetched (effect_of_exec he)
  · exact .reject
  · exact .push head
  · rcases txDrain_cases s with ⟨inside, unwritten, ht⟩ | ⟨b, inside, -, ht⟩ | ⟨atEnd, ht⟩ <;> rw [ht]
    · exact .drainUnwritten armed inside unwritten
    · exact .drain armed empty inside
    · exact .disarm empty atEnd
  · rcases txShift_cases s with ⟨unwritten, ht⟩ | ⟨b, -, ht⟩ <;> rw [ht]
    · exact .shiftUnwritten full unwritten
    · exact .shift full

theorem TurnEffect.cix_eq_or_completed {a : Agent} (e : TurnEffect s a t) :
    t.cix = s.cix ∨
      (a = .ctrl ∧ t.cph = .ready ∧ ∃ i rest, fetch s = some (.command i rest) ∧ t.cix = s.cix + i.length) := by
  cases e with
  | command fetched effect =>
    exact effect.cix_eq_or_completed.imp_right fun ⟨hp, hc⟩ => ⟨rfl, hp, _, _, fetched, hc⟩
  | hold | reject | push | drain | disarm | drainUnwritten | shift | shiftUnwritten => exact .inl rfl

end Sys2Proof.Machine
end

section
/-! SUPPORT. Every effect of a turn keeps each part of the invariant of the reachable states (R53, R54, R70, R300). -/

namespace Sys2Proof.Machine

variable {s t u : State} {i : Instr} {a : Agent}

/-! ## The memories -/

theorem stamped_wf {m m' : Memory} (h : stamped m = some m') (w : m.wf pktSize = true) : m'.wf pktSize = true := by
  unfold stamped at h
  split at h <;> cases h
  exact Memory.wf_writeLe (by decide) w

theorem writeSlot_wf {m : Memory} (slot : Slot) (v : Nat) (w : m.wf pktSize = true) :
    (writeSlot m slot v).wf pktSize = true := by
  obtain ⟨-, hend⟩ := slot_between slot
  exact Memory.wf_writeLe (hend.trans (by decide)) w

theorem errLen_le (pay : List Byte) : errLen pay ≤ errPayloadCap := Nat.min_le_right ..

theorem writeResidue_wf {r : Residue} {l : Nat} {m : Memory} (hl : l ≤ errPayloadCap) (w : m.wf pktSize = true) :
    (writeResidue r l m).wf pktSize = true := by
  have fits : ∀ b : Byte, 8 + l + (List.replicate (errPayloadCap - l) b).length ≤ pktSize := by
    simp only [List.length_replicate, errPayloadCap, pktSize] at *
    omega
  cases r with
  | retain => exact w
  | zero => exact Memory.wf_writeBytes (fits _) w
  | sentinel => exact Memory.wf_writeBytes (fits _) w

theorem errorRecord_wf {p : Params} {code : Word32} {pay : List Byte} {m : Memory} (w : m.wf pktSize = true) :
    (errorRecord p code pay m).wf pktSize = true := by
  have fits : 8 + (pay.take (errLen pay)).length ≤ pktSize := by
    have := errLen_le pay
    simp only [List.length_take, errPayloadCap, pktSize] at *
    omega
  refine Memory.wf_writeBytes fits (Memory.wf_write _ (by decide) (Memory.wf_writeLe (by decide) ?_))
  exact writeResidue_wf (errLen_le pay) w

theorem MemoriesInv.spendTurn (h : MemoriesInv s) : MemoriesInv s.spendTurn := by
  unfold State.spendTurn
  split <;> exact { h with }

theorem MemoriesInv.sendRecord (h : MemoriesInv s) (sent : sendRecord s = .ok u) : MemoriesInv u := by
  obtain ⟨-, pkt, record, hpkt, hrecord, rfl⟩ := sendRecord_ok sent
  exact
    { h with
      pkt := stamped_wf hpkt h.pkt
      txbuf := Memory.wf_writeBytes (by simp [Memory.readSpan_length hrecord]) h.txbuf }

theorem Effect.keeps_memories (e : Effect s i t) (h : MemoriesInv s) : MemoriesInv t := by
  cases e with
  | hold | fault | checksum | noMatch | popSee | popTake | lineSee => exact { h with }
  | store _ _ wf => exact { h with pkt := wf h.pkt }
  | field => exact { h with pkt := writeSlot_wf _ _ h.pkt }
  | lineCopy => exact { h with line := Memory.wf_write _ (by simp only [lineBufSize]; omega) h.line }
  | lineEnd =>
    exact { h with line := Memory.wf_write _ (by simp only [lineBufSize]; omega)
                            (Memory.wf_write _ (by simp only [lineBufSize]; omega) h.line) }
  | build => exact { h with pkt := errorRecord_wf h.pkt }
  | send _ _ sent | report _ _ _ sent | halt _ _ _ sent => exact { h.sendRecord sent with }

theorem TurnEffect.keeps_memories (e : TurnEffect s a t) (h : MemoriesInv s) : MemoriesInv t := by
  cases e with
  | hold | reject | drain | disarm | drainUnwritten | shift | shiftUnwritten => exact { h with }
  | command _ effect => exact effect.keeps_memories h
  | push => exact { h with ring := Memory.wf_write _ s.widx.isLt h.ring }

/-! ## The ring -/

theorem State.unreadCount_le_takeable (s : State) : s.unreadCount ≤ s.takeable := by
  unfold State.takeable State.unreadCount
  split
  · bv_omega
  · exact Nat.le_refl _

theorem State.takeable_of_unseen (h : s.cph.seen = false) : s.takeable = s.unreadCount := by
  simp [State.takeable, h]

theorem State.takeable_of_seen (h : s.cph.seen = true) : s.takeable = (s.widx - s.ridx - 1#8).toNat + 1 := by
  simp [State.takeable, h]

/-- Seeing a byte leaves as many to be taken (R162): the ring is not empty, so the two counts agree. -/
theorem State.takeable_le_of_nonempty (h : s.ringEmpty = false) (hw : t.widx = s.widx) (hr : t.ridx = s.ridx) :
    t.takeable ≤ s.takeable := by
  have hne : s.widx ≠ s.ridx := by simpa [State.ringEmpty] using h
  have hle : t.takeable ≤ s.unreadCount := by
    unfold State.takeable State.unreadCount
    rw [hw, hr]
    split <;> bv_omega
  exact hle.trans s.unreadCount_le_takeable

theorem RingInv.of_takeable_le (h : RingInv s) (hring : t.ring = s.ring) (hridx : t.ridx = s.ridx)
    (hle : t.takeable ≤ s.takeable) : RingInv t where
  written k hk := by
    simpa [State.ringByte, hring, hridx] using h.written k (hk.trans_le hle)

/-- Outside the take phases only the unread bytes may be taken. -/
theorem RingInv.of_unseen (h : RingInv s) (hring : t.ring = s.ring) (hwidx : t.widx = s.widx)
    (hridx : t.ridx = s.ridx) (hp : t.cph.seen = false) : RingInv t := by
  refine h.of_takeable_le hring hridx ?_
  rw [State.takeable_of_unseen hp, State.unreadCount, hwidx, hridx]
  exact s.unreadCount_le_takeable

theorem RingInv.spendTurn (h : RingInv s) : RingInv s.spendTurn :=
  h.of_takeable_le (by simp) (by simp) (by simp [State.takeable, State.unreadCount])

/-- A take step gives up the oldest byte. -/
theorem RingInv.take (h : RingInv s) (seen : s.cph.seen = true) (hring : t.ring = s.ring) (hwidx : t.widx = s.widx)
    (hridx : t.ridx = s.ridx + 1#8) (hp : t.cph.seen = false) : RingInv t where
  written k hk := by
    rw [State.takeable_of_unseen hp, State.unreadCount, hwidx, hridx] at hk
    have old := h.written (k + 1) (by rw [State.takeable_of_seen seen]; bv_omega)
    have next : s.ridx + 1#8 + BitVec.ofNat 8 k = s.ridx + BitVec.ofNat 8 (k + 1) := by bv_omega
    simpa [State.ringByte, hring, hridx, next] using old

theorem RingInv.push (h : RingInv s) {b : Byte} {rest : List Byte} :
    RingInv { s with inp := rest, ring := s.ring.write s.widx.toNat b, widx := s.widx + 1#8 } where
  written k hk := by
    by_cases hk' : s.ridx + BitVec.ofNat 8 k = s.widx
    · exact ⟨b, by simp [State.ringByte, hk']⟩
    · have hlt : k < s.unreadCount := by
        revert hk
        unfold State.takeable State.unreadCount
        split <;> intro hk <;> bv_omega
      have other : (s.ridx + BitVec.ofNat 8 k).toNat ≠ s.widx.toNat := fun e => hk' (BitVec.eq_of_toNat_eq e)
      obtain ⟨c, hc⟩ := h.written k (hlt.trans_le s.unreadCount_le_takeable)
      exact ⟨c, (Memory.read_write_other _ _ other).trans hc⟩

theorem Effect.keeps_ring (e : Effect s i t) (h : RingInv s) : RingInv t := by
  cases e with
  | hold => exact h
  | fault | checksum | store | noMatch | field | build => exact h.of_unseen rfl rfl rfl rfl
  | popSee _ bytes | lineSee _ _ bytes =>
    exact h.of_takeable_le rfl rfl (State.takeable_le_of_nonempty bytes rfl rfl)
  | popTake _ hp | lineCopy _ hp | lineEnd _ hp => exact h.take (by rw [hp]; rfl) rfl rfl rfl rfl
  | send _ _ sent | report _ _ _ sent | halt _ _ _ sent =>
    rw [sendRecord_frame sent]
    exact h.of_unseen rfl rfl rfl rfl

theorem TurnEffect.keeps_ring (e : TurnEffect s a t) (h : RingInv s) : RingInv t := by
  cases e with
  | hold | drain | disarm | drainUnwritten | shift | shiftUnwritten => exact { h with }
  | command _ effect => exact effect.keeps_ring h
  | reject => exact h.of_unseen rfl rfl rfl rfl
  | push => exact h.push

/-! ## The line buffer -/

theorem LineInv.spendTurn (h : LineInv s) : LineInv s.spendTurn := by
  unfold State.spendTurn
  split <;> exact { h with }

/-- A step that leaves the line alone keeps its invariant, unless it enters READ_LINE's phase or leaves it without a
fault. -/
theorem LineInv.of_unchanged (h : LineInv s) (hline : t.line = s.line) (hlen : t.len = s.len)
    (idle : ∀ n seen, t.cph ≠ .rdl n seen)
    (before : t.fault = false → s.fault = false ∧ ∀ n seen, s.cph ≠ .rdl n seen) : LineInv t where
  lenMax := by simpa [hlen] using h.lenMax
  written := by simpa [hlen, hline] using h.written
  terminated := fun _ hf => by
    obtain ⟨hf', hp⟩ := before hf
    simpa [hlen, hline] using h.terminated hp hf'
  copied := fun n seen hp => absurd hp (idle n seen)

theorem LineInv.copy (h : LineInv s) {n : Fin 255} {b : Byte} (hp : s.cph = .rdl n true)
    (more : n.val + 1 < lineMax) :
    LineInv { s with ridx := s.ridx + 1#8, line := s.line.write n.val b, cph := .rdl ⟨n.val + 1, more⟩ false } where
  lenMax := h.lenMax
  written i hi := by
    rw [Memory.read_write]
    split
    · exact ⟨b, rfl⟩
    · exact h.written i hi
  terminated hp' := absurd rfl (hp' _ _)
  copied m seen hm i hi := by
    rw [Memory.read_write]
    split
    · exact ⟨b, rfl⟩
    · cases hm
      exact h.copied n true hp i (by simp only at hi; omega)

theorem lineEnd_len (n : Fin 255) : (BitVec.ofNat 9 (n.val + 1)).toNat = n.val + 1 := by
  rw [BitVec.toNat_ofNat]
  omega

theorem LineInv.finish (h : LineInv s) {n : Fin 255} {b : Byte} (hp : s.cph = .rdl n true) :
    LineInv
      (({ s with
          ridx := s.ridx + 1#8
          line := (s.line.write n.val b).write (n.val + 1) 0x00#8
          len := BitVec.ofNat 9 (n.val + 1) } : State).completed 1) where
  lenMax := by
    rw [State.completed_len, lineEnd_len]
    exact n.isLt
  written i hi := by
    rw [State.completed_len, lineEnd_len] at hi
    rw [State.completed_line, Memory.read_write_other _ _ (by omega), Memory.read_write]
    split
    · exact ⟨b, rfl⟩
    · exact h.copied n true hp i (by omega)
  terminated _ _ _ := by
    rw [State.completed_len, State.completed_line, lineEnd_len, Memory.read_write_self]
  copied := nofun

theorem Effect.keeps_line (e : Effect s i t) (h : LineInv s) : LineInv t := by
  cases e with
  | hold => exact h
  | fault => exact h.of_unchanged rfl rfl nofun nofun
  | checksum _ ready | store _ ready | noMatch ready | field ready | popSee ready | build ready =>
    exact h.of_unchanged rfl rfl nofun fun _ => ⟨ready.1, by rw [ready.2]; nofun⟩
  | popTake hf hp => exact h.of_unchanged rfl rfl nofun fun _ => ⟨hf, by rw [hp]; nofun⟩
  | lineSee hf hp =>
    exact { h with
      terminated := fun idle => absurd rfl (idle _ _)
      copied := fun m seen hm => by
        cases hm
        rcases hp with ⟨-, rfl⟩ | hp
        · exact fun i hi => absurd hi (Nat.not_lt_zero i)
        · exact h.copied _ _ hp }
  | lineCopy _ hp => exact h.copy hp _
  | lineEnd _ hp => exact h.finish hp
  | send ready _ sent =>
    rw [sendRecord_frame sent]
    exact h.of_unchanged rfl rfl nofun fun _ => ⟨ready.1, by rw [ready.2]; nofun⟩
  | report hf hp _ sent | halt hf hp _ sent =>
    rw [sendRecord_frame sent]
    exact h.of_unchanged rfl rfl nofun fun _ => ⟨hf, by rw [hp]; nofun⟩

theorem TurnEffect.keeps_line (e : TurnEffect s a t) (h : LineInv s) : LineInv t := by
  cases e with
  | hold | push | drain | disarm | shift => exact { h with }
  | command _ effect => exact effect.keeps_line h
  | reject => exact h.of_unchanged rfl rfl nofun nofun
  | drainUnwritten | shiftUnwritten => exact { h with terminated := nofun }

/-! ## The transmitter -/

theorem TransmitInv.spendTurn (h : TransmitInv s) : TransmitInv s.spendTurn := by
  unfold State.spendTurn
  split <;> exact { h with }

theorem startTransmission_written {pkt : Memory} {record : List Byte} (hrecord : pkt.readSpan 0 pktSize = some record) :
    (startTransmission pkt record s).txbuf.written 0 pktSize = true := by
  rw [← Memory.readSpan_length hrecord]
  exact Option.isSome_of_eq_some (Memory.readSpan_writeBytes s.txbuf 0 record)

/-- A started transmission meets the transmitter's invariant, whatever stood there before (R242). -/
theorem TransmitInv.of_sendRecord (sent : sendRecord s = .ok u) : TransmitInv u := by
  obtain ⟨-, pkt, record, -, hrecord, rfl⟩ := sendRecord_ok sent
  have full := startTransmission_written (s := s) hrecord
  exact
    { enable := rfl
      index := show (1#8 : Byte).toNat ≤ pktSize by decide
      idleIndex := nofun
      idleEmpty := nofun
      lastWrite := fun _ _ => show (1#8 : Byte).toNat < pktSize by decide
      data := fun _ => Memory.written_iff.mp full 0 (by decide)
      started := fun _ => ⟨show 1 ≤ (1#8 : Byte).toNat by decide, full⟩ }

theorem Effect.keeps_transmit (e : Effect s i t) (h : TransmitInv s) : TransmitInv t := by
  cases e with
  | hold | fault | checksum | store | noMatch | field | popSee | popTake | lineSee | lineCopy | lineEnd | build =>
    exact { h with }
  | send _ _ sent | report _ _ _ sent | halt _ _ _ sent => exact { TransmitInv.of_sendRecord sent with }

theorem txidx_succ_toNat (h : s.txidx.toNat < pktSize) : (s.txidx + 1#8).toNat = s.txidx.toNat + 1 := by
  unfold pktSize at h
  bv_omega

/-- TX_DRAIN's write clears only under OnLastWrite, at the last byte (R246). -/
theorem clearsOnWrite_iff :
    clearsOnWrite s = true ↔ s.params.txClear = .onLastWrite ∧ s.txidx.toNat + 1 = pktSize := by
  simp [clearsOnWrite]

theorem TransmitInv.drain (h : TransmitInv s) {b : Byte} (hidx : s.txidx.toNat < pktSize) (busy : s.txbusy = true) :
    TransmitInv
      { s with
        txdr := some b
        txe := false
        txidx := s.txidx + 1#8
        txbusy := s.txbusy && !clearsOnWrite s
        txie := s.txie && !clearsOnWrite s } where
  enable := by simp only [h.enable]
  index := by simp only [txidx_succ_toNat hidx]; omega
  idleIndex idle := by
    have cleared : clearsOnWrite s = true := by simpa [busy] using idle
    obtain ⟨-, last⟩ := clearsOnWrite_iff.mp cleared
    unfold pktSize at last
    exact .inr (by simp only; bv_omega)
  idleEmpty policy idle := by
    have cleared : clearsOnWrite s = true := by simpa [busy] using idle
    exact absurd (policy.symm.trans (clearsOnWrite_iff.mp cleared).1) nofun
  lastWrite policy stillBusy := by
    have kept : clearsOnWrite s ≠ true := by simpa [busy] using stillBusy
    have notLast : s.txidx.toNat + 1 ≠ pktSize := fun last => kept (clearsOnWrite_iff.mpr ⟨policy, last⟩)
    simp only [txidx_succ_toNat hidx]
    omega
  data _ := ⟨b, rfl⟩
  started _ := ⟨by simp only [txidx_succ_toNat hidx]; omega, (h.started (.inl busy)).2⟩

theorem TransmitInv.disarm (h : TransmitInv s) (hidx : pktSize ≤ s.txidx.toNat) (empty : s.txe = true) :
    TransmitInv { s with txbusy := false, txie := false } where
  enable := rfl
  index := h.index
  idleIndex _ := .inr (BitVec.eq_of_toNat_eq (Nat.le_antisymm h.index hidx))
  idleEmpty _ _ := empty
  lastWrite _ := nofun
  data := h.data
  started := by
    rintro (busy | full)
    · cases busy
    · exact h.started (.inr full)

theorem TurnEffect.keeps_transmit (e : TurnEffect s a t) (h : TransmitInv s) : TransmitInv t := by
  cases e with
  | hold | reject | push | drainUnwritten | shiftUnwritten => exact { h with }
  | command _ effect => exact effect.keeps_transmit h
  | drain armed _ inside => exact h.drain inside (h.enable.symm.trans armed)
  | disarm empty atEnd => exact h.disarm atEnd empty
  | shift full => exact { h with idleEmpty := fun _ _ => rfl, data := nofun, started := fun _ => h.started (.inr full) }

/-! ## The control phase -/

theorem ControlInv.spendTurn (h : ControlInv s) : ControlInv s.spendTurn := by
  unfold State.spendTurn
  split <;> exact { h with }

/-- Between commands, and after a fault, only the range of `CIX` is claimed. -/
theorem ControlInv.of_between (hp : t.cph = .ready ∨ t.cph = .faulted) (inRange : t.cix ≤ t.cmd.length) :
    ControlInv t := by
  rcases hp with hp | hp <;>
    exact ⟨inRange, by rw [hp]; nofun, by rw [hp]; nofun, by rw [hp]; nofun, by rw [hp]; nofun⟩

theorem Effect.keeps_control {rest : List Byte} (e : Effect s i t) (hi : fetch s = some (.command i rest))
    (h : ControlInv s) : ControlInv t := by
  have hlen := fetch_length_le hi
  cases e with
  | hold => exact h
  | fault => exact .of_between (.inr rfl) h.inRange
  | checksum | store | noMatch | field | popTake | lineEnd => exact .of_between (.inl rfl) hlen
  | popSee => exact ⟨h.inRange, fun _ => ⟨rest, hi⟩, nofun, nofun, nofun⟩
  | lineSee | lineCopy => exact ⟨h.inRange, nofun, fun _ _ _ => ⟨rest, hi⟩, nofun, nofun⟩
  | build =>
    exact ⟨h.inRange, nofun, nofun, fun fatal hp => ⟨_, _, rest, hi, by cases hp; rfl⟩, nofun⟩
  | send _ _ sent | report _ _ _ sent =>
    rw [sendRecord_frame sent]
    exact .of_between (.inl rfl) hlen
  | halt _ hp _ sent =>
    obtain ⟨code, pay, rest', hi', fatal⟩ := h.sendPhase _ hp
    rw [sendRecord_frame sent]
    exact ⟨h.inRange, nofun, nofun, nofun, fun _ => ⟨code, pay, rest', hi', fatal.symm⟩⟩

theorem TurnEffect.keeps_control (e : TurnEffect s a t) (h : ControlInv s) : ControlInv t := by
  cases e with
  | hold | push | drain | disarm | drainUnwritten | shift | shiftUnwritten => exact { h with }
  | command fetched effect => exact effect.keeps_control fetched h
  | reject => exact .of_between (.inr rfl) h.inRange

/-! ## The fault record -/

theorem FaultInv.spendTurn (h : FaultInv s) : FaultInv s.spendTurn := by
  unfold State.spendTurn
  split <;> exact { h with }

theorem FaultCause.code_range (c : FaultCause) : 0x01 ≤ c.code.toNat ∧ c.code.toNat ≤ 0x08 := by
  cases c <;> decide

theorem FaultCause.code_eq_txOverrun {c : FaultCause} : c.code = 0x07#8 ↔ c = .txOverrun := by
  cases c <;> decide

/-- R300: a control step's fault is recorded whole. -/
theorem FaultInv.raised {c : FaultCause} (overrun : c = .txOverrun → s.params.txClear = .onLastWrite) :
    FaultInv (s.raised c) where
  phase := ⟨fun _ => rfl, fun _ => rfl⟩
  clear := nofun
  code _ := c.code_range
  overrun hc := overrun (FaultCause.code_eq_txOverrun.mp hc)

theorem FaultInv.of_unfaulted (h : FaultInv s) (hf : s.fault = false) (fault : t.fault = s.fault)
    (fcode : t.fcode = s.fcode) (hp : t.cph ≠ .faulted) : FaultInv t := by
  have zero : t.fcode = 0x00#8 := fcode.trans (h.clear hf)
  have clear : t.fault = false := fault.trans hf
  exact
    { phase := by simp [clear, hp]
      clear := fun _ => zero
      code := by simp [clear]
      overrun := by simp [zero] }

/-- R243: with nothing in flight `TXE = 0` only under OnLastWrite. -/
theorem TransmitInv.lastWrite_of_full (h : TransmitInv s) (idle : s.txbusy = false) (full : s.txe = false) :
    s.params.txClear = .onLastWrite := by
  cases policy : s.params.txClear with
  | onLastWrite => rfl
  | onEmpty =>
    have empty := h.idleEmpty policy idle
    simp [full] at empty

theorem Effect.keeps_fault (e : Effect s i t) (h : FaultInv s) (htx : TransmitInv s) : FaultInv t := by
  cases e with
  | hold => exact h
  | fault _ overrun => exact .raised fun hc => (htx.lastWrite_of_full (overrun hc).1 (overrun hc).2)
  | checksum _ ready | store _ ready | noMatch ready | field ready | popSee ready | build ready =>
    exact h.of_unfaulted ready.1 rfl rfl nofun
  | popTake hf | lineSee hf | lineCopy hf | lineEnd hf => exact h.of_unfaulted hf rfl rfl nofun
  | send ready _ sent =>
    rw [sendRecord_frame sent]
    exact h.of_unfaulted ready.1 rfl rfl nofun
  | report hf _ _ sent | halt hf _ _ sent =>
    rw [sendRecord_frame sent]
    exact h.of_unfaulted hf rfl rfl nofun

theorem decodeCause_ne_txOverrun (e : DecodeError) : decodeCause e ≠ .txOverrun := by
  cases e <;> decide

/-- An armed transmitter has a record in `TXBUF`, so TX_DRAIN reads no unwritten byte (R245). -/
theorem TransmitInv.read_of_armed (h : TransmitInv s) (armed : s.txie = true) (inside : s.txidx.toNat < pktSize) :
    s.txbuf.read s.txidx.toNat ≠ none := by
  obtain ⟨-, written⟩ := h.started (.inl (h.enable.symm.trans armed))
  obtain ⟨b, hb⟩ := Memory.written_iff.mp written _ inside
  rw [Nat.zero_add] at hb
  simp [hb]

theorem TurnEffect.keeps_fault (e : TurnEffect s a t) (h : FaultInv s) (htx : TransmitInv s) : FaultInv t := by
  cases e with
  | hold | push | drain | disarm | shift => exact { h with }
  | command _ effect => exact effect.keeps_fault h htx
  | reject => exact .raised fun hc => absurd hc (decodeCause_ne_txOverrun _)
  | drainUnwritten armed inside unwritten => exact absurd unwritten (htx.read_of_armed armed inside)
  | shiftUnwritten full unwritten =>
    obtain ⟨b, hb⟩ := htx.data full
    exact absurd (unwritten.symm.trans hb) nofun

/-! ## The whole invariant -/

theorem Inv.spendTurn (h : Inv s) : Inv s.spendTurn :=
  ⟨h.memories.spendTurn, h.ring.spendTurn, h.line.spendTurn, h.transmit.spendTurn, h.control.spendTurn,
    h.fault.spendTurn⟩

theorem TurnEffect.keeps_inv (e : TurnEffect s a t) (h : Inv s) : Inv t :=
  ⟨e.keeps_memories h.memories, e.keeps_ring h.ring, e.keeps_line h.line, e.keeps_transmit h.transmit,
    e.keeps_control h.control, e.keeps_fault h.fault h.transmit⟩

/-- Settles O57: each part of the invariant is kept by every effect of a turn; the fault record needs the transmitter's
part for TxOverrun and for the reads of TX_DRAIN and TX_SHIFT. -/
theorem stepKeepsInv : Obligations.StepKeepsInv := by
  intro s t h hs
  obtain ⟨-, ht⟩ := step_cases hs
  exact (turnEffect_of_turn ht).keeps_inv h.spendTurn

end Sys2Proof.Machine
end

section
/-! The statements about which step writes which element of the state (10_state.md). -/

namespace Sys2Proof.Machine

/-- Settles O51: a step that moves `CIX` completes the command there, and the decoder reads no command past the end of
`CMD`. -/
theorem cixAdvancesByCommandLength : Obligations.CixAdvancesByCommandLength := by
  intro s t h moved
  obtain ⟨-, ht⟩ := step_cases h
  rcases (turnEffect_of_turn ht).cix_eq_or_completed with hc | ⟨ha, hp, i, rest, fetched, hc⟩
  · exact absurd (hc.trans s.spendTurn_cix) moved
  · rw [fetch_spendTurn] at fetched
    rw [State.spendTurn_cix] at hc
    exact ⟨ha, hp, i, rest, fetched, hc, hc ▸ fetch_length_le fetched⟩

/-- Settles O49, by the effects of a turn: each shows the elements it writes. -/
theorem onlyItsWritersWrite : Obligations.OnlyItsWritersWrite := by
  intro s t h
  obtain ⟨⟨-, hf⟩, ht⟩ := step_cases h
  generalize s.chosen = a at ht ⊢
  cases turnEffect_of_turn ht with
  | hold | push | drain | disarm | shift => simp
  | reject | drainUnwritten | shiftUnwritten => simp [hf]
  | command fetched effect =>
    rw [fetch_spendTurn] at fetched
    cases effect with
    | hold | popSee | lineSee => simp
    | fault => simp [hf]
    | checksum hi => simpa [fetched, IsCrcCommand] using fun _ => hi
    | store hi => rcases hi with rfl | ⟨off, val, rfl⟩ <;> simp [fetched]
    | noMatch | field | popTake | lineCopy | lineEnd | build => simp [fetched]
    | send _ _ sent =>
      rw [sendRecord_frame sent]
      simp [fetched]
    | report _ hp _ sent | halt _ hp _ sent =>
      rw [State.spendTurn_cph] at hp
      rw [sendRecord_frame sent]
      simp [fetched, hp]

/-- Settles O50: the flags by the effects of a turn; with `FAULT = 1` every turn and every command is a hold. -/
theorem flagsChangeByTheirSteps : Obligations.FlagsChangeByTheirSteps := by
  refine ⟨fun s t h => ?_, fun s a hf => ⟨s, turn_of_fault a hf, hf, rfl⟩,
    fun s i hf => ⟨s, exec_of_fault i hf, hf, rfl⟩⟩
  obtain ⟨-, ht⟩ := step_cases h
  generalize s.chosen = a at ht ⊢
  cases turnEffect_of_turn ht with
  | hold | reject | push | drain | disarm | drainUnwritten | shift | shiftUnwritten => simp +contextual
  | command fetched effect =>
    rw [fetch_spendTurn] at fetched
    cases effect with
    | hold | fault | checksum | store | popSee | popTake | lineSee | lineCopy | lineEnd | build => simp +contextual
    | noMatch | field => simp +contextual [fetched]
    | send _ idle sent | report _ _ idle sent | halt _ _ idle sent =>
      rw [State.spendTurn_txbusy] at idle
      rw [sendRecord_frame sent]
      simp [fetched, idle]

end Sys2Proof.Machine
end

section
/-! The state a launch starts from: the reset values (R56, R51) and the invariants (R53, R54, R330, R332). -/

namespace Sys2Proof.Machine

/-! ## The launched record -/

theorem pktInit_length {p : Params} {image : List Byte} (h : launchRefusal p = none) (hi : p.pktInit = some image) :
    image.length = pktSize := by
  unfold launchRefusal at h
  split at h
  · cases h
  · split at h
    · cases h
    · split at h
      · cases h
      · simpa [pktInitBad, hi] using h

theorem read_initialPkt {image : List Byte} (h : image.length = pktSize) (a : Nat) :
    (initialPkt (some image)).read a = image[a]? := by
  rw [initialPkt, List.take_of_length_le h.le, Memory.read_writeBytes]
  split
  · rfl
  · rw [List.getElem?_eq_none (by omega)]
    rfl

theorem initialPkt_wf (init : Option (List Byte)) : (initialPkt init).wf pktSize = true := by
  cases init with
  | none => rfl
  | some image => exact Memory.wf_writeBytes (by simp) (Memory.wf_nil _)

theorem launch_cases {p : Params} {cmd inp : List Byte} {s : State} (h : launch p cmd inp = .next s) :
    launchRefusal p = none ∧ s = State.launched p cmd inp := by
  unfold launch at h
  split at h <;> cases h
  exact ⟨‹_›, rfl⟩

/-- Settles O10: the launched state is `State.reset` but for what the launch gives. -/
theorem launchStartsFromResetValues : Obligations.LaunchStartsFromResetValues := by
  intro p cmd inp s h
  obtain ⟨accepted, rfl⟩ := launch_cases h
  have unwritten : p.pktInit = none → ∀ a, (initialPkt p.pktInit).read a = none := by
    intro hi a
    rw [hi]
    rfl
  have written : ∀ image, p.pktInit = some image → ∀ a, (initialPkt p.pktInit).read a = image[a]? := by
    intro image hi
    rw [hi]
    exact read_initialPkt (pktInit_length accepted hi)
  exact ⟨rfl, rfl, rfl, rfl, rfl, rfl, fun _ => rfl, rfl, rfl, fun _ => rfl, rfl, rfl, unwritten, written, rfl, rfl,
    fun _ => rfl, rfl, rfl, rfl, rfl, rfl, rfl, rfl, rfl⟩

/-! ## `STATUS` -/

/-- Seven flags packed from bit 0 on, with bit 7 clear. -/
theorem packedFlags_getLsbD (b0 b1 b2 b3 b4 b5 b6 : Bool) :
    let v : Byte := BitVec.ofNat 8
      (b0.toNat + 2 * b1.toNat + 4 * b2.toNat + 8 * b3.toNat + 16 * b4.toNat + 32 * b5.toNat + 64 * b6.toNat)
    v.getLsbD 0 = b0 ∧ v.getLsbD 1 = b1 ∧ v.getLsbD 2 = b2 ∧ v.getLsbD 3 = b3 ∧ v.getLsbD 4 = b4 ∧
      v.getLsbD 5 = b5 ∧ v.getLsbD 6 = b6 ∧ v.getLsbD 7 = false := by
  revert b0 b1 b2 b3 b4 b5 b6
  decide

/-- Settles O11: `STATUS` packs its flags, and its reset value is computed. -/
theorem statusLayout : Obligations.StatusLayout := by
  refine ⟨fun s => ?_, by decide⟩
  exact packedFlags_getLsbD s.txbusy s.txie s.txe s.ringEmpty (decide (s.cph = .halted)) s.fault s.matched

/-! ## The invariants -/

section

variable (p : Params) (cmd inp : List Byte) (plan : List Agent) (tick : Nat)

/-- Nothing is unread, copied, sent or faulted in a launched state. -/
theorem launched_inv : Inv { State.launched p cmd inp with plan := plan, tick := tick } where
  memories := ⟨rfl, rfl, initialPkt_wf p.pktInit, rfl⟩
  ring := ⟨fun k h => absurd (show k < (0#8 - 0#8 : Byte).toNat from h) (Nat.not_lt_zero k)⟩
  line := ⟨Nat.zero_le _, fun i h => absurd h (Nat.not_lt_zero i), fun _ _ h => absurd h (Nat.lt_irrefl 0), nofun⟩
  transmit := ⟨rfl, Nat.zero_le _, fun _ => .inl rfl, fun _ _ => rfl, nofun, nofun, by rintro (h | h) <;> cases h⟩
  control := ⟨Nat.zero_le _, nofun, nofun, nofun, nofun⟩
  fault := ⟨⟨nofun, nofun⟩, fun _ => rfl, nofun, nofun⟩

theorem launched_wireInv : WireInv { State.launched p cmd inp with plan := plan, tick := tick } where
  buffer := by rintro (h | h) <;> cases h
  data := nofun
  wire := ⟨[], [], rfl, nofun, rfl, nofun⟩

end

/-- Settles O55: the launched state meets both invariants, whatever its `CMD`, `IN`, parameters and schedule. -/
theorem invariantsHoldAtLaunch : Obligations.InvariantsHoldAtLaunch := by
  rintro s ⟨p, cmd, inp, plan, tick, -, rfl⟩
  exact ⟨launched_inv p cmd inp plan tick, launched_wireInv p cmd inp plan tick⟩

end Sys2Proof.Machine
end

section
/-! The records on the wire (R80, R241, R242, R248): a stamped record is valid, and every step keeps `WIRE_OUT` a
sequence of whole records followed by the sent part of the one in `TXBUF`. -/

namespace Sys2Proof.Machine

variable {s t u : State} {i : Instr} {a : Agent}

/-! ## The stamped record -/

/-- A span's part is the span of its offsets. -/
theorem Memory.readSpan_part {m : Memory} {off cnt k n : Nat} {bs : List Byte} (h : m.readSpan off cnt = some bs)
    (inside : k + n ≤ cnt) : m.readSpan (off + k) n = some ((bs.drop k).take n) := by
  obtain ⟨length, bytes⟩ := Memory.readSpan_eq_some.mp h
  refine Memory.readSpan_eq_some.mpr ⟨by simp only [List.length_take, List.length_drop]; omega, fun j hj => ?_⟩
  rw [Nat.add_assoc, bytes (k + j) (by omega), List.getElem?_take_of_lt hj, List.getElem?_drop]

theorem Memory.readSpan_congr {m m' : Memory} {off cnt : Nat}
    (h : ∀ k, k < cnt → m.read (off + k) = m'.read (off + k)) : m.readSpan off cnt = m'.readSpan off cnt := by
  refine Option.ext fun bs => ?_
  rw [Memory.readSpan_eq_some, Memory.readSpan_eq_some]
  exact and_congr_right fun _ => forall₂_congr fun k hk => by rw [h k hk]

theorem read_zeroChecksum (m : Memory) (a : Nat) :
    (zeroChecksum m).read a = if a = 56 ∨ a = 57 then some 0x00#8 else m.read a := by
  have zeros : leBytes 2 0 = [0x00#8, 0x00#8] := rfl
  simp only [zeroChecksum, Memory.writeLe, zeros, Memory.writeBytes, Memory.read_write, checksumOffset]
  grind

theorem getElem?_zeroedRecord {r : List Byte} (h : r.length = 60) (k : Nat) :
    (zeroedRecord r)[k]? = if k = 56 ∨ k = 57 then some 0x00#8 else r[k]? := by
  have front : (r.take 56).length = 56 := by simp [h]
  rw [zeroedRecord, List.append_assoc]
  by_cases before : k < 56
  · rw [if_neg (by omega), List.getElem?_append_left (by omega), List.getElem?_take_of_lt before]
  · rw [List.getElem?_append_right (by omega), front]
    obtain ⟨j, rfl⟩ := Nat.exists_eq_add_of_le (Nat.le_of_not_lt before)
    rw [Nat.add_sub_cancel_left]
    match j with
    | 0 | 1 => rfl
    | j + 2 =>
      rw [if_neg (by omega)]
      change (r.drop 58)[j]? = _
      rw [List.getElem?_drop]
      congr 1
      omega

/-- Zeroing the checksum in the memory is zeroing it in the record (R113, R241). -/
theorem readSpan_zeroChecksum {m : Memory} {r : List Byte} (h : m.readSpan 0 pktSize = some r) :
    (zeroChecksum m).readSpan 0 pktSize = some (zeroedRecord r) := by
  obtain ⟨length, bytes⟩ := Memory.readSpan_eq_some.mp h
  unfold pktSize at length
  refine Memory.readSpan_eq_some.mpr ⟨by simp [zeroedRecord, length, pktSize], fun k hk => ?_⟩
  rw [read_zeroChecksum, bytes k hk, Nat.zero_add, getElem?_zeroedRecord length]

theorem stamped_recordOk {m m' : Memory} {r : List Byte} (h : stamped m = some m')
    (hr : m'.readSpan 0 pktSize = some r) : RecordOk r := by
  unfold stamped at h
  split at h
  · cases h
  next bytes hbytes =>
    cases h
    have zeroed : zeroedRecord r = bytes := by
      have same : (zeroChecksum m).readSpan 0 pktSize = some (zeroedRecord r) := by
        rw [← readSpan_zeroChecksum hr]
        refine Memory.readSpan_congr fun k _ => ?_
        rw [read_zeroChecksum, read_zeroChecksum]
        split
        · rfl
        · rw [Memory.read_writeLe_other]
          unfold checksumOffset
          omega
      exact Option.some.inj (same.symm.trans hbytes)
    refine ⟨Memory.readSpan_length hr, ?_⟩
    have part : (m.writeLe checksumOffset 2 (crc16 crcSeed0 bytes).toNat).readSpan checksumOffset 2 =
        some ((r.drop 56).take 2) :=
      Memory.readSpan_part (off := 0) (k := 56) hr (by decide)
    have field := Memory.readLe_writeLe m checksumOffset 2 (crc16 crcSeed0 bytes).toNat
    rw [Memory.readLe, part] at field
    rw [zeroed]
    exact ((Option.some.inj field).trans (Nat.mod_eq_of_lt (crc16 crcSeed0 bytes).isLt)).symm

/-! ## The wire -/

theorem WireInv.spendTurn (h : WireInv s) : WireInv s.spendTurn := by
  unfold State.spendTurn
  split <;> exact { h with }

theorem State.sent_of_full (full : s.txe = false) : s.sent = s.txidx.toNat - 1 := by
  simp [State.sent, full]

theorem State.sent_of_empty (empty : s.txe = true) : s.sent = s.txidx.toNat := by
  simp [State.sent, empty]

/-- With no transmission in flight, none of the record in `TXBUF` is sent apart from whole records (R53). -/
theorem TransmitInv.sent_of_idle (h : TransmitInv s) (idle : s.txbusy = false) (empty : s.txe = true) :
    s.sent % pktSize = 0 := by
  rw [State.sent_of_empty empty]
  rcases h.idleIndex idle with hidx | hidx <;> rw [hidx] <;> rfl

/-- A new transmission begins a new record on the wire (R242). -/
theorem WireInv.of_sendRecord (h : WireInv s) (htx : TransmitInv s) (idle : s.txbusy = false)
    (sent : sendRecord s = .ok u) : WireInv u := by
  obtain ⟨empty, pkt, record, stamp, hrecord, rfl⟩ := sendRecord_ok sent
  obtain ⟨records, part, hwire, hrecords, hpart, -⟩ := h.wire
  rw [htx.sent_of_idle idle empty, List.length_eq_zero_iff] at hpart
  have copied := Memory.readSpan_writeBytes s.txbuf 0 record
  rw [Memory.readSpan_length hrecord] at copied
  exact
    { buffer := fun _ => ⟨record, copied, stamped_recordOk stamp hrecord⟩
      data := fun _ => rfl
      wire := ⟨records, [], hpart ▸ hwire, hrecords, rfl, nofun⟩ }

theorem Effect.keeps_wire (e : Effect s i t) (h : WireInv s) (htx : TransmitInv s) : WireInv t := by
  cases e with
  | hold | fault | checksum | store | noMatch | field | popSee | popTake | lineSee | lineCopy | lineEnd | build =>
    exact { h with }
  | send _ idle sent | report _ _ idle sent | halt _ _ idle sent => exact { h.of_sendRecord htx idle sent with }

/-- TX_DRAIN refills `TXDR`, and sends nothing (R245). -/
theorem WireInv.txDrain (h : WireInv s) (busy : s.txbusy = true) (empty : s.txe = true) : WireInv (txDrain s) := by
  rcases txDrain_cases s with ⟨-, -, ht⟩ | ⟨b, inside, hb, ht⟩ | ⟨-, ht⟩ <;> rw [ht]
  · exact { h with }
  · have hidx := txidx_succ_toNat inside
    obtain ⟨records, part, hwire, hrecords, hpart, hbytes⟩ := h.wire
    rw [State.sent_of_empty empty] at hpart
    exact
      { buffer := fun _ => h.buffer (.inl busy)
        data := fun _ => by simpa [hidx] using hb.symm
        wire := ⟨records, part, hwire, hrecords, by simpa [State.sent_of_full, hidx] using hpart, hbytes⟩ }
  · exact
      { buffer := by
          rintro (busy' | full)
          · cases busy'
          · exact h.buffer (.inr full)
        data := h.data
        wire := h.wire }

/-- The byte in `TXDR` continues the sent part of the record in `TXBUF` (R247). -/
theorem WireInv.sentPart_append (h : WireInv s) (htx : TransmitInv s) (full : s.txe = false) {b : Byte}
    (hb : s.txdr = some b) :
    ∃ records part, s.wireOut ++ [b] = List.flatten records ++ part ∧ (∀ r ∈ records, RecordOk r) ∧
      part.length = s.txidx.toNat ∧ ∀ k, k < part.length → part[k]? = s.txbuf.read k := by
  obtain ⟨records, part, hwire, hrecords, hpart, hbytes⟩ := h.wire
  have started := (htx.started (.inr full)).1
  have index := htx.index
  rw [State.sent_of_full full] at hpart
  unfold pktSize at index hpart
  have length : (part ++ [b]).length = s.txidx.toNat := by
    rw [List.length_append, List.length_singleton]
    omega
  refine ⟨records, part ++ [b], by rw [hwire, List.append_assoc], hrecords, length, fun k hk => ?_⟩
  rw [List.length_append, List.length_singleton] at length hk
  by_cases inPart : k < part.length
  · rw [List.getElem?_append_left inPart, hbytes k inPart]
  · obtain rfl : k = part.length := by omega
    rw [List.getElem?_concat_length, ← hb, h.data full, ← length, Nat.add_sub_cancel]

/-- TX_SHIFT sends the byte in `TXDR`; the 60th completes the record (R247, R248). -/
theorem WireInv.txShift (h : WireInv s) (htx : TransmitInv s) (full : s.txe = false) : WireInv (txShift s) := by
  rcases txShift_cases s with ⟨-, ht⟩ | ⟨b, hb, ht⟩ <;> rw [ht]
  · exact { h with }
  obtain ⟨records, part, hwire, hrecords, length, bytes⟩ := h.sentPart_append htx full hb
  refine ⟨fun _ => h.buffer (.inr full), nofun, ?_⟩
  rw [State.sent_of_empty rfl]
  by_cases last : s.txidx.toNat = pktSize
  · obtain ⟨r, hr, ok⟩ := h.buffer (.inr full)
    have whole : s.txbuf.readSpan 0 pktSize = some part :=
      Memory.readSpan_eq_some.mpr ⟨length.trans last, fun k hk => by rw [Nat.zero_add, bytes k (by omega)]⟩
    obtain rfl : r = part := Option.some.inj (hr.symm.trans whole)
    refine ⟨records ++ [r], [], by simpa using hwire, fun q hq => ?_, by simp [last], nofun⟩
    rcases List.mem_append.mp hq with hq | hq
    · exact hrecords q hq
    · rw [List.mem_singleton.mp hq]
      exact ok
  · have inside : s.txidx.toNat < pktSize := lt_of_le_of_ne htx.index last
    exact ⟨records, part, hwire, hrecords, length.trans (Nat.mod_eq_of_lt inside).symm, bytes⟩

/-! ## The turns -/

theorem turn_keeps_wire (ht : turn a s = .next t) (h : WireInv s) (htx : TransmitInv s) : WireInv t := by
  rcases turn_cases ht with rfl | ⟨-, -, i, rest, -, he⟩ | ⟨-, -, -, e, -, rfl⟩ | ⟨-, -, b, rest, -, rfl⟩ |
    ⟨-, -, armed, empty, rfl⟩ | ⟨-, -, full, rfl⟩
  · exact h
  · exact (effect_of_exec he).keeps_wire h htx
  · exact { h with }
  · exact { h with }
  · exact h.txDrain (htx.enable.symm.trans armed) empty
  · exact h.txShift htx full

/-- Settles O58: a sent record begins a new record on the wire, TX_SHIFT extends it, and nothing else touches the
wire. -/
theorem stepKeepsWireRecords : Obligations.StepKeepsWireRecords := by
  intro s t inv h hs
  obtain ⟨-, ht⟩ := step_cases hs
  exact turn_keeps_wire ht h.spendTurn inv.transmit.spendTurn

end Sys2Proof.Machine
end

section
/-! POP's take step on the ring as a queue (R80, R162), and the invariants that every step keeps from themselves alone
(R53, R54, R70). -/

namespace Sys2Proof.Machine

variable {s t : State}

/-! ## The oldest unread byte -/

/-- Past the oldest unread byte stand the others, in their order (R36). -/
theorem State.unread_of_advance {b : Byte} {others : List (Option Byte)} (h : s.unread = some b :: others)
    (hring : t.ring = s.ring) (hwidx : t.widx = s.widx) (hridx : t.ridx = s.ridx + 1#8) :
    s.ringHead = some b ∧ t.unread = others := by
  have shift : ∀ k, t.ringByte k = s.ringByte (k + 1) := by
    intro k
    have next : s.ridx + 1#8 + BitVec.ofNat 8 k = s.ridx + BitVec.ofNat 8 (k + 1) := by bv_omega
    rw [State.ringByte, State.ringByte, hring, hridx, next]
  obtain ⟨n, count⟩ : ∃ n, s.unreadCount = n + 1 := by
    cases hn : s.unreadCount with
    | zero => simp [State.unread, hn] at h
    | succ n => exact ⟨n, rfl⟩
  have count' : t.unreadCount = n := by
    unfold State.unreadCount at count ⊢
    rw [hwidx, hridx]
    bv_omega
  rw [State.unread, count, List.range_succ_eq_map, List.map_cons, List.map_map] at h
  obtain ⟨head, tail⟩ := List.cons.inj h
  refine ⟨by simpa [State.ringHead, State.ringByte] using head, ?_⟩
  rw [State.unread, count', ← tail]
  exact List.map_congr_left fun k _ => shift k

/-- POP's take step (R162). -/
theorem execPop_of_head {b : Byte} (hf : s.fault = false) (hp : s.cph = .popSeen) (head : s.ringHead = some b) :
    exec .pop s = .next (({ s with rxb := some b, ridx := s.ridx + 1#8 } : State).completed 1) := by
  simp [exec, execPop, hf, hp, popTake, head, complete]

/-- Settles O21: the oldest unread byte is the one at `RIDX`, which the take step gives to `RXB`. -/
theorem popTakesOldestUnread : Obligations.PopTakesOldestUnread := by
  intro s b others hf hp unread
  obtain ⟨head, rest⟩ := State.unread_of_advance
    (t := ({ s with rxb := some b, ridx := s.ridx + 1#8 } : State).completed 1) unread rfl rfl rfl
  exact ⟨_, execPop_of_head hf hp head, rfl, rest, rfl, rfl⟩

/-! ## Three invariants kept by every step -/

/-- Settles O56: each of the three is kept by every effect of a turn, whatever holds of the others. -/
theorem stepKeepsMemoriesTransmitterAndLine : Obligations.StepKeepsMemoriesTransmitterAndLine := by
  intro s t hs
  obtain ⟨-, ht⟩ := step_cases hs
  have effect := turnEffect_of_turn ht
  exact ⟨fun h => effect.keeps_memories h.spendTurn, fun h => effect.keeps_transmit h.spendTurn,
    fun h => effect.keeps_line h.spendTurn⟩

end Sys2Proof.Machine
end

section
/-! The encoding (30_encoding.md): decoder and encoder are inverse to each other, which bytes are rejected and by which
name (R100 to R110), and the control agent's turn on the bytes at `CIX` (R290, R300). -/

namespace Sys2Proof

/-! ## Little-endian operands (R73, R108) -/

theorem leValue_lt (bs : List Byte) : leValue bs < 256 ^ bs.length := by
  induction bs with
  | nil => exact Nat.one_pos
  | cons b bs ih =>
    have hb : b.toNat < 256 := b.isLt
    simp only [leValue, List.length_cons, Nat.pow_succ']
    omega

theorem leBytes_leValue (bs : List Byte) : leBytes bs.length (leValue bs) = bs := by
  induction bs with
  | nil => rfl
  | cons b bs ih =>
    have hb : b.toNat < 256 := b.isLt
    have low : BitVec.ofNat 8 (b.toNat + 256 * leValue bs) = b := by bv_omega
    have high : (b.toNat + 256 * leValue bs) / 256 = leValue bs := by omega
    simp only [leValue, List.length_cons, leBytes, low, high, ih]

/-- A word of `n` bytes is the value of its bytes. -/
theorem ofNat_leValue_leBytes (n : Nat) (v : BitVec (8 * n)) :
    BitVec.ofNat (8 * n) (leValue (leBytes n v.toNat)) = v := by
  have range : v.toNat < 256 ^ n := Nat.pow_mul 2 8 n ▸ v.isLt
  rw [Machine.leValue_leBytes, Nat.mod_eq_of_lt range, BitVec.ofNat_toNat, BitVec.setWidth_eq]

/-- `n` bytes are the bytes of their value as a word. -/
theorem leBytes_ofNat_leValue {n : Nat} {bs : List Byte} (h : bs.length = n) :
    leBytes n (BitVec.ofNat (8 * n) (leValue bs)).toNat = bs := by
  subst h
  have range : leValue bs < 2 ^ (8 * bs.length) := Nat.pow_mul 2 8 bs.length ▸ leValue_lt bs
  rw [BitVec.toNat_ofNat, Nat.mod_eq_of_lt range, leBytes_leValue]

/-! ## The opcode map (R101, R109) -/

theorem Opcode.ofByte_byte (o : Opcode) : Opcode.ofByte o.byte = some o := by
  cases o <;> rfl

theorem Opcode.ofByte_eq_some_iff {b : Byte} {o : Opcode} : Opcode.ofByte b = some o ↔ b = o.byte := by
  constructor
  · intro h
    have found := List.find?_some h
    exact (beq_iff_eq.mp found).symm
  · rintro rfl
    exact o.ofByte_byte

/-- The illegal opcode bytes are the gaps of the map. -/
theorem Opcode.ofByte_eq_none_iff {b : Byte} :
    Opcode.ofByte b = none ↔
      b.toNat = 0x00 ∨ (0x04 ≤ b.toNat ∧ b.toNat ≤ 0x0F) ∨ (0x12 ≤ b.toNat ∧ b.toNat ≤ 0x1F) ∨
        (0x24 ≤ b.toNat ∧ b.toNat ≤ 0x2F) ∨ 0x31 ≤ b.toNat := by
  have none_iff : Opcode.ofByte b = none ↔ ∀ o ∈ Opcode.all, o.byte ≠ b := by
    simp [Opcode.ofByte]
  rw [none_iff]
  simp only [Opcode.all, List.mem_cons, List.not_mem_nil, or_false, Opcode.byte, ne_eq, ← BitVec.toNat_inj,
    forall_eq_or_imp, BitVec.toNat_ofNat, Nat.reducePow, Nat.one_mod, Nat.reduceMod, forall_eq]
  omega

/-! ## What the decoder reads -/

/-- The operand bytes that a command of this opcode needs; ERROR's length byte is among them (R101, R107). -/
def Opcode.operandLength (bytes : List Byte) : Opcode → Nat
  | .pop | .readLine | .pktReset | .parseLine | .send => 0
  | .crcByte => 1
  | .crcSet | .pktStore => 2
  | .crcSpan => 4
  | .error => 5 + (bytes.getD 4 0#8).toNat

theorem Opcode.operandLength_error (bytes : List Byte) :
    Opcode.error.operandLength bytes = 5 + (bytes.getD 4 0#8).toNat := rfl

/-- What the operand decoder can read from `bytes` after the opcode byte of `o`, with the conditions that tell the
cases apart. -/
inductive ReadsAs (o : Opcode) (bytes : List Byte) : Decoded → Prop where
  | truncated (short : bytes.length < o.operandLength bytes) : ReadsAs o bytes (.rejected .truncatedCommand)
  | reserved (complete : o.operandLength bytes ≤ bytes.length) (span : o = .crcSpan)
      (buf : 2 ≤ (bytes.getD 0 0#8).toNat) : ReadsAs o bytes (.rejected .reservedOperand)
  | command {i : Instr} {rest : List Byte} (complete : o.operandLength bytes ≤ bytes.length)
      (buf : o = .crcSpan → (bytes.getD 0 0#8).toNat < 2) (opcode : i.opcode = o) (wf : i.wf = true)
      (hbytes : bytes = i.operandBytes ++ rest) : ReadsAs o bytes (.command i rest)

theorem readsAs_crcSpan (buf off c0 c1 : Byte) (rest : List Byte) :
    ReadsAs .crcSpan (buf :: off :: c0 :: c1 :: rest) (decodeOperands .crcSpan (buf :: off :: c0 :: c1 :: rest)) := by
  have complete : Opcode.crcSpan.operandLength (buf :: off :: c0 :: c1 :: rest) ≤ rest.length + 4 :=
    Nat.le_add_left ..
  rw [decodeOperands]
  split
  next legal =>
    refine .command complete (fun _ => legal) rfl (decide_eq_true legal) ?_
    simp only [Instr.operandBytes]
    rw [leBytes_ofNat_leValue (n := 2) rfl]
    rfl
  next illegal => exact .reserved complete rfl (Nat.le_of_not_lt illegal)

theorem readsAs_error (c0 c1 c2 c3 n : Byte) (rest : List Byte) :
    ReadsAs .error (c0 :: c1 :: c2 :: c3 :: n :: rest)
      (decodeOperands .error (c0 :: c1 :: c2 :: c3 :: n :: rest)) := by
  have needed : Opcode.error.operandLength (c0 :: c1 :: c2 :: c3 :: n :: rest) = 5 + n.toNat :=
    Opcode.operandLength_error _
  have length : (c0 :: c1 :: c2 :: c3 :: n :: rest).length = rest.length + 5 := rfl
  rw [decodeOperands, List.length_take]
  split
  next short => exact .truncated (by omega)
  next =>
    have payload : (rest.take n.toNat).length = n.toNat := by
      rw [List.length_take]
      omega
    refine .command (by omega) nofun rfl (decide_eq_true (payload.trans_lt n.isLt)) ?_
    simp only [Instr.operandBytes, payload]
    rw [leBytes_ofNat_leValue (n := 4) rfl]
    simp

theorem decodeOperands_readsAs (o : Opcode) (bytes : List Byte) : ReadsAs o bytes (decodeOperands o bytes) := by
  cases o with
  | pop | readLine | pktReset | parseLine | send => exact .command (Nat.zero_le _) nofun rfl rfl rfl
  | crcByte =>
    match bytes with
    | [] => exact .truncated (by decide)
    | b :: rest => exact .command (Nat.le_add_left ..) nofun rfl rfl rfl
  | pktStore =>
    match bytes with
    | [] | [_] => exact .truncated (by simp [Opcode.operandLength])
    | off :: val :: rest => exact .command (Nat.le_add_left ..) nofun rfl rfl rfl
  | crcSet =>
    match bytes with
    | [] | [_] => exact .truncated (by simp [Opcode.operandLength])
    | b0 :: b1 :: rest =>
      refine .command (Nat.le_add_left ..) nofun rfl rfl ?_
      simp only [Instr.operandBytes]
      rw [leBytes_ofNat_leValue (n := 2) rfl]
      rfl
  | crcSpan =>
    match bytes with
    | [] | [_] | [_, _] | [_, _, _] => exact .truncated (by simp [Opcode.operandLength])
    | buf :: off :: c0 :: c1 :: rest => exact readsAs_crcSpan buf off c0 c1 rest
  | error =>
    match bytes with
    | [] | [_] | [_, _] | [_, _, _] | [_, _, _, _] => exact .truncated (by simp [Opcode.operandLength])
    | c0 :: c1 :: c2 :: c3 :: n :: rest => exact readsAs_error c0 c1 c2 c3 n rest

theorem decodeOperands_ne_illegalOpcode (o : Opcode) (bytes : List Byte) :
    decodeOperands o bytes ≠ .rejected .illegalOpcode := by
  intro h
  have reading := decodeOperands_readsAs o bytes
  rw [h] at reading
  cases reading

theorem decodeOperands_truncated_iff {o : Opcode} {bytes : List Byte} :
    decodeOperands o bytes = .rejected .truncatedCommand ↔ bytes.length < o.operandLength bytes := by
  have reading := decodeOperands_readsAs o bytes
  generalize decodeOperands o bytes = d at reading ⊢
  cases reading with
  | truncated short => simpa using short
  | reserved complete | command complete => simpa using complete

theorem decodeOperands_reserved_iff {o : Opcode} {bytes : List Byte} :
    decodeOperands o bytes = .rejected .reservedOperand ↔
      o.operandLength bytes ≤ bytes.length ∧ o = .crcSpan ∧ 2 ≤ (bytes.getD 0 0#8).toNat := by
  have reading := decodeOperands_readsAs o bytes
  generalize decodeOperands o bytes = d at reading ⊢
  cases reading with
  | truncated short => exact ⟨nofun, fun h => absurd h.1 (Nat.not_le_of_lt short)⟩
  | reserved complete span buf => exact ⟨fun _ => ⟨complete, span, buf⟩, fun _ => rfl⟩
  | command complete buf => exact ⟨nofun, fun h => absurd h.2.2 (Nat.not_le_of_lt (buf h.2.1))⟩

/-- The encoding's operand bytes are read back as the operands. -/
theorem decodeOperands_operandBytes {i : Instr} (rest : List Byte) (h : i.wf = true) :
    decodeOperands i.opcode (i.operandBytes ++ rest) = .command i rest := by
  cases i with
  | pop | readLine | pktReset | parseLine | send | crcByte | pktStore => rfl
  | crcSet imm16 =>
    obtain ⟨b0, b1, bytes⟩ : ∃ b0 b1, leBytes 2 imm16.toNat = [b0, b1] := ⟨_, _, rfl⟩
    have value := ofNat_leValue_leBytes 2 imm16
    rw [bytes] at value
    simp [Instr.opcode, Instr.operandBytes, decodeOperands, bytes, value]
  | crcSpan buf off cnt =>
    have legal : buf.toNat < 2 := of_decide_eq_true h
    obtain ⟨c0, c1, bytes⟩ : ∃ c0 c1, leBytes 2 cnt.toNat = [c0, c1] := ⟨_, _, rfl⟩
    have value := ofNat_leValue_leBytes 2 cnt
    rw [bytes] at value
    simp [Instr.opcode, Instr.operandBytes, decodeOperands, legal, bytes, value]
  | error code pay =>
    have length : (BitVec.ofNat 8 pay.length).toNat = pay.length :=
      BitVec.toNat_ofNat .. ▸ Nat.mod_eq_of_lt (of_decide_eq_true h)
    obtain ⟨c0, c1, c2, c3, bytes⟩ : ∃ c0 c1 c2 c3, leBytes 4 code.toNat = [c0, c1, c2, c3] := ⟨_, _, _, _, rfl⟩
    have value := ofNat_leValue_leBytes 4 code
    rw [bytes] at value
    simp [Instr.opcode, Instr.operandBytes, decodeOperands, length, bytes, value]

/-! ## The whole command -/

theorem decode_illegal_iff {op : Byte} {bytes : List Byte} :
    decode (op :: bytes) = .rejected .illegalOpcode ↔ Opcode.ofByte op = none := by
  rw [decode]
  split
  next unmapped => exact ⟨fun _ => unmapped, fun _ => rfl⟩
  next o mapped => simp [mapped, decodeOperands_ne_illegalOpcode]

/-- Whatever else the decoder answers, the operand decoder of the byte's opcode answers. -/
theorem decode_cons_iff {op : Byte} {bytes : List Byte} {d : Decoded} (h : d ≠ .rejected .illegalOpcode) :
    decode (op :: bytes) = d ↔ ∃ o : Opcode, op = o.byte ∧ decodeOperands o bytes = d := by
  simp only [← Opcode.ofByte_eq_some_iff]
  rw [decode]
  split
  next unmapped => simp [unmapped, h.symm]
  next o mapped => simp [mapped]

/-- Settles O2: the opcode byte gives back the opcode, and the operand bytes the operands. -/
theorem decodeInvertsEncode : Obligations.DecodeInvertsEncode := by
  intro i rest wf
  exact (decode_cons_iff (d := .command i rest) nofun).mpr ⟨i.opcode, rfl, decodeOperands_operandBytes rest wf⟩

/-- Settles O3: the operand decoder reads a command only where its opcode and operand bytes stand. -/
theorem encodeInvertsDecode : Obligations.EncodeInvertsDecode := by
  intro bytes i rest h
  cases bytes with
  | nil => cases h
  | cons op bytes =>
    obtain ⟨o, rfl, operands⟩ := (decode_cons_iff (d := .command i rest) nofun).mp h
    have reading := decodeOperands_readsAs o bytes
    rw [operands] at reading
    cases reading with
    | command _ _ opcode wf hbytes => exact ⟨wf, by rw [encode, opcode, hbytes, List.cons_append]⟩

/-- The commands that can be cut short, by opcode byte and length (R101, R110). -/
theorem decode_truncated_iff {op : Byte} {bytes : List Byte} :
    decode (op :: bytes) = .rejected .truncatedCommand ↔
      (op = 0x01#8 ∧ bytes.length + 1 < 3) ∨ (op = 0x02#8 ∧ bytes.length + 1 < 2) ∨
        (op = 0x03#8 ∧ bytes.length + 1 < 5) ∨ (op = 0x22#8 ∧ bytes.length + 1 < 3) ∨
        (op = 0x23#8 ∧ (bytes.length + 1 < 6 ∨ bytes.length + 1 < 6 + (bytes.getD 4 0#8).toNat)) := by
  simp only [decode_cons_iff (d := .rejected .truncatedCommand) nofun, decodeOperands_truncated_iff]
  constructor
  · rintro ⟨o, rfl, short⟩
    cases o with
    | pop | readLine | pktReset | parseLine | send => exact absurd short (Nat.not_lt_zero _)
    | crcSet => exact .inl ⟨rfl, Nat.succ_lt_succ short⟩
    | crcByte => exact .inr (.inl ⟨rfl, Nat.succ_lt_succ short⟩)
    | crcSpan => exact .inr (.inr (.inl ⟨rfl, Nat.succ_lt_succ short⟩))
    | pktStore => exact .inr (.inr (.inr (.inl ⟨rfl, Nat.succ_lt_succ short⟩)))
    | error =>
      rw [Opcode.operandLength_error] at short
      exact .inr (.inr (.inr (.inr ⟨rfl, by omega⟩)))
  · rintro (⟨rfl, short⟩ | ⟨rfl, short⟩ | ⟨rfl, short⟩ | ⟨rfl, short⟩ | ⟨rfl, short⟩)
    · exact ⟨.crcSet, rfl, Nat.lt_of_succ_lt_succ short⟩
    · exact ⟨.crcByte, rfl, Nat.lt_of_succ_lt_succ short⟩
    · exact ⟨.crcSpan, rfl, Nat.lt_of_succ_lt_succ short⟩
    · exact ⟨.pktStore, rfl, Nat.lt_of_succ_lt_succ short⟩
    · exact ⟨.error, rfl, by rw [Opcode.operandLength_error]; omega⟩

theorem decode_reserved_iff {op : Byte} {bytes : List Byte} :
    decode (op :: bytes) = .rejected .reservedOperand ↔
      op = 0x03#8 ∧ 5 ≤ bytes.length + 1 ∧ 2 ≤ (bytes.getD 0 0#8).toNat := by
  simp only [decode_cons_iff (d := .rejected .reservedOperand) nofun, decodeOperands_reserved_iff]
  constructor
  · rintro ⟨o, rfl, complete, rfl, buf⟩
    exact ⟨rfl, Nat.succ_le_succ complete, buf⟩
  · rintro ⟨rfl, complete, buf⟩
    exact ⟨.crcSpan, rfl, Nat.le_of_succ_le_succ complete, rfl, buf⟩

/-- Settles O4: the gaps of the opcode map, the missing operand bytes, and the reserved `BUF`. -/
theorem decodeRejectsExactly : Obligations.DecodeRejectsExactly := by
  intro op bytes
  exact ⟨decode_illegal_iff.trans Opcode.ofByte_eq_none_iff, decode_truncated_iff, decode_reserved_iff⟩

/-- Settles O1: each row is computed. -/
theorem exampleBytesDecode : Obligations.ExampleBytesDecode := by
  unfold Obligations.ExampleBytesDecode
  decide

end Sys2Proof

namespace Sys2Proof.Machine

variable {s : State}

/-! ## The control agent's turn on the bytes at `CIX` -/

theorem fetch_of_lt (h : s.cix < s.cmd.length) : fetch s = some (decode (s.cmd.drop s.cix)) :=
  if_pos h

theorem turn_ctrl_of_command {i : Instr} {rest : List Byte} (hf : s.fault = false)
    (fetched : fetch s = some (.command i rest)) : turn .ctrl s = exec i s := by
  simp [turn, ctrlTurn, hf, fetched]

theorem turn_ctrl_of_rejected {e : DecodeError} (hf : s.fault = false) (hp : s.cph = .ready)
    (fetched : fetch s = some (.rejected e)) : turn .ctrl s = .next (s.raised (decodeCause e)) := by
  simp [turn, ctrlTurn, hf, fetched, whenReady_of_ready _ hf hp, raise_eq]

/-- Settles O5: the turn is spent before the command at `CIX` runs, and neither `CMD` nor `CIX` changes by that. -/
theorem stepRunsFetchedCommand : Obligations.StepRunsFetchedCommand := by
  refine ⟨fun s => step_of_runs, fun s i rest runs chosen inside decoded => ?_⟩
  have fetched : fetch s.spendTurn = some (.command i rest) := by
    rw [fetch_spendTurn, fetch_of_lt inside, decoded]
  rw [step_of_runs runs, chosen]
  exact turn_ctrl_of_command (s.spendTurn_fault.trans runs.2) fetched

/-- Settles O6: the turn is spent, and the rejection raises the fault of its cause. -/
theorem stepRejectsByName : Obligations.StepRejectsByName := by
  intro s e runs chosen ready inside decoded
  have fetched : fetch s.spendTurn = some (.rejected e) := by
    rw [fetch_spendTurn, fetch_of_lt inside, decoded]
  rw [step_of_runs runs, chosen,
    turn_ctrl_of_rejected (s.spendTurn_fault.trans runs.2) (s.spendTurn_cph.trans ready) fetched]
  cases e <;> rfl

end Sys2Proof.Machine
end

section
/-! The CRC engine (40_crc.md): the laws of `crc_step` and `crc16` (R140 to R142), and the meanings of CRC_SET, CRC_BYTE
and CRC_SPAN with their frame (R143 to R145). -/

namespace Sys2Proof.Machine

variable {s t : State} {i : Instr}

/-! ## The checksum loses nothing (R140, R141)

The polynomial has bit 15 set and a shift leaves bit 15 clear, so after a round bit 15 is the bit shifted out. -/

/-- Bit 15 after a round is the bit that the round shifted out. -/
theorem crcRound_getLsbD_top (c : Word16) : (crcRound c).getLsbD 15 = c.getLsbD 0 := by
  unfold crcRound
  split <;> simp_all [crcPolyR]

theorem crcRound_injective : Function.Injective crcRound := by
  intro c d rounds
  have low : c.getLsbD 0 = d.getLsbD 0 := by
    rw [← crcRound_getLsbD_top c, rounds, crcRound_getLsbD_top]
  have high : c >>> 1 = d >>> 1 := by
    unfold crcRound at rounds
    rw [low] at rounds
    split at rounds
    · exact (BitVec.xor_left_inj _).mp rounds
    · exact rounds
  ext k hk
  cases k with
  | zero => simpa using low
  | succ k => simpa [hk, Nat.add_comm] using congrArg (·.getLsbD k) high

theorem crcRounds_injective (n : Nat) : Function.Injective (crcRounds n) := by
  induction n with
  | zero => exact Function.injective_id
  | succ n ih => exact ih.comp crcRound_injective

/-- `crc_step` of one byte keeps two checksums apart. -/
theorem crcStep_left_injective (b : Byte) : Function.Injective (crcStep · b) := fun _ _ steps =>
  (BitVec.xor_left_inj _).mp (crcRounds_injective 8 steps)

/-- `crc_step` from one checksum keeps two bytes apart. -/
theorem crcStep_right_injective (c : Word16) : Function.Injective (crcStep c) := fun a b steps => by
  have widened : a.setWidth 16 = b.setWidth 16 := (BitVec.xor_right_inj _).mp (crcRounds_injective 8 steps)
  bv_omega

theorem crc16_append (c : Word16) (bs bs' : List Byte) : crc16 c (bs ++ bs') = crc16 (crc16 c bs) bs' := by
  induction bs generalizing c with
  | nil => rfl
  | cons b bs ih => exact ih (crcStep c b)

/-- The same bytes keep two seeds apart. -/
theorem crc16_seed_injective (bs : List Byte) : Function.Injective (crc16 · bs) := by
  induction bs with
  | nil => exact Function.injective_id
  | cons b bs ih => exact ih.comp (crcStep_left_injective b)

theorem crcStep_zero_zero : crcStep 0x0000#16 0x00#8 = 0x0000#16 := by decide

/-- Settles O15: (b) by induction on the first part, (c) by computing the eight rounds. -/
theorem crcLaws : Obligations.CrcLaws :=
  ⟨fun _ => rfl, crc16_append, crcStep_zero_zero⟩

/-- Settles O16: the differing bytes give different checksums, which the common tail keeps apart. -/
theorem crcDetectsOneChangedByte : Obligations.CrcDetectsOneChangedByte := by
  intro c bs bs' a b differ same
  rw [crc16_append, crc16_append] at same
  have steps : crcStep (crc16 c bs) a = crcStep (crc16 c bs) b := crc16_seed_injective bs' same
  exact differ (crcStep_right_injective _ steps)

/-! ## The frame of the three commands -/

/-- What a CRC command can do: hold, raise a fault, or complete with a new checksum. -/
theorem exec_crcCommand_cases (hi : IsCrcCommand i) (h : exec i s = .next t) :
    t = s ∨ (s.fault = false ∧ ∃ c, t = s.raised c) ∨
      (s.ready ∧ ∃ crc, t = ({ s with crc := crc } : State).completed i.length) := by
  obtain ⟨v, rfl⟩ | ⟨b, rfl⟩ | ⟨buf, off, cnt, rfl⟩ := hi
  · obtain ⟨hf, hp, rfl⟩ | held := execCrcSet_cases h
    · exact .inr (.inr ⟨⟨hf, hp⟩, v, rfl⟩)
    · exact .inl held
  · obtain ⟨hf, hp, rfl⟩ | held := execCrcByte_cases h
    · exact .inr (.inr ⟨⟨hf, hp⟩, crcStep s.crc b, rfl⟩)
    · exact .inl held
  · obtain ⟨hf, hp, ⟨c, rfl⟩ | ⟨-, -, bytes, -, -, -, rfl⟩⟩ | held := execCrcSpan_cases h
    · exact .inr (.inl ⟨hf, c, rfl⟩)
    · exact .inr (.inr ⟨⟨hf, hp⟩, crc16 s.crc bytes, rfl⟩)
    · exact .inl held

/-- Settles O43: a hold changes nothing, a fault only the fault record and the phase, and a completed command leaves
the phase at READY. -/
theorem crcCommandsFrame : Obligations.CrcCommandsFrame := by
  intro s t i hi h
  obtain rfl | ⟨hf, c, rfl⟩ | ⟨⟨-, hp⟩, crc, rfl⟩ := exec_crcCommand_cases hi h
  · exact ⟨rfl, fun _ => ⟨rfl, rfl, rfl, rfl⟩, fun _ => ⟨rfl, rfl⟩, fun faulted => absurd rfl faulted⟩
  · exact ⟨rfl, fun _ => ⟨rfl, rfl, rfl, rfl⟩, fun same => by simp [hf] at same, fun _ => ⟨rfl, rfl, rfl⟩⟩
  · exact ⟨rfl, fun _ => ⟨rfl, rfl, rfl, rfl⟩, fun _ => ⟨rfl, hp.symm⟩, fun faulted => absurd rfl faulted⟩

/-! ## The three commands at READY -/

/-- At READY a command's end moves only `CIX`. -/
theorem State.completed_of_ready (ready : s.ready) (n : Nat) : s.completed n = { s with cix := s.cix + n } := by
  rw [State.completed, ← ready.2]

theorem exec_crcSet_of_ready (ready : s.ready) (imm16 : Word16) :
    exec (.crcSet imm16) s = .next { s with crc := imm16, cix := s.cix + 3 } := by
  have completed := State.completed_of_ready (s := { s with crc := imm16 }) ready 3
  rw [exec, execCrcSet, whenReady_of_ready _ ready.1 ready.2, complete_eq, completed]

theorem exec_crcByte_of_ready (ready : s.ready) (imm8 : Byte) :
    exec (.crcByte imm8) s = .next { s with crc := crcStep s.crc imm8, cix := s.cix + 2 } := by
  have completed := State.completed_of_ready (s := { s with crc := crcStep s.crc imm8 }) ready 2
  rw [exec, execCrcByte, whenReady_of_ready _ ready.1 ready.2, complete_eq, completed]

/-- Settles O12: at READY the whole rule of R143 runs, and the opcode map gives the length 3. -/
theorem crcSetSetsRegister : Obligations.CrcSetSetsRegister :=
  ⟨fun _ imm16 ready => exec_crcSet_of_ready ready imm16,
    fun _ short => decode_truncated_iff.mpr (.inl ⟨rfl, Nat.succ_lt_succ short⟩)⟩

/-- Settles O13: at READY the whole rule of R144 runs, and a zero byte keeps a zero checksum (R142 (c)). -/
theorem crcByteFoldsByte : Obligations.CrcByteFoldsByte := by
  refine ⟨fun s imm8 ready => exec_crcByte_of_ready ready imm8, fun s ready zero => ?_, by decide⟩
  have kept : crcStep s.crc 0x00#8 = s.crc := zero ▸ crcStep_zero_zero
  rw [exec_crcByte_of_ready ready, kept]

/-! ## CRC_SPAN at READY (R145) -/

variable {buf off : Byte} {cnt : Word16} {size : Nat} {m : Memory}

theorem spanBuffer_of_reserved (reserved : 2 ≤ buf.toNat) : spanBuffer buf s = none := by
  unfold spanBuffer
  rw [if_neg (by omega), if_neg (by omega)]

/-- `BUF` 0 is `LINE` and `BUF` 1 is `PKT`, with their sizes (R105). -/
theorem spanBuffer_of_named
    (named : (buf = 0#8 ∧ size = 256 ∧ m = s.line) ∨ (buf = 1#8 ∧ size = 60 ∧ m = s.pkt)) :
    spanBuffer buf s = some (size, m) := by
  obtain ⟨rfl, rfl, rfl⟩ | ⟨rfl, rfl, rfl⟩ := named <;> rfl

/-- A span does not read exactly when one of its bytes is unwritten (R11). -/
theorem Memory.readSpan_eq_none {n k : Nat} :
    m.readSpan n k = none ↔ ∃ j, j < k ∧ m.read (n + j) = none := by
  have reads : m.readSpan n k ≠ none ↔ ∀ j, j < k → ∃ b, m.read (n + j) = some b :=
    Option.isSome_iff_ne_none.symm.trans Memory.written_iff
  rw [← not_iff_not, ← ne_eq, reads]
  simp only [not_exists, not_and, ← ne_eq, Option.ne_none_iff_exists']

theorem exec_crcSpan_of_reserved (ready : s.ready) (reserved : spanBuffer buf s = none) :
    exec (.crcSpan buf off cnt) s = .next (s.raised .reservedOperand) := by
  simp only [exec, execCrcSpan, whenReady_of_ready _ ready.1 ready.2, reserved, raise_eq]

section named
variable (ready : s.ready) (named : spanBuffer buf s = some (size, m))
include ready named

theorem exec_crcSpan_of_outOfRange (outside : size < off.toNat + cnt.toNat) :
    exec (.crcSpan buf off cnt) s = .next (s.raised .spanOutOfRange) := by
  simp only [exec, execCrcSpan, whenReady_of_ready _ ready.1 ready.2, named, if_pos outside, raise_eq]

theorem exec_crcSpan_of_unwritten (inside : off.toNat + cnt.toNat ≤ size)
    (unwritten : m.readSpan off.toNat cnt.toNat = none) :
    exec (.crcSpan buf off cnt) s = .next (s.raised .uninitialisedRead) := by
  simp only [exec, execCrcSpan, whenReady_of_ready _ ready.1 ready.2, named, if_neg inside.not_gt, unwritten, raise_eq]

theorem exec_crcSpan_of_written {bytes : List Byte} (inside : off.toNat + cnt.toNat ≤ size)
    (written : m.readSpan off.toNat cnt.toNat = some bytes) :
    exec (.crcSpan buf off cnt) s = .next { s with crc := crc16 s.crc bytes, cix := s.cix + 5 } := by
  have completed := State.completed_of_ready (s := { s with crc := crc16 s.crc bytes }) ready 5
  simp only [exec, execCrcSpan, whenReady_of_ready _ ready.1 ready.2, named, if_neg inside.not_gt, written, complete_eq,
    completed]

end named

/-- Settles O14: one clause per check of R145, in the rule's order, and the fold where all pass. -/
theorem crcSpanFoldsSpan : Obligations.CrcSpanFoldsSpan := by
  refine ⟨fun s buf off cnt ready reserved => exec_crcSpan_of_reserved ready (spanBuffer_of_reserved reserved),
    fun s buf off cnt size m ready named => ?_,
    fun bytes short => decode_truncated_iff.mpr (.inr (.inr (.inl ⟨rfl, Nat.succ_lt_succ short⟩)))⟩
  have named := spanBuffer_of_named named
  refine ⟨exec_crcSpan_of_outOfRange ready named, fun inside unwritten => ?_, fun bytes inside length reads => ?_⟩
  · exact exec_crcSpan_of_unwritten ready named inside (Memory.readSpan_eq_none.mpr unwritten)
  · exact exec_crcSpan_of_written ready named inside (Memory.readSpan_eq_some.mpr ⟨length, reads⟩)

end Sys2Proof.Machine
end

section
/-! Steps along a plan (R291), RX_PUSH (R160), and the unread bytes after pushes in a row (R36, R161). -/

namespace Sys2Proof.Machine

variable {s t : State} {i : Instr} {a : Agent} {b : Byte} {turns : List Agent} {rest pushed later : List Byte}

/-! ## Steps along a plan (R291; log 2) -/

/-- The first turn of a plan is given to its agent. -/
theorem step_of_plan (runs : s.runs) (plan : s.plan = a :: turns) : step s = turn a { s with plan := turns } := by
  rw [step_of_runs runs, State.chosen, State.spendTurn, plan]

theorem step_ctrl_of_plan (runs : s.runs) (plan : s.plan = .ctrl :: turns)
    (fetched : fetch s = some (.command i rest)) : step s = exec i { s with plan := turns } :=
  (step_of_plan runs plan).trans (turn_ctrl_of_command runs.2 fetched)

/-- The state in the phase `p`, with `turns` still to be given. -/
def State.entered (s : State) (p : Phase) (turns : List Agent) : State :=
  { s with cph := p, plan := turns }

/-- Two turns of the control agent: a see step into the phase `p`, then the take step from there (R162, R170). -/
theorem runFor_seeThenTake {p : Phase} (runs : s.runs) (plan : s.plan = .ctrl :: .ctrl :: turns)
    (fetched : fetch s = some (.command i rest))
    (see : exec i (s.entered s.cph (.ctrl :: turns)) = .next (s.entered p (.ctrl :: turns)))
    (take : exec i (s.entered p turns) = .next t) : runFor 2 s = .next t := by
  have first : step s = .next (s.entered p (.ctrl :: turns)) := (step_ctrl_of_plan runs plan fetched).trans see
  have second : step (s.entered p (.ctrl :: turns)) = .next t :=
    (step_ctrl_of_plan (s := s.entered p (.ctrl :: turns)) runs rfl fetched).trans take
  rw [runFor_succ 1 first, runFor_succ 0 second, runFor_zero]

/-! ## RX_PUSH (R160) -/

theorem State.enabled_rxi_iff : s.enabled .rxi = true ↔ s.fault = false ∧ s.inp ≠ [] := by
  simp [State.enabled, State.rxPending]

theorem turn_rxi_of_enabled (enabled : s.enabled .rxi = true) : turn .rxi s = .next (rxPush s) :=
  if_pos enabled

theorem turn_rxi_of_cons (hf : s.fault = false) (hin : s.inp = b :: rest) :
    turn .rxi s = .next { s with inp := rest, ring := s.ring.write s.widx.toNat b, widx := s.widx + 1#8 } := by
  rw [turn_rxi_of_enabled (State.enabled_rxi_iff.mpr ⟨hf, by simp [hin]⟩), rxPush_cons hin]

/-- Settles O17: RX_PUSH is one write at `WIDX`, and a memory reads back what was written last. -/
theorem rxPushStoresByte : Obligations.RxPushStoresByte :=
  fun s => ⟨State.enabled_rxi_iff, fun b _ hf hin =>
    ⟨turn_rxi_of_cons hf hin, fun a => Memory.read_write s.ring s.widx.toNat a b⟩⟩

/-! ## Pushes in a row (R161) -/

/-- The ring after RX_PUSH of each of the bytes, the first one to the place `w`. -/
def pushBytes (ring : Memory) (w : Byte) : List Byte → Memory
  | [] => ring
  | b :: bs => pushBytes (ring.write w.toNat b) (w + 1#8) bs

/-- The state after RX_PUSH of each byte of `pushed`, with `later` still to come and `turns` still to be given. -/
def State.received (s : State) (pushed later : List Byte) (turns : List Agent) : State :=
  { s with
    inp := later, ring := pushBytes s.ring s.widx pushed, widx := s.widx + BitVec.ofNat 8 pushed.length, plan := turns }

theorem runFor_pushes (runs : s.runs) (inp : s.inp = pushed ++ later)
    (plan : s.plan = List.replicate pushed.length .rxi ++ turns) :
    runFor pushed.length s = .next (s.received pushed later turns) := by
  induction pushed generalizing s with
  | nil => subst inp plan; simp [State.received, pushBytes]
  | cons b bs ih =>
    have first : step s = .next (s.received [b] (bs ++ later) (List.replicate bs.length .rxi ++ turns)) :=
      (step_of_plan runs plan).trans (turn_rxi_of_cons runs.2 inp)
    have place : s.widx + 1#8 + BitVec.ofNat 8 bs.length = s.widx + BitVec.ofNat 8 (bs.length + 1) := by bv_omega
    rw [List.length_cons, runFor_succ _ first, ih (s := s.received ..) runs rfl rfl]
    simp [State.received, pushBytes, place]

/-- A place that no push reaches keeps its byte. -/
theorem read_pushBytes_unreached {ring : Memory} {w x : Byte}
    (unreached : ∀ k, k < pushed.length → w + BitVec.ofNat 8 k ≠ x) :
    (pushBytes ring w pushed).read x.toNat = ring.read x.toNat := by
  induction pushed generalizing ring w with
  | nil => rfl
  | cons b bs ih =>
    have apart : x.toNat ≠ w.toNat := fun same =>
      unreached 0 (Nat.succ_pos _) (by simpa using (BitVec.eq_of_toNat_eq same).symm)
    have after : ∀ k, k < bs.length → w + 1#8 + BitVec.ofNat 8 k ≠ x := fun k hk reached =>
      unreached (k + 1) (Nat.succ_lt_succ hk) (by rw [← reached]; bv_omega)
    rw [pushBytes, ih after, Memory.read_write_other _ _ apart]

/-- A push that none of the later ones laps keeps its byte in the ring. -/
theorem read_pushBytes_pushed {ring : Memory} {w : Byte} {k : Nat} (inside : k < pushed.length)
    (newest : pushed.length ≤ k + 256) :
    (pushBytes ring w pushed).read (w + BitVec.ofNat 8 k).toNat = pushed[k]? := by
  induction pushed generalizing ring w k with
  | nil => cases inside
  | cons b bs ih =>
    rw [List.length_cons] at inside newest
    cases k with
    | zero =>
      have unreached : ∀ j, j < bs.length → w + 1#8 + BitVec.ofNat 8 j ≠ w := by
        intro j hj
        bv_omega
      simp [pushBytes, read_pushBytes_unreached unreached]
    | succ k =>
      have place : w + BitVec.ofNat 8 (k + 1) = w + 1#8 + BitVec.ofNat 8 k := by bv_omega
      rw [pushBytes, place, ih (by omega) (by omega), List.getElem?_cons_succ]

/-! ## The unread bytes after pushes (R36, R161) -/

theorem State.unreadCount_lt (s : State) : s.unreadCount < 256 := (s.widx - s.ridx).isLt

@[simp] theorem State.length_unread (s : State) : s.unread.length = s.unreadCount := by simp [State.unread]

theorem State.getElem?_unread {k : Nat} (hk : k < s.unreadCount) : s.unread[k]? = some (s.ringByte k) := by
  simp [State.unread, hk]

/-- The ring wraps around (R34). -/
theorem State.ringByte_mod (s : State) (k : Nat) : s.ringByte (k % 256) = s.ringByte k := by
  have same : BitVec.ofNat 8 (k % 256) = BitVec.ofNat 8 k := by bv_omega
  rw [State.ringByte, State.ringByte, same]

theorem State.ringHead_eq (s : State) : s.ringHead = s.ringByte 0 := by
  simp [State.ringHead, State.ringByte]

theorem State.unreadCount_received :
    (s.received pushed later turns).unreadCount = (s.unreadCount + pushed.length) % 256 := by
  simp only [State.unreadCount, State.received]
  bv_omega

/-- An unread byte that no push has lapped stays in its place. -/
theorem State.ringByte_received_of_unread {k : Nat} (old : k < s.unreadCount)
    (newest : s.unreadCount + pushed.length ≤ k + 256) :
    (s.received pushed later turns).ringByte k = s.ringByte k := by
  refine read_pushBytes_unreached fun j hj => ?_
  change s.widx + BitVec.ofNat 8 j ≠ s.ridx + BitVec.ofNat 8 k
  unfold State.unreadCount at *
  bv_omega

/-- A pushed byte that no later push has lapped stands after the unread ones. -/
theorem State.ringByte_received_of_pushed {k : Nat} (inside : k < pushed.length)
    (newest : pushed.length ≤ k + 256) :
    (s.received pushed later turns).ringByte (s.unreadCount + k) = pushed[k]? := by
  have place : s.ridx + BitVec.ofNat 8 (s.unreadCount + k) = s.widx + BitVec.ofNat 8 k := by
    unfold State.unreadCount
    bv_omega
  rw [State.ringByte]
  exact place ▸ read_pushBytes_pushed inside newest

/-- Of the bytes unread before and the bytes pushed, in order, the ring holds the last 256. -/
theorem State.ringByte_received {k : Nat} (inside : k < s.unreadCount + pushed.length)
    (newest : s.unreadCount + pushed.length ≤ k + 256) :
    (s.unread ++ pushed.map some)[k]? = some ((s.received pushed later turns).ringByte k) := by
  by_cases old : k < s.unreadCount
  · rw [List.getElem?_append_left (by simpa using old), State.getElem?_unread old,
      State.ringByte_received_of_unread old newest]
  · obtain ⟨j, rfl⟩ := Nat.exists_eq_add_of_le (Nat.le_of_not_lt old)
    rw [State.ringByte_received_of_pushed (by omega) (by omega), List.getElem?_append_right (by simp),
      State.length_unread, Nat.add_sub_cancel_left, List.getElem?_map, List.getElem?_eq_getElem (by omega),
      Option.map_some]

theorem State.unread_received :
    (s.received pushed later turns).unread =
      (s.unread ++ pushed.map some).drop
        (s.unreadCount + pushed.length - (s.unreadCount + pushed.length) % 256) := by
  refine List.ext_getElem? fun k => ?_
  rw [List.getElem?_drop]
  by_cases hk : k < (s.unreadCount + pushed.length) % 256
  · have place : (s.unreadCount + pushed.length - (s.unreadCount + pushed.length) % 256 + k) % 256 = k := by omega
    rw [State.ringByte_received (later := later) (turns := turns) (by omega) (by omega), ← State.ringByte_mod, place]
    exact State.getElem?_unread (State.unreadCount_received ▸ hk)
  · rw [List.getElem?_eq_none (by rw [State.length_unread, State.unreadCount_received]; omega),
      List.getElem?_eq_none (by simp only [List.length_append, List.length_map, State.length_unread]; omega)]

/-- Settles O18: the pushes end in `State.received`, whose ring holds the last 256 bytes written. -/
theorem pushesKeepTheLastBytes : Obligations.PushesKeepTheLastBytes :=
  fun s pushed later turns runs inp plan =>
    ⟨s.received pushed later turns, runFor_pushes runs inp plan, rfl, rfl, rfl, State.unreadCount_received,
      State.unread_received⟩

end Sys2Proof.Machine
end

section
/-! POP's see and take steps alone, with pushes between them, and in a row (R162, R163). -/

namespace Sys2Proof.Machine

variable {s t : State} {b seen : Byte} {others : List (Option Byte)} {turns : List Agent}
  {more rest pushed later : List Byte}

/-! ## The two steps (R162) -/

/-- A see step holds on an empty ring and otherwise enters its phase (R162, R170). -/
theorem seeByte_eq (p : Phase) (s : State) :
    seeByte p s = if s.widx = s.ridx then .next s else .next { s with cph := p } := by
  simp [seeByte, State.ringEmpty]

theorem exec_pop_of_empty (ready : s.ready) (empty : s.widx = s.ridx) : exec .pop s = .next s := by
  simp [exec, execPop, ready.1, ready.2, seeByte_eq, empty]

theorem exec_pop_of_nonempty (ready : s.ready) (bytes : s.widx ≠ s.ridx) :
    exec .pop s = .next { s with cph := .popSeen } := by
  simp [exec, execPop, ready.1, ready.2, seeByte_eq, bytes]

/-- Settles O19: one clause per step of R162. -/
theorem popSeesThenTakes : Obligations.PopSeesThenTakes :=
  ⟨fun _ => exec_pop_of_empty, fun _ => exec_pop_of_nonempty, fun _ _ => execPop_of_head⟩

/-! ## Pushes between see and take (R162) -/

/-- The byte at `RIDX` after pushes: as before while they have not lapped it, and then the newest of those that went to
its place. -/
theorem State.ringHead_received (nonempty : 1 ≤ s.unreadCount) (head : s.ringHead = some seen) :
    ∃ b, (s.received pushed later turns).ringHead = some b ∧
      (pushed.length < 257 - s.unreadCount → b = seen) ∧
      (257 - s.unreadCount ≤ pushed.length →
        ∃ k, k < pushed.length ∧ pushed.length ≤ k + 256 ∧ (s.unreadCount + k) % 256 = 0 ∧
          some b = pushed[k]?) := by
  have below := s.unreadCount_lt
  simp only [State.ringHead_eq] at head ⊢
  by_cases kept : pushed.length < 257 - s.unreadCount
  · refine ⟨seen, ?_, fun _ => rfl, fun lapped => absurd kept (by omega)⟩
    rw [State.ringByte_received_of_unread nonempty (by omega), head]
  · -- The place `RIDX` is reached again at every multiple of 256, so the newest byte there is at the last of them.
    obtain ⟨k, inside, newest, place⟩ :
        ∃ k, k < pushed.length ∧ pushed.length ≤ k + 256 ∧ (s.unreadCount + k) % 256 = 0 :=
      ⟨(s.unreadCount + pushed.length - 1) / 256 * 256 - s.unreadCount, by omega, by omega, by omega⟩
    have stored := State.ringByte_received_of_pushed (s := s) (later := later) (turns := turns) inside newest
    rw [← State.ringByte_mod, place, List.getElem?_eq_getElem inside] at stored
    exact ⟨pushed[k], stored, fun h => absurd h kept,
      fun _ => ⟨k, inside, newest, place, (List.getElem?_eq_getElem inside).symm⟩⟩

/-- Settles O20: the pushes run first, and the take step reads what then stands at `RIDX`. -/
theorem pushesBetweenSeeAndTake : Obligations.PushesBetweenSeeAndTake := by
  intro s seen pushed later rest turns runs hp fetched nonempty head inp plan
  obtain ⟨b, hb, kept, lapped⟩ :=
    State.ringHead_received (pushed := pushed) (later := later) (turns := turns) nonempty head
  have pushes := runFor_pushes runs inp plan
  have take : step (s.received pushed later (.ctrl :: turns)) = _ :=
    (step_ctrl_of_plan (s := s.received ..) runs rfl fetched).trans (execPop_of_head runs.2 hp hb)
  have count : (s.widx + BitVec.ofNat 8 pushed.length - (s.ridx + 1#8)).toNat =
      (s.unreadCount + pushed.length + 255) % 256 := by
    unfold State.unreadCount
    bv_omega
  exact ⟨_, (runFor_add 1 pushes).trans (runFor_succ 0 take), rfl, rfl, rfl, count,
    fun before => congrArg some (kept before), lapped⟩

/-! ## POPs in a row (R163) -/

theorem State.widx_ne_ridx_of_unread (unread : s.unread = some b :: others) : s.widx ≠ s.ridx := by
  intro empty
  simp [State.unread, State.unreadCount, empty] at unread

theorem fetch_of_drop {bytes : List Byte} (cmd : s.cmd.drop s.cix = b :: bytes) :
    fetch s = some (decode (b :: bytes)) := by
  have inside : s.cix < s.cmd.length := by
    by_contra beyond
    rw [List.drop_eq_nil_of_le (by omega)] at cmd
    cases cmd
  rw [fetch_of_lt inside, cmd]

/-- The state after `k` POPs that left `rxb` in `RXB`, with `turns` still to be given. -/
def State.popped (s : State) (k : Nat) (rxb : Option Byte) (turns : List Agent) : State :=
  { s with rxb := rxb, ridx := s.ridx + BitVec.ofNat 8 k, cix := s.cix + k, cph := .ready, plan := turns }

/-- One POP takes the oldest unread byte in two turns. -/
theorem runFor_pop (runs : s.runs) (hp : s.cph = .ready) (unread : s.unread = some b :: others)
    (cmd : s.cmd.drop s.cix = 0x10#8 :: more) (plan : s.plan = .ctrl :: .ctrl :: turns) :
    runFor 2 s = .next (s.popped 1 (some b) turns) ∧ (s.popped 1 (some b) turns).unread = others := by
  obtain ⟨head, unread'⟩ := State.unread_of_advance (t := s.popped 1 (some b) turns) unread rfl rfl rfl
  have see : exec .pop (s.entered s.cph (.ctrl :: turns)) = .next (s.entered .popSeen (.ctrl :: turns)) :=
    exec_pop_of_nonempty ⟨runs.2, hp⟩ (State.widx_ne_ridx_of_unread unread)
  exact ⟨runFor_seeThenTake runs plan (fetch_of_drop cmd) see (execPop_of_head runs.2 rfl head), unread'⟩

/-- `k` POPs take the oldest `k` unread bytes, in their order. -/
theorem runFor_pops {k : Nat} (runs : s.runs) (hp : s.cph = .ready) (unread : s.unread = pushed.map some)
    (cmd : s.cmd.drop s.cix = List.replicate pushed.length 0x10#8 ++ more) (hk : k ≤ pushed.length)
    (plan : s.plan = List.replicate (2 * k) .ctrl ++ turns) :
    ∃ rxb, runFor (2 * k) s = .next (s.popped k rxb turns) ∧ (1 ≤ k → rxb = pushed[k - 1]?) ∧
      (s.popped k rxb turns).unread = (pushed.drop k).map some := by
  induction k generalizing turns with
  | zero =>
    have same : s.popped 0 s.rxb turns = s := by
      rw [State.popped, ← hp]
      subst plan
      simp
    exact ⟨s.rxb, by rw [same]; rfl, nofun, by rw [same, unread]; rfl⟩
  | succ k ih =>
    have split : s.plan = List.replicate (2 * k) .ctrl ++ .ctrl :: .ctrl :: turns := by
      rw [plan, Nat.mul_succ, List.replicate_add, List.append_assoc]
      rfl
    obtain ⟨rxb, before, -, unreadBefore⟩ := ih (by omega) split
    rw [List.drop_eq_getElem_cons hk, List.map_cons] at unreadBefore
    have cmdAt : s.cmd.drop (s.cix + k) = 0x10#8 :: (List.replicate (pushed.length - (k + 1)) 0x10#8 ++ more) := by
      rw [← List.drop_drop, cmd, List.drop_append_of_le_length (by simp; omega), List.drop_replicate,
        show pushed.length - k = pushed.length - (k + 1) + 1 by omega]
      rfl
    obtain ⟨pop, unreadAfter⟩ :=
      runFor_pop (s := s.popped k rxb (.ctrl :: .ctrl :: turns)) runs rfl unreadBefore cmdAt rfl
    have joined : (s.popped k rxb (.ctrl :: .ctrl :: turns)).popped 1 (some pushed[k]) turns =
        s.popped (k + 1) (some pushed[k]) turns := by
      have place : s.ridx + BitVec.ofNat 8 k + 1#8 = s.ridx + BitVec.ofNat 8 (k + 1) := by bv_omega
      simp [State.popped, place, Nat.add_assoc]
    rw [joined] at pop unreadAfter
    exact ⟨some pushed[k], (runFor_add 2 before).trans pop, fun _ => (List.getElem?_eq_getElem hk).symm,
      unreadAfter⟩

/-! ## The ring as a FIFO (R163) -/

theorem State.unreadCount_of_empty (empty : s.widx = s.ridx) : s.unreadCount = 0 := by
  simp [State.unreadCount, empty]

/-- Up to 255 bytes pushed into an empty ring are the unread ones. -/
theorem State.unread_received_of_empty (empty : s.widx = s.ridx) (fits : pushed.length ≤ 255) :
    (s.received pushed later turns).unread = pushed.map some := by
  have count := State.unreadCount_of_empty empty
  rw [State.unread_received, count, Nat.zero_add, Nat.mod_eq_of_lt (by omega), Nat.sub_self, List.drop_zero]
  simp [State.unread, count]

/-- After 256 pushes the write index is back where it was. -/
theorem State.widx_received_of_lap (lap : pushed.length = 256) : (s.received pushed later turns).widx = s.widx := by
  simp [State.received, lap]

/-- Settles O22: up to 255 pushes leave their bytes unread for the POPs; 256 bring `WIDX` back to `RIDX`, and one more
moves it on. -/
theorem fifoUpTo255 : Obligations.FifoUpTo255 := by
  refine ⟨fun s pushed later more k turns runs hp empty fits inp cmd hk plan => ?_,
    fun s pushed later turns runs hp empty lap inp plan => ?_⟩
  · rw [List.append_assoc] at plan
    have pushes := runFor_pushes runs inp plan
    obtain ⟨rxb, pops, last, unread⟩ :=
      runFor_pops (s := s.received pushed later (List.replicate (2 * k) .ctrl ++ turns)) runs hp
        (State.unread_received_of_empty empty fits) cmd hk rfl
    exact ⟨_, (runFor_add (2 * k) pushes).trans pops, last, unread, rfl, rfl, runs.2⟩
  · have back : (s.received pushed later turns).widx = (s.received pushed later turns).ridx :=
      (State.widx_received_of_lap lap).trans empty
    have pushes := runFor_pushes runs inp (lap.symm ▸ plan)
    obtain ⟨-, -, -, rxEmpty, -⟩ := statusLayout.1 (s.received pushed later turns)
    refine ⟨s.received pushed later turns, lap ▸ pushes, rfl, back, by simpa [back] using rxEmpty,
      exec_pop_of_empty ⟨runs.2, hp⟩ back, fun b rest next => ?_⟩
    refine ⟨_, turn_rxi_of_cons (s := s.received ..) runs.2 next, exec_pop_of_nonempty ⟨runs.2, hp⟩ ?_⟩
    change (s.received pushed later turns).widx + 1#8 ≠ (s.received pushed later turns).ridx
    rw [back]
    bv_omega

end Sys2Proof.Machine
end

section
/-! READ_LINE (R170): its steps, a whole line, and the frame of the two receive commands. -/

namespace Sys2Proof.Machine

variable {s t : State} {n : Fin 255} {b last : Byte} {others : List (Option Byte)} {turns : List Agent}
  {text rest : List Byte}

/-! ## READ_LINE's steps (R170) -/

theorem exec_readLine_see (hf : s.fault = false) (hp : (s.cph = .ready ∧ n = 0) ∨ s.cph = .rdl n false) :
    exec .readLine s = if s.widx = s.ridx then .next s else .next { s with cph := .rdl n true } := by
  rw [← seeByte_eq]
  obtain ⟨hp, rfl⟩ | hp := hp <;> simp [exec, execReadLine, hf, hp]

theorem exec_readLine_of_nonempty (hf : s.fault = false) (hp : (s.cph = .ready ∧ n = 0) ∨ s.cph = .rdl n false)
    (bytes : s.widx ≠ s.ridx) : exec .readLine s = .next { s with cph := .rdl n true } :=
  (exec_readLine_see hf hp).trans (if_neg bytes)

section take
variable (hf : s.fault = false) (hp : s.cph = .rdl n true) (head : s.ringHead = some b)
include hf hp head

/-- The take step of a byte that does not end the line. -/
theorem exec_readLine_copy (more : b ≠ newline ∧ n.val + 1 < lineMax) :
    exec .readLine s =
      .next { s with ridx := s.ridx + 1#8, line := s.line.write n.val b, cph := .rdl ⟨n.val + 1, more.2⟩ false } := by
  simp only [exec, execReadLine, hf, hp, lineTake, head, dif_pos more]
  rfl

/-- The take step of the line's last byte. -/
theorem exec_readLine_end (ends : b = newline ∨ n.val + 1 = lineMax) :
    exec .readLine s =
      .next
        (({ s with
            ridx := s.ridx + 1#8
            line := (s.line.write n.val b).write (n.val + 1) 0x00#8
            len := BitVec.ofNat 9 (n.val + 1) } : State).completed 1) := by
  have stop : ¬(b ≠ newline ∧ n.val + 1 < lineMax) := fun ⟨hb, hn⟩ => ends.elim hb hn.ne
  simp only [exec, execReadLine, hf, hp, lineTake, head, dif_neg stop]
  rfl

end take

/-- Settles O23: the see steps by `seeByte`, and the take step in its two cases. -/
theorem readLineSeesThenTakes : Obligations.ReadLineSeesThenTakes := by
  refine ⟨fun s ready => exec_readLine_see ready.1 (.inl ⟨ready.2, rfl⟩),
    fun s n hf hp => exec_readLine_see hf (.inr hp),
    fun s n b hf hp head => ⟨exec_readLine_end hf hp head, fun next hb hn => ?_⟩⟩
  obtain ⟨_, below⟩ := next
  subst hn
  exact exec_readLine_copy hf hp head ⟨hb, below⟩

/-! ## A whole line (R170) -/

/-- The state after the line that began with `n` bytes in `LINE` ends with the bytes `bytes`. -/
def State.lineRead (s : State) (n : Nat) (bytes : List Byte) (turns : List Agent) : State :=
  { s with
    ridx := s.ridx + BitVec.ofNat 8 bytes.length
    line := s.line.writeBytes n (bytes ++ [0x00#8])
    len := BitVec.ofNat 9 (n + bytes.length)
    cph := .ready
    cix := s.cix + 1
    plan := turns }

/-- The state after READ_LINE's take step of byte `n`, with more bytes to come and `turns` still to be given. -/
def State.lineCopied (s : State) (n : Fin 255) (b : Byte) (more : n.val + 1 < lineMax) (turns : List Agent) : State :=
  { s with
    ridx := s.ridx + 1#8, line := s.line.write n.val b, cph := .rdl ⟨n.val + 1, more⟩ false, plan := turns }

/-- The unread bytes begin with those that the ring holds from `RIDX` on. -/
theorem State.unread_eq_append {bytes : List Byte} (count : bytes.length ≤ s.unreadCount)
    (held : ∀ k, k < bytes.length → s.ringByte k = bytes[k]?) :
    s.unread = bytes.map some ++ s.unread.drop bytes.length := by
  have front : s.unread.take bytes.length = bytes.map some := by
    refine List.ext_getElem (by simpa using count) fun k hk hk' => ?_
    rw [List.length_map] at hk'
    simp [State.unread, held k hk', hk']
  rw [← front, List.take_append_drop]

section byteTurns
variable (runs : s.runs) (hp : (s.cph = .ready ∧ n = 0) ∨ s.cph = .rdl n false)
  (fetched : fetch s = some (.command .readLine rest))
include runs hp fetched

/-- READ_LINE takes a byte in two turns. -/
theorem runFor_lineByte (bytes : s.widx ≠ s.ridx) (plan : s.plan = .ctrl :: .ctrl :: turns)
    (take : exec .readLine (s.entered (.rdl n true) turns) = .next t) : runFor 2 s = .next t :=
  runFor_seeThenTake runs plan fetched (exec_readLine_of_nonempty runs.2 hp bytes) take

/-- A byte that does not end the line is copied in two turns. -/
theorem runFor_lineCopy (more : b ≠ newline ∧ n.val + 1 < lineMax) (unread : s.unread = some b :: others)
    (plan : s.plan = .ctrl :: .ctrl :: turns) :
    runFor 2 s = .next (s.lineCopied n b more.2 turns) ∧ (s.lineCopied n b more.2 turns).unread = others := by
  obtain ⟨head, unread'⟩ := State.unread_of_advance (t := s.lineCopied n b more.2 turns) unread rfl rfl rfl
  exact ⟨runFor_lineByte runs hp fetched (State.widx_ne_ridx_of_unread unread) plan
    (exec_readLine_copy (s := s.entered (.rdl n true) turns) runs.2 rfl head more), unread'⟩

/-- READ_LINE takes the rest of a line, byte by byte. -/
theorem runFor_line (inside : newline ∉ text)
    (ends : (last = newline ∧ n.val + text.length < 255) ∨ n.val + text.length = 254)
    (unread : s.unread = (text ++ [last]).map some ++ others)
    (plan : s.plan = List.replicate (2 * (text.length + 1)) .ctrl ++ turns) :
    runFor (2 * (text.length + 1)) s = .next (s.lineRead n.val (text ++ [last]) turns) := by
  induction text generalizing s n with
  | nil =>
    obtain ⟨head, -⟩ := State.unread_of_advance (t := s.lineRead n.val [last] turns) unread rfl rfl rfl
    have atEnd : last = newline ∨ n.val + 1 = lineMax := by simpa [lineMax] using ends.imp_left And.left
    exact runFor_lineByte runs hp fetched (State.widx_ne_ridx_of_unread unread) plan
      (exec_readLine_end runs.2 rfl head atEnd)
  | cons b text ih =>
    rw [List.length_cons] at ends
    have more : b ≠ newline ∧ n.val + 1 < lineMax :=
      ⟨fun same => inside (same ▸ List.mem_cons_self), by rw [lineMax]; omega⟩
    obtain ⟨copied, unread'⟩ := runFor_lineCopy runs hp fetched more unread plan
    have remaining := ih (s := s.lineCopied ..) runs (.inr rfl) fetched (fun h => inside (.tail _ h))
      (ends.imp (fun ⟨hl, short⟩ => ⟨hl, by simp only; omega⟩) fun full => by simp only; omega) unread' rfl
    rw [List.length_cons, Nat.mul_succ, Nat.add_comm, runFor_add _ copied, remaining]
    have place : s.ridx + 1#8 + BitVec.ofNat 8 (text.length + 1) = s.ridx + BitVec.ofNat 8 (text.length + 1 + 1) := by
      bv_omega
    simp [State.lineRead, State.lineCopied, Memory.writeBytes, place, Nat.add_comm 1, Nat.add_assoc]

end byteTurns

/-- Settles O24: a line at `RIDX` read from byte 0 on. -/
theorem readLineAssemblesLine : Obligations.ReadLineAssemblesLine := by
  intro s text last rest turns runs hp inside decoded noNewline ends count held plan
  have fetched : fetch s = some (.command .readLine rest) := by rw [fetch_of_lt inside, decoded]
  have unread := State.unread_eq_append (s := s) (bytes := text ++ [last]) (by simpa using count) (by simpa using held)
  rw [runFor_line runs (n := 0) (.inl ⟨hp, rfl⟩) fetched noNewline (by simpa [newline] using ends) unread plan]
  simp [State.lineRead, hp]

/-! ## The frame of POP and READ_LINE -/

/-- Settles O44: of the effects of the two commands only READ_LINE's take steps write `LINE` or `RIDX`, and the one that
writes `LEN` completes. -/
theorem receiveCommandsFrame : Obligations.ReceiveCommandsFrame := by
  refine fun s t => ⟨fun h => ?_, fun h => ?_⟩
  · obtain ⟨-, -, -, rfl⟩ | ⟨-, -, ⟨b, -, rfl⟩ | ⟨-, rfl⟩⟩ | rfl := execPop_cases h <;> rfl
  · cases effect_of_exec h with
    | checksum hi => simp [IsCrcCommand] at hi
    | store hi => simp [IsStoreCommand] at hi
    | hold | fault | lineSee => exact ⟨rfl, fun _ _ _ _ _ => rfl, fun _ => ⟨rfl, rfl, rfl⟩, fun _ => rfl⟩
    | @lineCopy n b _ hp =>
      refine ⟨rfl, fun m hm a first _ => ?_, fun unseen => absurd hp (unseen n), fun _ => rfl⟩
      cases hp.symm.trans hm
      exact Memory.read_write_other _ _ first
    | @lineEnd n b _ hp =>
      refine ⟨rfl, fun m hm a first second => ?_, fun unseen => absurd hp (unseen n),
        fun same => absurd same (Nat.succ_ne_self _)⟩
      cases hp.symm.trans hm
      exact (Memory.read_write_other _ _ second).trans (Memory.read_write_other _ _ first)

end Sys2Proof.Machine
end

section
/-! The receive and transmit events in either order (R296). -/

namespace Sys2Proof.Machine

variable {s : State} {f : State → State} {a : Agent}

/-- A step that neither reads nor writes `IN`, `RING` and `WIDX`. -/
def IgnoresReceiver (f : State → State) : Prop :=
  ∀ (s : State) (inp : List Byte) (ring : Memory) (widx : Byte),
    f { s with inp := inp, ring := ring, widx := widx } = { f s with inp := inp, ring := ring, widx := widx }

theorem txDrain_ignoresReceiver : IgnoresReceiver txDrain := by
  intro s inp ring widx
  obtain ⟨inside, hb, -⟩ | ⟨b, inside, hb, -⟩ | ⟨atEnd, -⟩ := txDrain_cases s
  · simp [txDrain, inside, hb, State.eventRaised]
  · simp [txDrain, inside, hb, clearsOnWrite]
  · simp [txDrain, atEnd.not_gt]

theorem txShift_ignoresReceiver : IgnoresReceiver txShift := by
  intro s inp ring widx
  obtain ⟨hb, -⟩ | ⟨b, hb, -⟩ := txShift_cases s
  · simp [txShift, hb, State.eventRaised]
  · simp [txShift, hb]

theorem IgnoresReceiver.kept (ignores : IgnoresReceiver f) (s : State) :
    (f s).inp = s.inp ∧ (f s).ring = s.ring ∧ (f s).widx = s.widx := by
  have same : f s = { f s with inp := s.inp, ring := s.ring, widx := s.widx } := ignores s s.inp s.ring s.widx
  refine ⟨?_, ?_, ?_⟩ <;> rw [same]

theorem IgnoresReceiver.rxPush_comm (ignores : IgnoresReceiver f) (s : State) : rxPush (f s) = f (rxPush s) := by
  obtain ⟨inp, ring, widx⟩ := ignores.kept s
  cases hin : s.inp with
  | nil => simp only [rxPush, inp, hin]
  | cons b rest =>
    rw [rxPush_cons hin, rxPush_cons (inp.trans hin), ring, widx]
    exact (ignores s rest (s.ring.write s.widx.toNat b) (s.widx + 1#8)).symm

theorem State.enabled_transmit_rxPush (s : State) (ha : a = .txi ∨ a = .txs) :
    (rxPush s).enabled a = s.enabled a := by
  unfold rxPush
  obtain rfl | rfl := ha <;> split <;> rfl

/-- A step that ignores the receiver and raises no fault may come before or after RX_PUSH. -/
theorem IgnoresReceiver.orders_agree (ignores : IgnoresReceiver f) (ha : a = .txi ∨ a = .txs)
    (runsAs : ∀ u : State, u.enabled a = true → turn a u = .next (f u)) (unfaulted : (f s).fault = s.fault)
    (push : s.enabled .rxi = true) (event : s.enabled a = true) :
    ∃ u v t, turn .rxi s = .next u ∧ turn a s = .next v ∧ turn a u = .next t ∧ turn .rxi v = .next t := by
  have eventAfter : (rxPush s).enabled a = true := (s.enabled_transmit_rxPush ha).trans event
  obtain ⟨hf, bytes⟩ := State.enabled_rxi_iff.mp push
  have pushAfter : (f s).enabled .rxi = true :=
    State.enabled_rxi_iff.mpr ⟨unfaulted.trans hf, (ignores.kept s).1 ▸ bytes⟩
  exact ⟨_, _, _, turn_rxi_of_enabled push, runsAs s event, runsAs _ eventAfter,
    (turn_rxi_of_enabled pushAfter).trans (congrArg _ (ignores.rxPush_comm s))⟩

theorem TransmitInv.txDrain_fault (h : TransmitInv s) (armed : s.txie = true) : (txDrain s).fault = s.fault := by
  obtain ⟨inside, unwritten, -⟩ | ⟨b, -, -, h'⟩ | ⟨-, h'⟩ := txDrain_cases s
  · exact absurd unwritten (h.read_of_armed armed inside)
  · rw [h']
  · rw [h']

theorem TransmitInv.txShift_fault (h : TransmitInv s) (full : s.txe = false) : (txShift s).fault = s.fault := by
  obtain ⟨unwritten, -⟩ | ⟨b, -, h'⟩ := txShift_cases s
  · obtain ⟨b, hb⟩ := h.data full
    exact absurd (unwritten.symm.trans hb) nofun
  · rw [h']

/-- Settles O53: the transmitter's steps ignore the receiver, and under the invariant they raise no fault that would
stop RX_PUSH. -/
theorem eventOrdersAgree : Obligations.EventOrdersAgree := by
  rintro s a (rfl | rfl) inv push event
  · have armed : s.txie = true := by
      simp only [State.enabled, Bool.and_eq_true] at event
      exact event.1.2
    exact txDrain_ignoresReceiver.orders_agree (.inl rfl) (fun _ enabled => if_pos enabled)
      (inv.txDrain_fault armed) push event
  · have full : s.txe = false := by simpa [State.enabled] using (Bool.and_eq_true_iff.mp event).2
    exact txShift_ignoresReceiver.orders_agree (.inr rfl) (fun _ enabled => if_pos enabled)
      (inv.txShift_fault full) push event

end Sys2Proof.Machine
end

section
/-! The launch's table (R196) and refused launches (R313): the conditions one by one, and what a refusal names. -/

namespace Sys2Proof.Machine

variable {t : List PrefixEntry} {p : Params} {s : State}

/-! ## The conditions of R196 -/

theorem prefixOk_iff {p : List Byte} :
    prefixOk p = true ↔ 1 ≤ p.length ∧ p.length ≤ 14 ∧ p.getLast? = some 0x28#8 := by
  simp only [prefixOk, Bool.and_eq_true, decide_eq_true_eq, beq_iff_eq, and_assoc]
  rfl

theorem kindFits_iff {kind : Kind} {slot : Slot} : kindFits kind slot = true ↔ slot ∈ kindSlots kind := by
  cases kind <;> cases slot <;> decide

theorem anyOverlap_eq_false_iff_pairwise :
    anyOverlap t = false ↔ t.Pairwise fun e f => ¬e.pfx <+: f.pfx ∧ ¬f.pfx <+: e.pfx := by
  induction t with
  | nil => simp [anyOverlap]
  | cons e t ih => simp [anyOverlap, prefixesOverlap, ih]

/-- R196 (e) over the positions of the table. -/
theorem anyOverlap_eq_false_iff :
    anyOverlap t = false ↔
      ∀ (i j : Nat) (e f : PrefixEntry), i ≠ j → t[i]? = some e → t[j]? = some f → ¬e.pfx <+: f.pfx := by
  rw [anyOverlap_eq_false_iff_pairwise, List.pairwise_iff_getElem]
  constructor
  · intro apart i j e f differ hi hj
    obtain ⟨insideI, rfl⟩ := List.getElem?_eq_some_iff.mp hi
    obtain ⟨insideJ, rfl⟩ := List.getElem?_eq_some_iff.mp hj
    obtain before | after := Nat.lt_or_gt_of_ne differ
    · exact (apart i j insideI insideJ before).1
    · exact (apart j i insideJ insideI after).2
  · intro apart i j insideI insideJ before
    have hi := List.getElem?_eq_getElem insideI
    have hj := List.getElem?_eq_getElem insideJ
    exact ⟨apart i j _ _ before.ne hi hj, apart j i _ _ before.ne' hj hi⟩

/-- The checks of R196 in their order: a table has no flaw when none of them finds one. -/
theorem tableFlaw_eq_none_iff :
    tableFlaw t = none ↔
      (∀ e ∈ t, prefixOk e.pfx = true) ∧ (∀ e ∈ t, kindFits e.kind e.slot = true) ∧
        (∀ e ∈ t, e.skip = true → e.kind = .u32) ∧ (∀ e ∈ t, e.kind = .ts → e.pfx.length ≤ 11) ∧
        anyOverlap t = false := by
  simp only [tableFlaw, ite_eq_iff, reduceCtorEq, and_false, false_or, and_true]
  simp

/-- Settles O8: a table has no flaw when none of the five checks finds one. -/
theorem tableAcceptedIffWellFormed : Obligations.TableAcceptedIffWellFormed := by
  intro t
  rw [tableFlaw_eq_none_iff, anyOverlap_eq_false_iff]
  simp only [prefixOk_iff, kindFits_iff]

/-- What a flaw says of the table that has it. -/
def TableFlaw.Breaks (t : List PrefixEntry) : TableFlaw → Prop
  | .badPrefix => ∃ e ∈ t, prefixOk e.pfx = false
  | .kindOfSlot => ∃ e ∈ t, kindFits e.kind e.slot = false
  | .skipKind => ∃ e ∈ t, e.skip = true ∧ e.kind ≠ .u32
  | .tsPrefix => ∃ e ∈ t, e.kind = .ts ∧ 11 < e.pfx.length
  | .overlap => anyOverlap t = true

theorem tableFlaw_breaks {flaw : TableFlaw} (h : tableFlaw t = some flaw) : flaw.Breaks t := by
  simp only [tableFlaw, ite_eq_iff, Option.some.injEq, reduceCtorEq, and_false, or_false, List.any_eq_true,
    Bool.and_eq_true, Bool.not_eq_true', bne_iff_ne, beq_iff_eq, decide_eq_true_eq] at h
  obtain ⟨h, rfl⟩ | ⟨-, ⟨h, rfl⟩ | ⟨-, ⟨h, rfl⟩ | ⟨-, ⟨h, rfl⟩ | ⟨-, h, rfl⟩⟩⟩⟩ := h
  all_goals exact h

/-! ## Refused launches (R313) -/

theorem pktInitBad_eq_false_iff {init : Option (List Byte)} :
    pktInitBad init = false ↔ ∀ image, init = some image → image.length = 60 := by
  cases init <;> simp [pktInitBad, pktSize]

theorem launchRefusal_eq_none_iff :
    launchRefusal p = none ↔
      tableFlaw p.prefixTable = none ∧ p.errFlagBit ≠ p.fatalFlagBit ∧ p.errFlagBit ≤ 31 ∧ p.fatalFlagBit ≤ 31 ∧
        pktInitBad p.pktInit = false := by
  unfold launchRefusal
  cases tableFlaw p.prefixTable with
  | some flaw => simp
  | none =>
    simp only [ite_eq_iff, reduceCtorEq, and_false, false_or, true_and, and_true]
    simp [Nat.lt_succ_iff, and_assoc]

theorem launchRefusal_eq_some {r : Refusal} (h : launchRefusal p = some r) :
    (∃ flaw, r = .prefixTable flaw ∧ tableFlaw p.prefixTable = some flaw) ∨
      (r = .flagBitsEqual ∧ p.errFlagBit = p.fatalFlagBit) ∨
      (r = .flagBitRange ∧ (32 ≤ p.errFlagBit ∨ 32 ≤ p.fatalFlagBit)) ∨
      (r = .pktInitSize ∧ pktInitBad p.pktInit = true) := by
  unfold launchRefusal at h
  split at h
  · cases h
    exact .inl ⟨_, rfl, ‹_›⟩
  · split at h
    · cases h
      exact .inr (.inl ⟨rfl, ‹_›⟩)
    · split at h
      · cases h
        exact .inr (.inr (.inl ⟨rfl, ‹_›⟩))
      · split at h <;> cases h
        exact .inr (.inr (.inr ⟨rfl, ‹_›⟩))

/-! ## No turn refuses -/

theorem whenReady_answers {k : Answer} (hk : ∃ u, k = .next u) : ∃ u, whenReady s k = .next u := by
  unfold whenReady
  split
  · exact ⟨s, rfl⟩
  · split
    · exact hk
    · exact ⟨s, rfl⟩

theorem seeByte_answers (p : Phase) : ∃ u, seeByte p s = .next u := by
  unfold seeByte
  split <;> exact ⟨_, rfl⟩

theorem sendThen_answers {after : State → Answer} (h : ∀ v, ∃ u, after v = .next u) :
    ∃ u, sendThen after s = .next u := by
  unfold sendThen
  split
  · exact ⟨s, rfl⟩
  · split
    · exact ⟨_, rfl⟩
    · exact h _

theorem execCrcSpan_answers (buf off : Byte) (cnt : Word16) : ∃ u, execCrcSpan buf off cnt s = .next u := by
  refine whenReady_answers ?_
  split
  · exact ⟨_, rfl⟩
  · split
    · exact ⟨_, rfl⟩
    · split <;> exact ⟨_, rfl⟩

theorem execPop_answers : ∃ u, execPop s = .next u := by
  unfold execPop popTake
  split
  · exact ⟨s, rfl⟩
  · split
    · exact seeByte_answers _
    · split <;> exact ⟨_, rfl⟩
    · exact ⟨s, rfl⟩

theorem execReadLine_answers : ∃ u, execReadLine s = .next u := by
  unfold execReadLine lineTake
  split
  · exact ⟨s, rfl⟩
  · split
    · exact seeByte_answers _
    · exact seeByte_answers _
    · split
      · exact ⟨_, rfl⟩
      · split <;> exact ⟨_, rfl⟩
    · exact ⟨s, rfl⟩

theorem parseBytes_answers (line : List Byte) : ∃ u, parseBytes line s = .next u := by
  unfold parseBytes
  split
  · exact ⟨_, rfl⟩
  · split
    · exact ⟨_, rfl⟩
    · split <;> exact ⟨_, rfl⟩

theorem execParseLine_answers : ∃ u, execParseLine s = .next u := by
  refine whenReady_answers ?_
  split
  · exact ⟨_, rfl⟩
  · split
    · exact ⟨_, rfl⟩
    · exact parseBytes_answers _

theorem execPktStore_answers (off val : Byte) : ∃ u, execPktStore off val s = .next u := by
  refine whenReady_answers ?_
  split <;> exact ⟨_, rfl⟩

theorem execError_answers (code : Word32) (pay : List Byte) : ∃ u, execError code pay s = .next u := by
  unfold execError
  split
  · exact ⟨s, rfl⟩
  · split
    · exact ⟨_, rfl⟩
    · refine sendThen_answers fun v => ?_
      unfold errorSent
      split <;> exact ⟨_, rfl⟩
    · exact ⟨s, rfl⟩

/-- Every command answers a next state: what it raises is recorded there (R300). -/
theorem exec_answers (i : Instr) : ∃ u, exec i s = .next u := by
  cases i with
  | crcSet | crcByte | pktReset => exact whenReady_answers ⟨_, rfl⟩
  | crcSpan buf off cnt => exact execCrcSpan_answers buf off cnt
  | pop => exact execPop_answers
  | readLine => exact execReadLine_answers
  | parseLine => exact execParseLine_answers
  | pktStore off val => exact execPktStore_answers off val
  | error code pay => exact execError_answers code pay
  | send => exact whenReady_answers (sendThen_answers fun _ => ⟨_, rfl⟩)

theorem turn_answers (a : Agent) : ∃ u, turn a s = .next u := by
  cases a with
  | ctrl =>
    simp only [turn, ctrlTurn]
    split
    · exact ⟨s, rfl⟩
    · split
      · exact ⟨s, rfl⟩
      · exact exec_answers _
      · exact whenReady_answers ⟨_, rfl⟩
  | rxi | txi | txs =>
    simp only [turn]
    split <;> exact ⟨_, rfl⟩

/-- A step refuses exactly where the launch is refused (R313, log 5). -/
theorem step_eq_refused_iff {r : Refusal} : step s = .refused r ↔ launchRefusal s.params = some r := by
  unfold step stepOf
  split
  next named refused => simp [refused]
  next accepted =>
    obtain ⟨u, hu⟩ := turn_answers (s := s.spendTurn) s.chosen
    rw [accepted, hu]
    split <;> simp

theorem launch_eq_refused_iff {cmd inp : List Byte} {r : Refusal} :
    launch p cmd inp = .refused r ↔ launchRefusal p = some r := by
  unfold launch
  split <;> simp [*]

/-- Settles O9: the two checks, of the parameters and of the table, each name a condition that is broken; and no turn
refuses by itself. -/
theorem refusedLaunchDoesNotRun : Obligations.RefusedLaunchDoesNotRun := by
  refine ⟨fun p => ?_, fun s r => step_eq_refused_iff.symm, fun p cmd inp r => launch_eq_refused_iff.symm,
    fun p r refused => ?_, fun t flaw flawed => ?_⟩
  · rw [launchRefusal_eq_none_iff, pktInitBad_eq_false_iff]
  · have size : pktInitBad p.pktInit = true → ∃ image, p.pktInit = some image ∧ image.length ≠ 60 := by
      rw [← Bool.not_eq_false, pktInitBad_eq_false_iff]
      push Not
      exact id
    exact (launchRefusal_eq_some refused).imp_right (.imp_right (.imp_right (.imp_right size)))
  · have breaks := tableFlaw_breaks flawed
    cases flaw with
    | badPrefix =>
      obtain ⟨e, he, bad⟩ := breaks
      refine ⟨e, he, ?_⟩
      rw [← Bool.not_eq_true, prefixOk_iff] at bad
      by_contra! ok
      exact bad ⟨Nat.pos_of_ne_zero ok.1, ok.2⟩
    | kindOfSlot =>
      obtain ⟨e, he, unfit⟩ := breaks
      rw [← Bool.not_eq_true, kindFits_iff] at unfit
      exact ⟨e, he, unfit⟩
    | skipKind => exact breaks
    | tsPrefix => exact breaks
    | overlap =>
      have overlap : anyOverlap t = true := breaks
      rw [← Bool.not_eq_false, anyOverlap_eq_false_iff] at overlap
      push Not at overlap
      exact overlap

end Sys2Proof.Machine
end

section
/-! PARSE_LINE (R205 to R218): the matching entry, the digit scan, the timestamp fields, and the command's
outcomes. -/

namespace Sys2Proof.Machine

variable {s : State} {table : List PrefixEntry} {e : PrefixEntry} {i k m v : Nat} {c : FaultCause}
  {line field stamp body digits tail : List Byte} {term flag : Byte} {kind : Kind} {skip : Bool} {conv : TimeConv}

/-! ## The matching entry (R201, R205) -/

theorem findEntry_eq_none (unmatched : ∀ e ∈ table, ¬e.pfx <+: line) : findEntry line k table = none := by
  induction table generalizing k with
  | nil => rfl
  | cons e table ih =>
    rw [List.forall_mem_cons] at unmatched
    rw [findEntry, if_neg (by simpa using unmatched.1), ih unmatched.2]

theorem findEntry_matches (h : findEntry line k table = some (i, e)) : e ∈ table ∧ e.pfx <+: line := by
  induction table generalizing k with
  | nil => cases h
  | cons f table ih =>
    unfold findEntry at h
    split at h
    · cases h
      exact ⟨List.mem_cons_self, List.isPrefixOf_iff_prefix.mp ‹_›⟩
    · exact (ih h).imp_left (List.mem_cons_of_mem f)

/-- The first entry whose `pfx` begins the line is the match. -/
theorem findEntry_of_first (entry : table[i]? = some e) (begins : e.pfx <+: line)
    (first : ∀ j f, j < i → table[j]? = some f → ¬f.pfx <+: line) : findEntry line k table = some (k + i, e) := by
  induction table generalizing i k with
  | nil => simp at entry
  | cons f table ih =>
    cases i with
    | zero =>
      obtain rfl : f = e := by simpa using entry
      rw [findEntry, if_pos (by simpa using begins), Nat.add_zero]
    | succ i =>
      have other : ¬f.pfx <+: line := first 0 f (Nat.succ_pos i) rfl
      rw [findEntry, if_neg (by simpa using other),
        ih (by simpa using entry) fun j g before hg => first (j + 1) g (Nat.succ_lt_succ before) (by simpa using hg),
        Nat.add_right_comm, Nat.add_assoc]

/-- In an accepted table no other entry's `pfx` begins the line (R196 (e)). -/
theorem findEntry_of_accepted (accepted : tableFlaw table = none) (entry : table[i]? = some e)
    (begins : e.pfx <+: line) : findEntry line 0 table = some (i, e) := by
  obtain ⟨-, -, -, -, apart⟩ := tableFlaw_eq_none_iff.mp accepted
  rw [anyOverlap_eq_false_iff] at apart
  have first : ∀ j f, j < i → table[j]? = some f → ¬f.pfx <+: line := by
    intro j f before hf other
    obtain nested | nested := List.prefix_or_prefix_of_prefix other begins
    · exact apart j i f e before.ne hf entry nested
    · exact apart i j e f before.ne' entry hf nested
  rw [findEntry_of_first entry begins first, Nat.zero_add]

/-! ## Numbers (R212 to R215) -/

theorem isDigit_iff {c : Byte} : isDigit c = true ↔ 0x30 ≤ c.toNat ∧ c.toNat ≤ 0x39 := by
  simp only [isDigit, Bool.and_eq_true, decide_eq_true_eq]

theorem skipToParen_eq_none (absent : 0x28#8 ∉ field) : skipToParen field = none := by
  induction field with
  | nil => rfl
  | cons b field ih =>
    rw [List.mem_cons, not_or] at absent
    rw [skipToParen, if_neg (Ne.symm absent.1), ih absent.2]

theorem skipToParen_append (absent : 0x28#8 ∉ stamp) : skipToParen (stamp ++ 0x28#8 :: tail) = some tail := by
  induction stamp with
  | nil => rfl
  | cons b stamp ih =>
    rw [List.mem_cons, not_or] at absent
    rw [List.cons_append, skipToParen, if_neg (Ne.symm absent.1), ih absent.2]

theorem skipToParen_suffix (h : skipToParen field = some body) : body <:+ field := by
  induction field with
  | nil => cases h
  | cons b field ih =>
    unfold skipToParen at h
    split at h
    · obtain rfl := Option.some.inj h
      exact List.suffix_cons b field
    · exact (ih h).trans (List.suffix_cons b field)

theorem scanStart_suffix (h : scanStart skip field = some body) : body <:+ field := by
  cases skip with
  | false => cases h; exact List.suffix_rfl
  | true => exact skipToParen_suffix h

theorem scanDigits_eq_none (absent : term ∉ body) : scanDigits term m v body = none := by
  induction body generalizing v with
  | nil => rfl
  | cons b body ih =>
    rw [List.mem_cons, not_or] at absent
    rw [scanDigits, if_neg (Ne.symm absent.1), ih absent.2, ih absent.2, ite_self]

/-- Reducing modulo `m` at every digit is reducing once at the end (R215). -/
theorem scanDigits_append (absent : term ∉ body) :
    scanDigits term m (v % m) (body ++ term :: tail) =
      some ((body.filter isDigit).foldl (fun v c => 10 * v + (c.toNat - 0x30)) v % m) := by
  induction body generalizing v with
  | nil => simp [scanDigits]
  | cons b body ih =>
    rw [List.mem_cons, not_or] at absent
    rw [List.cons_append, scanDigits, if_neg (Ne.symm absent.1)]
    split
    next digit =>
      have step : (10 * (v % m) + digitValue b) % m = (10 * v + (b.toNat - 0x30)) % m := by
        simp [digitValue, Nat.add_mod, Nat.mul_mod]
      rw [step, ih absent.2, List.filter_cons_of_pos digit, List.foldl_cons]
    next other => rw [ih absent.2, List.filter_cons_of_neg other]

theorem extractNum_eq_ok (start : scanStart skip field = some (body ++ terminator kind :: tail))
    (absent : terminator kind ∉ body) :
    extractNum kind skip field = .ok (decimalValue (body.filter isDigit) % 2 ^ kindBits kind) := by
  have scanned := scanDigits_append (v := 0) (m := 2 ^ kindBits kind) (tail := tail) absent
  rw [Nat.zero_mod] at scanned
  simp only [extractNum, start, scanned, decimalValue]

theorem extractNum_eq_error (absent : ∀ body, scanStart skip field = some body → terminator kind ∉ body) :
    extractNum kind skip field = .error .parseUnterminated := by
  unfold extractNum
  split
  next => rfl
  next body start => rw [scanDigits_eq_none (absent body start)]

/-- A terminator that the line does not hold is not met wherever the scan starts. -/
theorem extractNum_of_absent (absent : terminator kind ∉ field) :
    extractNum kind skip field = .error .parseUnterminated :=
  extractNum_eq_error fun _ start present => absent ((scanStart_suffix start).mem present)

/-! ## Timestamps (R216 to R218) -/

theorem twoDigits_append (inside : k + 1 < digits.length) :
    twoDigits (digits ++ tail) k = (decimalValue ((digits.drop k).take 2) : Int) := by
  have pair : (digits.drop k).take 2 = [digits[k], digits[k + 1]] := by
    rw [List.drop_eq_getElem_cons (by omega), List.drop_eq_getElem_cons inside]
    rfl
  have before : k < digits.length := by omega
  rw [twoDigits, pair, List.getD_append _ _ _ _ before, List.getD_append _ _ _ _ inside,
    List.getD_eq_getElem _ _ before, List.getD_eq_getElem _ _ inside]
  simp [decimalValue, digitValue]

theorem extractTs_eq_ok {isdst : Int} (length : digits.length = 12) (all : ∀ b ∈ digits, isDigit b = true)
    (known : dstFlag flag = some isdst) :
    extractTs conv (digits ++ flag :: tail) =
      .ok (timeConv conv (decimalValue ((digits.drop 0).take 2)) (decimalValue ((digits.drop 2).take 2))
        (decimalValue ((digits.drop 4).take 2)) (decimalValue ((digits.drop 6).take 2))
        (decimalValue ((digits.drop 8).take 2)) (decimalValue ((digits.drop 10).take 2)) isdst) := by
  have front : ((List.range 12).all fun k => isDigit ((digits ++ flag :: tail).getD k 0#8)) = true := by
    refine List.all_eq_true.mpr fun k hk => ?_
    have inside : k < digits.length := by simpa [length] using hk
    rw [List.getD_append _ _ _ _ inside, List.getD_eq_getElem _ _ inside]
    exact all _ (List.getElem_mem inside)
  have next : (digits ++ flag :: tail).getD 12 0#8 = flag := by simp [List.getD, ← length]
  have fields : ∀ k, k + 1 < 12 →
      twoDigits (digits ++ flag :: tail) k = (decimalValue ((digits.drop k).take 2) : Int) :=
    fun k inside => twoDigits_append (by omega)
  rw [extractTs, if_pos front, next, known]
  simp only [fields 0, fields 2, fields 4, fields 6, fields 8, fields 10, Nat.reduceAdd, Nat.reduceLT]

theorem extractTs_of_nonDigit (inside : k < 12) (bad : isDigit (field.getD k 0#8) = false) :
    extractTs conv field = .error .parseMalformed := by
  refine if_neg fun all => ?_
  exact absurd (List.all_eq_true.mp all k (List.mem_range.mpr inside)) (by rw [bad]; decide)

theorem extractTs_of_badFlag (bad : dstFlag (field.getD 12 0#8) = none) :
    extractTs conv field = .error .parseMalformed := by
  unfold extractTs
  rw [bad]
  exact ite_self _

/-! ## The command at READY (R210) -/

theorem extract_of_ts (ts : e.kind = .ts) : extract conv e (e.pfx ++ field) = extractTs conv field := by
  simp [extract, ts]

theorem extract_of_number (number : e.kind ≠ .ts) :
    extract conv e (e.pfx ++ field) = extractNum e.kind e.skip field := by
  unfold extract
  split
  · contradiction
  · simp

theorem noMatch_completed (ready : s.ready) :
    complete 1 s.noMatch = .next { s with matched := false, midx := 0xFF#8, cix := s.cix + 1 } := by
  rw [complete_eq, State.completed_of_ready (s := s.noMatch) ready]
  rfl

theorem exec_parseLine_of_short (ready : s.ready) (short : s.len.toNat < 14) :
    exec .parseLine s = .next { s with matched := false, midx := 0xFF#8, cix := s.cix + 1 } := by
  rw [exec, execParseLine, whenReady_of_ready _ ready.1 ready.2,
    if_pos (show s.len.toNat < minLine from short), noMatch_completed ready]

theorem exec_parseLine_of_long (ready : s.ready) (long : 14 ≤ s.len.toNat)
    (hline : s.line.readSpan 0 s.len.toNat = some line) : exec .parseLine s = parseBytes line s := by
  rw [exec, execParseLine, whenReady_of_ready _ ready.1 ready.2,
    if_neg (show ¬s.len.toNat < minLine from Nat.not_lt.mpr long), hline]

/-- Settles O27: no entry matches, or the matching one is a timestamp entry and the line is short. -/
theorem parseLineNoMatch : Obligations.ParseLineNoMatch := by
  refine fun s ready => ⟨exec_parseLine_of_short ready, fun line long hline unmatched => ?_⟩
  rw [exec_parseLine_of_long ready long hline, parseBytes]
  split
  next => exact noMatch_completed ready
  next i e found =>
    obtain ⟨member, begins⟩ := findEntry_matches found
    rw [if_pos (Memory.readSpan_length hline ▸ unmatched e member begins), noMatch_completed ready]

section matched
variable (ready : s.ready) (accepted : tableFlaw s.params.prefixTable = none)
  (entry : s.params.prefixTable[i]? = some e) (long : 14 ≤ s.len.toNat)
  (hline : s.line.readSpan 0 s.len.toNat = some (e.pfx ++ field)) (whole : e.kind = .ts → 24 ≤ s.len.toNat)
include ready accepted entry long hline whole

/-- A line that begins with an accepted entry's `pfx` stores the value extracted, or raises the extraction's fault. -/
theorem exec_parseLine_of_match :
    (∀ v, extract s.params.timeConv e (e.pfx ++ field) = .ok v →
      exec .parseLine s =
        .next
          { s with pkt := writeSlot s.pkt e.slot v, matched := true, midx := midxOf i, cix := s.cix + 1 }) ∧
    ∀ c, extract s.params.timeConv e (e.pfx ++ field) = .error c → exec .parseLine s = .next (s.raised c) := by
  have found := findEntry_of_accepted accepted entry (List.prefix_append e.pfx field)
  have notShort : ¬(e.kind = .ts ∧ (e.pfx ++ field).length < minTsLine) := by
    rw [Memory.readSpan_length hline]
    exact fun ⟨ts, short⟩ => Nat.not_lt.mpr (whole ts) short
  rw [exec_parseLine_of_long ready long hline, parseBytes, found]
  refine ⟨fun v value => ?_, fun c fault => ?_⟩
  · have completed := State.completed_of_ready
      (s := ({ s with pkt := writeSlot s.pkt e.slot v } : State).matchAt i) ready 1
    simp only [if_neg notShort, value, complete_eq, completed]
    rfl
  · simp only [if_neg notShort, fault, raise_eq]

end matched

/-! ## The outcomes of a match -/

/-- R196 (c), of one entry. -/
theorem kind_of_skip (accepted : tableFlaw table = none) (entry : table[i]? = some e) (skips : e.skip = true) :
    e.kind = .u32 := by
  obtain ⟨-, -, skipKind, -, -⟩ := tableFlaw_eq_none_iff.mp accepted
  exact skipKind e (List.mem_of_getElem? entry) skips

/-- R196 (b), of one entry. -/
theorem slot_of_kind (accepted : tableFlaw table = none) (entry : table[i]? = some e) :
    e.slot ∈ kindSlots e.kind := by
  obtain ⟨-, fits, -, -, -⟩ := tableFlaw_eq_none_iff.mp accepted
  exact kindFits_iff.mp (fits e (List.mem_of_getElem? entry))

/-- Settles O28: the scan starts right after the entry's `pfx` and ends at the entry's own terminator. -/
theorem parseLineStoresNumber : Obligations.ParseLineStoresNumber := by
  refine ⟨fun i below => if_pos below, ?_⟩
  intro s i e body tail term bits ready accepted entry numeric plain absent long hline
  obtain ⟨number, rfl, rfl⟩ : e.kind ≠ .ts ∧ term = terminator e.kind ∧ bits = kindBits e.kind := by
    obtain ⟨hk, rfl, rfl⟩ | ⟨hk, rfl, rfl⟩ | ⟨hk, rfl, rfl⟩ := numeric <;> rw [hk] <;> exact ⟨nofun, rfl, rfl⟩
  rw [List.append_assoc] at hline
  have start : scanStart e.skip (body ++ terminator e.kind :: tail) = some (body ++ terminator e.kind :: tail) := by
    rw [plain]
    rfl
  have value := extractNum_eq_ok start absent
  exact (exec_parseLine_of_match ready accepted entry long hline fun ts => absurd ts number).1 _
    ((extract_of_number number).trans value)

/-- Settles O29: the scan starts after the next `(`, and a slot of kind U32 has 4 bytes. -/
theorem parseLineSkipsTimestamp : Obligations.ParseLineSkipsTimestamp := by
  intro s i e stamp body tail ready accepted entry skips noParen absent long hline
  have kind := kind_of_skip accepted entry skips
  have number : e.kind ≠ .ts := by rw [kind]; nofun
  have width : slotWidth e.slot = 4 := by
    have slot := slot_of_kind accepted entry
    rw [kind] at slot
    revert slot
    cases e.slot <;> decide
  have field : e.pfx ++ stamp ++ 0x28#8 :: body ++ 0x2A#8 :: tail =
      e.pfx ++ (stamp ++ 0x28#8 :: (body ++ 0x2A#8 :: tail)) := by simp
  rw [field] at hline
  have start : scanStart e.skip (stamp ++ 0x28#8 :: (body ++ 0x2A#8 :: tail)) =
      some (body ++ terminator e.kind :: tail) := by
    rw [skips, kind]
    exact skipToParen_append noParen
  have value := extractNum_eq_ok start (by rw [kind]; exact absent)
  have stored := (exec_parseLine_of_match ready accepted entry long hline fun ts => absurd ts number).1 _
    ((extract_of_number number).trans value)
  rw [stored, writeSlot, Memory.writeLe, width, kind]
  rfl

/-- Settles O30: the twelve digits and the flag stand right after the entry's `pfx`, and the slot of kind TS is F0. -/
theorem parseLineStoresTimestamp : Obligations.ParseLineStoresTimestamp := by
  intro s i e digits tail flag isdst num ready accepted entry ts length all flagged fields whole hline
  have slot : e.slot = .timestamp := by
    have slot := slot_of_kind accepted entry
    rw [ts] at slot
    exact List.mem_singleton.mp slot
  have known : dstFlag flag = some isdst := by
    obtain ⟨rfl, rfl⟩ | ⟨rfl, rfl⟩ := flagged <;> rfl
  rw [List.append_assoc] at hline
  have value := extractTs_eq_ok (conv := s.params.timeConv) (tail := tail) length
    (fun b hb => isDigit_iff.mpr (all b hb)) known
  have stored := (exec_parseLine_of_match ready accepted entry (by omega) hline fun _ => whole).1 _
    ((extract_of_ts ts).trans value)
  rw [stored, slot]
  simp only [fields]
  rfl

/-- R213, R214: where the scan of an accepted entry does not end. -/
theorem extractNum_of_endless (accepted : tableFlaw table = none) (entry : table[i]? = some e)
    (endless : (e.kind = .u8 ∧ 0x29#8 ∉ field) ∨ ((e.kind = .u16 ∨ e.kind = .u32) ∧ 0x2A#8 ∉ field) ∨
      (e.skip = true ∧
        (0x28#8 ∉ field ∨ ∃ stamp body, field = stamp ++ 0x28#8 :: body ∧ 0x28#8 ∉ stamp ∧ 0x2A#8 ∉ body))) :
    e.kind ≠ .ts ∧ extractNum e.kind e.skip field = .error .parseUnterminated := by
  obtain ⟨hk, absent⟩ | ⟨hk | hk, absent⟩ | ⟨skips, rest⟩ := endless
  · exact ⟨by rw [hk]; nofun, extractNum_of_absent (by rwa [hk])⟩
  · exact ⟨by rw [hk]; nofun, extractNum_of_absent (by rwa [hk])⟩
  · exact ⟨by rw [hk]; nofun, extractNum_of_absent (by rwa [hk])⟩
  · rw [kind_of_skip accepted entry skips, skips]
    refine ⟨nofun, extractNum_eq_error fun scanned start => ?_⟩
    obtain noParen | ⟨stamp, body, rfl, noParen, absent⟩ := rest
    · exact absurd (start.symm.trans (skipToParen_eq_none noParen)) nofun
    · obtain rfl : body = scanned := Option.some.inj ((skipToParen_append noParen).symm.trans start)
      exact absent

/-- R217, R218: a byte of the twelve that is no digit, or a flag that is neither 'S' nor 'W'. -/
theorem extractTs_of_malformed
    (malformed : (∃ k c, k < 12 ∧ field[k]? = some c ∧ (c.toNat < 0x30 ∨ 0x39 < c.toNat)) ∨
      ∃ c, field[12]? = some c ∧ c ≠ 0x53#8 ∧ c ≠ 0x57#8) :
    extractTs conv field = .error .parseMalformed := by
  obtain ⟨k, c, inside, hc, bad⟩ | ⟨c, hc, notS, notW⟩ := malformed
  · refine extractTs_of_nonDigit inside ?_
    rw [List.getD_eq_getElem?_getD, hc, Option.getD_some, ← Bool.not_eq_true, isDigit_iff]
    omega
  · refine extractTs_of_badFlag ?_
    rw [List.getD_eq_getElem?_getD, hc, Option.getD_some, dstFlag, if_neg notS, if_neg notW]

/-- Settles O31: a scan that does not end, or a malformed timestamp, makes the extraction fault. -/
theorem parseLineRaises : Obligations.ParseLineRaises := by
  intro s i e field ready accepted entry long hline
  refine ⟨fun endless => ?_, fun ts whole malformed => ?_⟩
  · obtain ⟨number, fault⟩ := extractNum_of_endless accepted entry endless
    exact (exec_parseLine_of_match ready accepted entry long hline fun ts => absurd ts number).2 _
      ((extract_of_number number).trans fault)
  · exact (exec_parseLine_of_match ready accepted entry long hline fun _ => whole).2 _
      ((extract_of_ts ts).trans (extractTs_of_malformed malformed))

end Sys2Proof.Machine
end

section
/-! `time_conv` (R219) counts the days of the Gregorian calendar: its quotients count the leap years, and its months
begin in March. -/

namespace Sys2Proof.Machine

/-- The leap years among the years 1 to `y`, by the quotients of R219. -/
def leapsUpTo (y : Nat) : Nat :=
  y / 4 - y / 100 + y / 400

theorem leapYear_iff {y : Nat} : leapYear y = true ↔ (4 ∣ y ∧ ¬100 ∣ y) ∨ 400 ∣ y := by
  simp [leapYear, Nat.dvd_iff_mod_eq_zero]

theorem leapsUpTo_succ (y : Nat) : leapsUpTo (y + 1) = leapsUpTo y + if leapYear (y + 1) then 1 else 0 := by
  have centuries : y / 100 ≤ y / 4 := Nat.div_le_div_left (by decide) (by decide)
  have fourth : 100 ∣ y + 1 → 4 ∣ y + 1 := (by decide : 4 ∣ 100).trans
  have hundredth : 400 ∣ y + 1 → 100 ∣ y + 1 := (by decide : 100 ∣ 400).trans
  simp only [leapsUpTo, Nat.succ_div, leapYear_iff]
  by_cases h400 : 400 ∣ y + 1
  · simp only [h400, hundredth h400, fourth (hundredth h400), if_true, or_true]
    omega
  · by_cases h100 : 100 ∣ y + 1
    · simp only [h400, h100, fourth h100, not_true, and_false, or_false, if_true, if_false]
      omega
    · simp only [h400, h100, not_false_iff, and_true, or_false, if_false]
      omega

theorem leapsUpTo_cast (y : Nat) : (leapsUpTo y : Int) = (y : Int) / 4 - (y : Int) / 100 + (y : Int) / 400 := by
  unfold leapsUpTo
  omega

/-- 477 leap years lie before 1970. -/
theorem daysToYear_eq (n : Nat) : daysToYear n + 477 = 365 * n + leapsUpTo (1969 + n) := by
  induction n with
  | zero => rfl
  | succ n ih =>
    have leaps := leapsUpTo_succ (1969 + n)
    rw [show 1969 + n + 1 = 1970 + n by omega] at leaps
    rw [daysToYear, show 1969 + (n + 1) = 1970 + n by omega, leaps]
    split <;> omega

/-- January and February come before the leap day; from March on R219's own formula counts the months. -/
theorem daysToMonth_eq (y : Nat) {m : Nat} (h : m < 12) :
    (daysToMonth y m : Int) =
      if m < 2 then 31 * (m : Int) else (153 * ((m : Int) - 2) + 2) / 5 + 59 + if leapYear y then 1 else 0 := by
  interval_cases m <;> cases leap : leapYear y <;> simp [daysToMonth, monthDays, leap]

/-- R219's year begins in March, and the quotients of the era and the year of the era are those of that year itself. -/
theorem daysFromCivil_eq (y m d : Int) {y' : Int} (h : y' = y - if m ≤ 2 then 1 else 0) :
    daysFromCivil y m d =
      365 * y' + (y' / 4 - y' / 100 + y' / 400) + ((153 * ((m + 9) % 12) + 2) / 5 + d - 1) - 719468 := by
  simp only [daysFromCivil, ← h]
  omega

/-- The day number of the first of a month. -/
theorem daysFromCivil_first (yy : Nat) {m : Nat} (h : m < 12) :
    daysFromCivil (2000 + yy) (m + 1) 1 = daysToYear (30 + yy) + daysToMonth (2000 + yy) m := by
  have years := daysToYear_eq (30 + yy)
  rw [show 1969 + (30 + yy) = 1999 + yy by omega] at years
  have leaps := leapsUpTo_succ (1999 + yy)
  rw [show 1999 + yy + 1 = 2000 + yy by omega] at leaps
  rw [daysToMonth_eq _ h]
  split
  next early =>
    have year : ((1999 + yy : Nat) : Int) = 2000 + yy - if (m : Int) + 1 ≤ 2 then 1 else 0 := by
      rw [if_pos (by omega)]
      omega
    rw [daysFromCivil_eq _ _ _ year, ← leapsUpTo_cast]
    omega
  next late =>
    have year : ((2000 + yy : Nat) : Int) = 2000 + yy - if (m : Int) + 1 ≤ 2 then 1 else 0 := by
      rw [if_neg (by omega)]
      omega
    rw [daysFromCivil_eq _ _ _ year, ← leapsUpTo_cast, leaps]
    split <;> omega

/-- Settles O32: inside a year the month carries nothing, and twelve months carry exactly one year. -/
theorem timeConvCountsGregorianDays : Obligations.TimeConvCountsGregorianDays := by
  refine ⟨fun conv yy mm dd hh mi ss isdst first last => ?_, fun conv yy mm dd hh mi ss isdst => ?_⟩
  · obtain ⟨m, rfl⟩ := Nat.exists_eq_add_of_le' first
    have month : ((m + 1 : Nat) : Int) - 1 = m := by omega
    have carried : (m : Int) / 12 = 0 := by omega
    have kept : (m : Int) % 12 = m := by omega
    have days := daysFromCivil_first yy (m := m) (by omega)
    simp only [timeConv, month, carried, kept, add_zero, days, Nat.add_sub_cancel]
    exact Int.toNat_of_nonneg (Int.emod_nonneg _ (by decide))
  · have year : 2000 + yy + (mm + 12 - 1) / 12 = 2000 + (yy + 1) + (mm - 1) / 12 := by omega
    have month : (mm + 12 - 1) % 12 = (mm - 1) % 12 := by omega
    simp only [timeConv, year, month]

end Sys2Proof.Machine
end

section
/-! The commands that write the record: PKT_RESET and PKT_STORE (R190, R192), and the frame of all of them with
PARSE_LINE, ERROR and SEND (R220, R242, R270). -/

namespace Sys2Proof.Machine

variable {s t : State} {pkt m : Memory} {pay : List Byte} {code : Word32} {p : Params} {a : Nat}

/-! ## PKT_RESET (R190) -/

theorem read_reset (h : a < 60) : (pkt.writeBytes 0 sentinelRecord).read a = sentinelRecord[a]? := by
  rw [Memory.read_writeBytes, sentinelRecord_length, if_pos (by omega)]
  rfl

theorem read_reset_other (outside : 60 ≤ a) : (pkt.writeBytes 0 sentinelRecord).read a = pkt.read a := by
  refine Memory.read_writeBytes_other (.inr ?_)
  rwa [sentinelRecord_length, Nat.zero_add]

theorem sentinelRecord_fields : ∀ a, a < 58 → 3 ≤ a → sentinelRecord[a]? = some 0xFF#8 := by decide

theorem leValue_replicate_max (n : Nat) : leValue (List.replicate n 0xFF#8) = 2 ^ (8 * n) - 1 := by
  induction n with
  | zero => rfl
  | succ n ih =>
    rw [List.replicate_succ, leValue, ih, Nat.mul_succ, Nat.pow_add]
    have := Nat.two_pow_pos (8 * n)
    simp only [BitVec.toNat_ofNat]
    omega

theorem readSlot_reset (slot : Slot) :
    readSlot (pkt.writeBytes 0 sentinelRecord) slot = some (2 ^ (8 * slotWidth slot) - 1) := by
  obtain ⟨low, high⟩ := slot_between slot
  have bytes : (pkt.writeBytes 0 sentinelRecord).readSpan (slotOffset slot) (slotWidth slot) =
      some (List.replicate (slotWidth slot) 0xFF#8) := by
    refine Memory.readSpan_eq_some.mpr ⟨List.length_replicate, fun k hk => ?_⟩
    unfold checksumOffset at high
    rw [read_reset (by omega), sentinelRecord_fields _ (by omega) (by omega), List.getElem?_replicate_of_lt hk]
  rw [readSlot, Memory.readLe, bytes, Option.map_some, leValue_replicate_max]

theorem exec_pktReset_of_ready (ready : s.ready) :
    exec .pktReset s = .next { s with pkt := s.pkt.writeBytes 0 sentinelRecord, cix := s.cix + 1 } := by
  have completed := State.completed_of_ready (s := { s with pkt := s.pkt.writeBytes 0 sentinelRecord })
    ⟨ready.1, ready.2⟩ 1
  rw [exec, execPktReset, whenReady_of_ready _ ready.1 ready.2, complete_eq, completed]

/-- Settles O25: the record is the 60 sentinel bytes written over the old one. -/
theorem pktResetFillsRecord : Obligations.PktResetFillsRecord := by
  intro s ready
  have reset := exec_pktReset_of_ready ready
  have slots := readSlot_reset (pkt := s.pkt)
  have outside : ∀ a, 60 ≤ a → (s.pkt.writeBytes 0 sentinelRecord).read a = s.pkt.read a := fun a => read_reset_other
  have inside : ∀ a, a < 60 → (s.pkt.writeBytes 0 sentinelRecord).read a = sentinelRecord[a]? := fun a => read_reset
  -- from here on the record is opaque: unifying against its 60 writes is what would be costly
  generalize s.pkt.writeBytes 0 sentinelRecord = m at reset slots outside inside
  exact ⟨_, reset, rfl, inside 0 (by decide), inside 1 (by decide), inside 2 (by decide),
    fun a low high => (inside a (by omega)).trans (sentinelRecord_fields a (by omega) low), inside 58 (by decide),
    inside 59 (by decide), outside, slots⟩

/-! ## PKT_STORE (R192) -/

theorem exec_pktStore_of_ready (ready : s.ready) {off : Byte} (inside : off.toNat < 60) (val : Byte) :
    exec (.pktStore off val) s = .next { s with pkt := s.pkt.write off.toNat val, cix := s.cix + 3 } := by
  have completed := State.completed_of_ready (s := { s with pkt := s.pkt.write off.toNat val }) ready 3
  rw [exec, execPktStore, whenReady_of_ready _ ready.1 ready.2, if_neg (show ¬pktSize ≤ off.toNat from inside.not_ge),
    complete_eq, completed]

theorem exec_pktStore_of_outside (ready : s.ready) {off : Byte} (outside : 60 ≤ off.toNat) (val : Byte) :
    exec (.pktStore off val) s = .next (s.raised .spanOutOfRange) := by
  rw [exec, execPktStore, whenReady_of_ready _ ready.1 ready.2, if_pos (show pktSize ≤ off.toNat from outside),
    raise_eq]

/-- Settles O26: the offset decides, and the opcode map gives the length 3. -/
theorem pktStoreWritesOneByte : Obligations.PktStoreWritesOneByte :=
  ⟨fun s off val ready inside =>
      ⟨exec_pktStore_of_ready ready inside val, fun a => Memory.read_write s.pkt off.toNat a val⟩,
    fun _ _ val ready outside => exec_pktStore_of_outside ready outside val,
    fun _ short => decode_truncated_iff.mpr (.inr (.inr (.inr (.inl ⟨rfl, Nat.succ_lt_succ short⟩))))⟩

/-! ## What each form stores -/

theorem read_writeSlot_other {slot : Slot} {v : Nat}
    (outside : a < slotOffset slot ∨ slotOffset slot + slotWidth slot ≤ a) :
    (writeSlot pkt slot v).read a = pkt.read a :=
  Memory.read_writeLe_other outside

theorem read_stamped_other (h : stamped pkt = some m) (first : a ≠ 56) (second : a ≠ 57) : m.read a = pkt.read a := by
  unfold stamped at h
  split at h <;> cases h
  refine Memory.read_writeLe_other ?_
  unfold checksumOffset
  omega

/-- R273: the residue lies between the payload and the checksum's end, and `retain` writes none. -/
theorem read_writeResidue_other {r : Residue} {l : Nat} (fits : l ≤ 50)
    (outside : a < 3 ∨ 58 ≤ a ∨ (r = .retain ∧ 8 + l ≤ a)) : (writeResidue r l pkt).read a = pkt.read a := by
  cases r with
  | retain => rfl
  | zero | sentinel =>
    refine Memory.read_writeBytes_other ?_
    rw [List.length_replicate, errPayloadCap]
    simp at outside
    omega

/-- R270: ERROR's build step stores no byte outside 3..57, and with `retain` none past the payload. -/
theorem read_errorRecord_other
    (outside : a < 3 ∨ 58 ≤ a ∨ (p.errorResidue = .retain ∧ 8 + min pay.length 50 ≤ a)) :
    (errorRecord p code pay pkt).read a = pkt.read a := by
  have fits : errLen pay ≤ 50 := errLen_le pay
  have length : (pay.take (errLen pay)).length ≤ errLen pay := List.length_take_le ..
  have short : errLen pay = min pay.length 50 := rfl
  rw [errorRecord, Memory.read_writeBytes_other (by omega), Memory.read_write_other _ _ (by omega),
    Memory.read_writeLe_other (by omega), read_writeResidue_other fits outside]

/-- R210, R221: PARSE_LINE leaves the record alone, or writes the slot of the entry that its line matches. -/
theorem exec_parseLine_stores (h : exec .parseLine s = .next t) :
    t.pkt = s.pkt ∨ ∃ line i e v, s.line.readSpan 0 s.len.toNat = some line ∧
      findEntry line 0 s.params.prefixTable = some (i, e) ∧ t.pkt = writeSlot s.pkt e.slot v := by
  obtain ⟨-, -, ⟨-, rfl⟩ | ⟨-, rfl⟩ | ⟨line, hline, parsed⟩⟩ | rfl := execParseLine_cases h
  · exact .inl rfl
  · exact .inl rfl
  · obtain rfl | ⟨i, e, v, found, -, rfl⟩ | rfl | rfl := parseBytes_cases parsed
    · exact .inl rfl
    · exact .inr ⟨line, i, e, v, hline, found, rfl⟩
    · exact .inl rfl
    · exact .inl rfl
  · exact .inl rfl

/-- What SEND and ERROR's send step can do: hold, raise a fault, or send the stamped record and go on. -/
theorem exec_sending_cases {i : Instr}
    (sends : i = .send ∨ ∃ code pay fatal, i = .error code pay ∧ s.cph = .snd fatal) (h : exec i s = .next t) :
    t = s ∨ (∃ c, t = s.raised c) ∨ ∃ m record cix cph, stamped s.pkt = some m ∧ record.length = 60 ∧
      t = { startTransmission m record s with cix := cix, cph := cph } := by
  have sent : ∀ u, sendRecord s = .ok u →
      ∃ m record, stamped s.pkt = some m ∧ record.length = 60 ∧ u = startTransmission m record s := by
    intro u sent
    obtain ⟨-, m, record, stamp, span, rfl⟩ := sendRecord_ok sent
    exact ⟨m, record, stamp, Memory.readSpan_length span, rfl⟩
  obtain rfl | ⟨code, pay, fatal, rfl, hp⟩ := sends
  · obtain ⟨-, -, -, ⟨c, -, rfl⟩ | ⟨u, hu, rfl⟩⟩ | rfl := execSend_cases h
    · exact .inr (.inl ⟨c, rfl⟩)
    · obtain ⟨m, record, stamp, length, rfl⟩ := sent u hu
      exact .inr (.inr ⟨m, record, _, _, stamp, length, rfl⟩)
    · exact .inl rfl
  · obtain ⟨-, hp', -⟩ | ⟨fatal, -, -, -, ⟨c, -, rfl⟩ | ⟨u, hu, rfl⟩⟩ | rfl := execError_cases h
    · exact absurd (hp.symm.trans hp') nofun
    · exact .inr (.inl ⟨c, rfl⟩)
    · obtain ⟨m, record, stamp, length, rfl⟩ := sent u hu
      cases fatal <;> exact .inr (.inr ⟨m, record, _, _, stamp, length, rfl⟩)
    · exact .inl rfl

/-! ## The frame -/

theorem exec_pktReset_frame (h : exec .pktReset s = .next t) :
    t = { s with pkt := t.pkt, cix := t.cix } ∧ ∀ a, 60 ≤ a → t.pkt.read a = s.pkt.read a := by
  obtain ⟨-, hp, rfl⟩ | rfl := execPktReset_cases h
  · have outside : ∀ a, 60 ≤ a → (s.pkt.writeBytes 0 sentinelRecord).read a = s.pkt.read a :=
      fun a => read_reset_other
    generalize s.pkt.writeBytes 0 sentinelRecord = m at outside
    rw [State.completed, ← hp]
    exact ⟨rfl, outside⟩
  · exact ⟨rfl, fun _ _ => rfl⟩

theorem exec_pktStore_frame {off val : Byte} (h : exec (.pktStore off val) s = .next t) :
    t = { s with pkt := t.pkt, cix := t.cix, cph := t.cph, fault := t.fault, fcode := t.fcode } ∧
      (∀ a, a ≠ off.toNat → t.pkt.read a = s.pkt.read a) ∧ (60 ≤ off.toNat → t.pkt = s.pkt) := by
  obtain ⟨-, -, ⟨-, rfl⟩ | ⟨inside, rfl⟩⟩ | rfl := execPktStore_cases h
  · exact ⟨rfl, fun _ _ => rfl, fun _ => rfl⟩
  · exact ⟨rfl, fun a other => Memory.read_write_other _ _ other, fun outside => absurd inside outside.not_gt⟩
  · exact ⟨rfl, fun _ _ => rfl, fun _ => rfl⟩

theorem exec_parseLine_frame (h : exec .parseLine s = .next t) :
    t =
        { s with
          pkt := t.pkt, matched := t.matched, midx := t.midx, cix := t.cix, cph := t.cph, fault := t.fault,
          fcode := t.fcode } ∧
      (t.fault ≠ s.fault → t.pkt = s.pkt ∧ t.matched = s.matched ∧ t.midx = s.midx) := by
  cases effect_of_exec h with
  | checksum hi => simp [IsCrcCommand] at hi
  | store hi => simp [IsStoreCommand] at hi
  | hold | fault => exact ⟨rfl, fun _ => ⟨rfl, rfl, rfl⟩⟩
  | noMatch | field => exact ⟨rfl, fun faulted => absurd rfl faulted⟩

theorem exec_error_build_frame (hp : s.cph = .ready) (h : exec (.error code pay) s = .next t) :
    t = { s with pkt := t.pkt, cph := t.cph } ∧
      ∀ a, a < 3 ∨ 58 ≤ a ∨ (s.params.errorResidue = .retain ∧ 8 + min pay.length 50 ≤ a) →
        t.pkt.read a = s.pkt.read a := by
  obtain ⟨-, -, rfl⟩ | ⟨fatal, -, hp', -⟩ | rfl := execError_cases h
  · exact ⟨rfl, fun a outside => read_errorRecord_other outside⟩
  · exact absurd (hp.symm.trans hp') nofun
  · exact ⟨rfl, fun _ _ => rfl⟩

theorem exec_sending_frame {i : Instr}
    (sends : i = .send ∨ ∃ code pay fatal, i = .error code pay ∧ s.cph = .snd fatal) (h : exec i s = .next t) :
    t =
        { s with
          pkt := t.pkt, txbuf := t.txbuf, txbusy := t.txbusy, txdr := t.txdr, txe := t.txe, txidx := t.txidx,
          txie := t.txie, cix := t.cix, cph := t.cph, fault := t.fault, fcode := t.fcode } ∧
      (∀ a, a ≠ 56 → a ≠ 57 → t.pkt.read a = s.pkt.read a) ∧
      (∀ a, 60 ≤ a → t.txbuf.read a = s.txbuf.read a) ∧
      (t.fault ≠ s.fault → t.pkt = s.pkt ∧ t.txbuf = s.txbuf ∧ t.txie = s.txie ∧ t.txe = s.txe) := by
  obtain rfl | ⟨c, rfl⟩ | ⟨m, record, cix, cph, stamp, length, rfl⟩ := exec_sending_cases sends h
  · exact ⟨rfl, fun _ _ _ => rfl, fun _ _ => rfl, fun _ => ⟨rfl, rfl, rfl, rfl⟩⟩
  · exact ⟨rfl, fun _ _ _ => rfl, fun _ _ => rfl, fun _ => ⟨rfl, rfl, rfl, rfl⟩⟩
  · exact ⟨rfl, fun a first second => read_stamped_other stamp first second,
      fun a outside => Memory.read_writeBytes_other (.inr (by omega)), fun faulted => absurd rfl faulted⟩

/-- Settles O45, command by command; of the record, PARSE_LINE writes at most the matched slot. -/
theorem recordCommandsFrame : Obligations.RecordCommandsFrame := by
  refine fun s t => ⟨exec_pktReset_frame, fun off val => exec_pktStore_frame, fun h => ?_,
    fun code pay => exec_error_build_frame, fun i => exec_sending_frame⟩
  obtain ⟨frame, faulted⟩ := exec_parseLine_frame h
  refine ⟨frame, faulted, fun line hline => ?_⟩
  obtain kept | ⟨line', i, e, v, hline', found, stored⟩ := exec_parseLine_stores h
  · exact ⟨fun _ => kept, fun _ _ _ _ _ => by rw [kept]⟩
  · obtain rfl : line' = line := Option.some.inj (hline'.symm.trans hline)
    refine ⟨fun unmatched => absurd (found.symm.trans unmatched) nofun, fun i' e' found' a outside => ?_⟩
    cases found.symm.trans found'
    rw [stored, read_writeSlot_other outside]

end Sys2Proof.Machine
end

section
/-! The stamp (R241), and how SEND and ERROR's send step hold, fault and start a transmission (R242, R243, R270). -/

namespace Sys2Proof.Machine

variable {s t : State} {i : Instr} {pkt m : Memory} {record : List Byte} {c : FaultCause} {after : State → Answer}

/-! ## The stamp (R241) -/

/-- The zeroed record is written when every byte outside the checksum field is. -/
theorem written_zeroChecksum (written : ∀ k, k < 60 → k ≠ 56 → k ≠ 57 → ∃ b, pkt.read k = some b) :
    ∃ bytes, (zeroChecksum pkt).readSpan 0 pktSize = some bytes := by
  refine Option.isSome_iff_exists.mp (Memory.written_iff.mpr fun k hk => ?_)
  rw [Nat.zero_add, read_zeroChecksum]
  split
  · exact ⟨_, rfl⟩
  next outside => exact written k hk (fun first => outside (.inl first)) fun second => outside (.inr second)

theorem stamped_eq_none (unwritten : ∃ k, k < 60 ∧ k ≠ 56 ∧ k ≠ 57 ∧ pkt.read k = none) : stamped pkt = none := by
  obtain ⟨k, inside, first, second, absent⟩ := unwritten
  have noSpan : (zeroChecksum pkt).readSpan 0 pktSize = none := by
    refine Memory.readSpan_eq_none.mpr ⟨k, inside, ?_⟩
    rw [Nat.zero_add, read_zeroChecksum, if_neg (by omega), absent]
  rw [stamped, noSpan]

/-- The stamp writes the two bytes of the checksum field, and then the whole record is written. -/
theorem stamped_of_written (written : ∀ k, k < 60 → k ≠ 56 → k ≠ 57 → ∃ b, pkt.read k = some b) :
    ∃ c0 c1 record, stamped pkt = some (pkt.writeBytes 56 [c0, c1]) ∧
      (pkt.writeBytes 56 [c0, c1]).readSpan 0 60 = some record := by
  obtain ⟨bytes, hbytes⟩ := written_zeroChecksum written
  have stamp : stamped pkt = some (pkt.writeLe checksumOffset 2 (crc16 crcSeed0 bytes).toNat) := by rw [stamped, hbytes]
  have whole : (pkt.writeLe checksumOffset 2 (crc16 crcSeed0 bytes).toNat).written 0 60 = true := by
    refine Memory.written_iff.mpr fun k hk => ?_
    rw [Nat.zero_add, Memory.writeLe, Memory.read_writeBytes, leBytes_length, checksumOffset]
    split
    · exact ⟨_, List.getElem?_eq_getElem (by rw [leBytes_length]; omega)⟩
    · exact written k hk (by omega) (by omega)
  obtain ⟨record, span⟩ := Option.isSome_iff_exists.mp whole
  exact ⟨_, _, record, stamp, span⟩

/-- Settles O33: an unwritten byte leaves no record to stamp; else the two checksum bytes are written over a record
whose every other byte is there. -/
theorem stampWritesChecksum : Obligations.StampWritesChecksum := by
  refine fun pkt => ⟨stamped_eq_none, fun written => ?_⟩
  obtain ⟨c0, c1, record, stamp, span⟩ := stamped_of_written written
  exact ⟨_, record, stamp, span, stamped_recordOk stamp span, fun a => read_stamped_other stamp⟩

/-! ## `send_record()` (R242, R243) -/

theorem sendRecord_of_unwritten (unwritten : stamped s.pkt = none) : sendRecord s = .error .uninitialisedRead := by
  rw [sendRecord, unwritten]

theorem sendRecord_of_full (stamp : stamped s.pkt = some m) (full : s.txe = false) :
    sendRecord s = .error .txOverrun := by
  rw [sendRecord, stamp]
  exact if_neg (by rw [full]; decide)

theorem sendRecord_of_empty (stamp : stamped s.pkt = some m) (empty : s.txe = true)
    (span : m.readSpan 0 pktSize = some record) : sendRecord s = .ok (startTransmission m record s) := by
  simp only [sendRecord, stamp, empty, span, if_true]

theorem sendThen_of_busy (busy : s.txbusy = true) : sendThen after s = .next s := by
  rw [sendThen, if_pos busy, hold_eq]

theorem sendThen_of_fault (idle : s.txbusy = false) (faults : sendRecord s = .error c) :
    sendThen after s = .next (s.raised c) := by
  rw [sendThen, if_neg (by rw [idle]; decide), faults]
  exact raise_eq c s

theorem sendThen_of_sent (idle : s.txbusy = false) (sent : sendRecord s = .ok t) : sendThen after s = after t := by
  rw [sendThen, if_neg (by rw [idle]; decide), sent]

/-- SEND and ERROR's send step share the sending, and differ in what comes after it (R242, R270). -/
theorem exec_eq_sendThen (hf : s.fault = false)
    (sends : (i = .send ∧ s.cph = .ready) ∨ ∃ code pay fatal, i = .error code pay ∧ s.cph = .snd fatal) :
    ∃ after, exec i s = sendThen after s := by
  obtain ⟨rfl, hp⟩ | ⟨code, pay, fatal, rfl, hp⟩ := sends
  · exact ⟨_, whenReady_of_ready _ hf hp⟩
  · exact ⟨errorSent fatal pay.length, by simp [exec, execError, hf, hp]⟩

/-- Settles O35: the shared sending holds while busy, and faults in the rule's order. -/
theorem sendHoldsAndFaults : Obligations.SendHoldsAndFaults := by
  intro s i hf sends
  obtain ⟨after, same⟩ := exec_eq_sendThen hf sends
  rw [same]
  refine ⟨sendThen_of_busy, fun idle unwritten => ?_, fun idle written full => ?_⟩
  · exact sendThen_of_fault idle (sendRecord_of_unwritten (stamped_eq_none unwritten))
  · obtain ⟨c0, c1, record, stamp, -⟩ := stamped_of_written written
    exact sendThen_of_fault idle (sendRecord_of_full stamp full)

/-- A started transmission is the record in `TXBUF`, with its first byte in `TXDR`. -/
theorem startTransmission_eq (length : record.length = 60) :
    startTransmission m record s =
      { s with
        pkt := m, txbuf := s.txbuf.writeBytes 0 record, txbusy := true, txdr := record[0]?, txe := false, txidx := 1#8,
        txie := true } := by
  have first : (s.txbuf.writeBytes 0 record).read 0 = record[0]? := by
    rw [Memory.read_writeBytes, if_pos (by omega)]
  simp only [startTransmission, first]

theorem exec_send_of_ready (ready : s.ready) (idle : s.txbusy = false) (empty : s.txe = true)
    (stamp : stamped s.pkt = some m) (span : m.readSpan 0 pktSize = some record) :
    exec .send s =
      .next
        { s with
          pkt := m, txbuf := s.txbuf.writeBytes 0 record, txbusy := true, txdr := record[0]?, txe := false,
          txidx := 1#8, txie := true, cix := s.cix + 1 } := by
  have completed := State.completed_of_ready (s := startTransmission m record s) ready 1
  rw [exec, execSend, whenReady_of_ready _ ready.1 ready.2,
    sendThen_of_sent idle (sendRecord_of_empty stamp empty span), complete_eq, completed,
    startTransmission_eq (Memory.readSpan_length span)]

/-- Settles O34: the record sent is the stamped one, and at READY the end of SEND moves only `CIX`. -/
theorem sendStartsTransmission : Obligations.SendStartsTransmission := by
  intro s ready idle empty written
  obtain ⟨c0, c1, record, stamp, span⟩ := stamped_of_written written
  have bytes : ∀ k, k < 60 → record[k]? = (s.pkt.writeBytes 56 [c0, c1]).read k := fun k hk => by
    rw [← (Memory.readSpan_eq_some.mp span).2 k hk, Nat.zero_add]
  refine ⟨record, c0, c1, stamped_recordOk stamp span, ?_, ?_, fun k hk first second => ?_,
    exec_send_of_ready ready idle empty stamp span⟩
  · exact (bytes 56 (by decide)).trans (Memory.read_writeBytes ..)
  · exact (bytes 57 (by decide)).trans (Memory.read_writeBytes ..)
  · rw [bytes k hk, read_stamped_other stamp first second]

end Sys2Proof.Machine
end

section
/-! The transmit events TX_DRAIN and TX_SHIFT (R245 to R247), and a whole transmission (R248). -/

namespace Sys2Proof.Machine

variable {s : State} {b c : Byte} {turns : List Agent}

/-! ## The two events -/

theorem State.enabled_txi_iff : s.enabled .txi = true ↔ s.fault = false ∧ s.txie = true ∧ s.txe = true := by
  simp [State.enabled, State.txPending, and_assoc]

theorem State.enabled_txs_iff : s.enabled .txs = true ↔ s.fault = false ∧ s.txe = false := by
  simp [State.enabled]

theorem turn_txi_of_enabled (enabled : s.enabled .txi = true) : turn .txi s = .next (txDrain s) :=
  if_pos enabled

theorem turn_txs_of_enabled (enabled : s.enabled .txs = true) (data : s.txdr = some b) :
    turn .txs s = .next { s with wireOut := s.wireOut ++ [b], txe := true } := by
  rw [turn, if_pos enabled, txShift, data]

/-- TX_DRAIN inside the buffer, where this write does not clear the flags. -/
theorem txDrain_of_kept (inside : s.txidx.toNat < pktSize) (byte : s.txbuf.read s.txidx.toNat = some b)
    (kept : clearsOnWrite s = false) : txDrain s = { s with txdr := some b, txe := false, txidx := s.txidx + 1#8 } := by
  simp [txDrain, inside, byte, kept]

/-- TX_DRAIN inside the buffer, where this write clears the flags. -/
theorem txDrain_of_cleared (inside : s.txidx.toNat < pktSize) (byte : s.txbuf.read s.txidx.toNat = some b)
    (cleared : clearsOnWrite s = true) :
    txDrain s =
      { s with txdr := some b, txe := false, txidx := s.txidx + 1#8, txbusy := false, txie := false } := by
  simp [txDrain, inside, byte, cleared]

theorem txDrain_of_exhausted (exhausted : pktSize ≤ s.txidx.toNat) :
    txDrain s = { s with txbusy := false, txie := false } := by
  rw [txDrain, if_neg exhausted.not_gt]

/-- Under OnEmpty no write clears the flags (R245). -/
theorem clearsOnWrite_of_onEmpty (policy : s.params.txClear = .onEmpty) : clearsOnWrite s = false := by
  simp [clearsOnWrite, policy]

/-- Settles O36: under OnEmpty no write clears the flags, and past the buffer they are cleared. -/
theorem txDrainUnderOnEmpty : Obligations.TxDrainUnderOnEmpty := by
  refine fun s => ⟨State.enabled_txi_iff, fun enabled policy => ?_⟩
  rw [turn_txi_of_enabled enabled]
  refine ⟨fun b inside byte => ?_, fun atEnd => ?_⟩
  · rw [txDrain_of_kept inside byte (clearsOnWrite_of_onEmpty policy)]
  · rw [txDrain_of_exhausted atEnd.ge]

/-- Settles O37: under OnLastWrite exactly the write of byte 59 clears the flags. -/
theorem txDrainUnderOnLastWrite : Obligations.TxDrainUnderOnLastWrite := by
  intro s b enabled policy inside byte
  rw [turn_txi_of_enabled enabled]
  refine ⟨fun last => ?_, fun notLast => ?_⟩
  · rw [txDrain_of_cleared inside byte (clearsOnWrite_iff.mpr ⟨policy, last⟩)]
  · have kept : clearsOnWrite s = false :=
      Bool.eq_false_iff.mpr fun cleared => notLast (clearsOnWrite_iff.mp cleared).2
    rw [txDrain_of_kept inside byte kept]

/-- Settles O38: an enabled TX_SHIFT emits the byte in `TXDR`. -/
theorem txShiftEmitsByte : Obligations.TxShiftEmitsByte :=
  fun _ => ⟨State.enabled_txs_iff, fun _ => turn_txs_of_enabled⟩

/-! ## A whole transmission (R248) -/

theorem Memory.readSpan_eq_cons {m : Memory} {off n : Nat} {bytes : List Byte} :
    m.readSpan off (n + 1) = some (b :: bytes) ↔ m.read off = some b ∧ m.readSpan (off + 1) n = some bytes := by
  rw [Memory.readSpan]
  cases m.read off <;> cases m.readSpan (off + 1) n <;> simp

/-- The state after TX_SHIFT has sent the byte `b`, with `turns` still to be given. -/
def State.shifted (s : State) (b : Byte) (turns : List Agent) : State :=
  { s with wireOut := s.wireOut ++ [b], txe := true, plan := turns }

/-- The state after one more round: the byte `b` sent, the next one, `c`, in `TXDR`, and `turns` still to be given. -/
def State.advanced (s : State) (b c : Byte) (turns : List Agent) : State :=
  { s with wireOut := s.wireOut ++ [b], txdr := some c, txe := false, txidx := s.txidx + 1#8, plan := turns }

/-- The state after the bytes `bytes` have been sent and the transmitter has gone idle. -/
def State.emitted (s : State) (bytes : List Byte) (turns : List Agent) : State :=
  { s with
    wireOut := s.wireOut ++ bytes
    txdr := bytes.getLast?
    txidx := 60#8
    txe := true
    txbusy := false
    txie := false
    plan := turns }

section transmission
variable (runs : s.runs) (armed : s.txie = true) (full : s.txe = false) (data : s.txdr = some b)
include runs armed full data

/-- One round of the alternation: the byte in `TXDR` leaves, and TX_DRAIN follows (R248). -/
theorem runFor_shiftThenDrain (plan : s.plan = .txs :: .txi :: turns) :
    runFor 2 s = .next (txDrain (s.shifted b turns)) := by
  have shift : step s = .next (s.shifted b (.txi :: turns)) :=
    (step_of_plan runs plan).trans
      (turn_txs_of_enabled (s := { s with plan := .txi :: turns }) (State.enabled_txs_iff.mpr ⟨runs.2, full⟩) data)
  have drain : step (s.shifted b (.txi :: turns)) = .next (txDrain (s.shifted b turns)) :=
    (step_of_plan (s := s.shifted b (.txi :: turns)) runs rfl).trans
      (turn_txi_of_enabled (s := s.shifted b turns) (State.enabled_txi_iff.mpr ⟨runs.2, armed, rfl⟩))
  rw [runFor_succ 1 shift, runFor_succ 0 drain, runFor_zero]

/-- The round that sends the last byte leaves the transmitter idle. -/
theorem runFor_lastRound (atEnd : s.txidx = 60#8) (plan : s.plan = .txs :: .txi :: turns) :
    runFor 2 s = .next (s.emitted [b] turns) := by
  have exhausted : pktSize ≤ (s.shifted b turns).txidx.toNat := (congrArg BitVec.toNat atEnd).ge
  rw [runFor_shiftThenDrain runs armed full data plan, txDrain_of_exhausted exhausted]
  simp [State.shifted, State.emitted, atEnd, data]

variable (policy : s.params.txClear = .onEmpty)
include policy

/-- Every other round puts the next byte of `TXBUF` in `TXDR`. -/
theorem runFor_round (inside : s.txidx.toNat < pktSize) (byte : s.txbuf.read s.txidx.toNat = some c)
    (plan : s.plan = .txs :: .txi :: turns) : runFor 2 s = .next (s.advanced b c turns) := by
  have kept : clearsOnWrite (s.shifted b turns) = false := clearsOnWrite_of_onEmpty policy
  rw [runFor_shiftThenDrain runs armed full data plan, txDrain_of_kept (s := s.shifted b turns) inside byte kept]
  rfl

/-- The transmit agents send the byte in `TXDR` and the rest of `TXBUF`, one byte per round. -/
theorem runFor_transmission {rest : List Byte} (left : s.txidx.toNat + rest.length = 60)
    (span : s.txbuf.readSpan s.txidx.toNat rest.length = some rest)
    (plan : s.plan = (List.replicate (rest.length + 1) [Agent.txs, Agent.txi]).flatten ++ turns) :
    runFor (2 * (rest.length + 1)) s = .next (s.emitted (b :: rest) turns) := by
  induction rest generalizing s b with
  | nil => exact runFor_lastRound runs armed full data (BitVec.eq_of_toNat_eq left) plan
  | cons c rest ih =>
    rw [List.length_cons] at left
    obtain ⟨byte, span'⟩ := Memory.readSpan_eq_cons.mp span
    have inside : s.txidx.toNat < pktSize := by rw [pktSize]; omega
    have index := txidx_succ_toNat inside
    have round := runFor_round runs armed full data policy inside byte plan
    have remaining := ih (s := s.advanced b c _) runs armed rfl rfl policy (by simp only [State.advanced, index]; omega)
      (by simpa only [State.advanced, index] using span') rfl
    rw [List.length_cons, Nat.mul_succ, Nat.add_comm, runFor_add _ round]
    exact remaining.trans (by simp [State.emitted, State.advanced])

end transmission

/-- Settles O39: byte 0 stands in `TXDR`, and the other 59 follow from `TXBUF`. -/
theorem transmissionEmitsRecord : Obligations.TransmissionEmitsRecord := by
  intro s r turns runs policy _ armed full index length span data plan
  obtain _ | ⟨b, rest⟩ := r
  · cases length
  have rest59 : rest.length = 59 := Nat.succ.inj length
  have others : s.txbuf.readSpan 1 59 = some rest := (Memory.readSpan_eq_cons.mp span).2
  have sent := runFor_transmission runs armed full data policy (rest := rest) (turns := turns)
    (by rw [index, rest59]; rfl) (by rw [index, rest59]; exact others) (by rw [rest59]; exact plan)
  have last : (b :: rest).getLast? = (b :: rest)[59]? := by rw [List.getLast?_eq_getElem?, length]
  rw [rest59, State.emitted, last] at sent
  exact sent

end Sys2Proof.Machine
end

section
/-! The error report (44_error_report.md): the record ERROR builds, how its send step ends, and the phase HALTED. -/

namespace Sys2Proof.Machine

variable {s t : State} {a k l : Nat} {p : Params} {code : Word32} {pay : List Byte} {pkt : Memory} {b : Byte}
  {fatal : Bool}

/-! ## The record of the build step (R270, R271, R273) -/

theorem getElem?_leBytes {n : Nat} (inside : k < n) (v : Nat) :
    (leBytes n v)[k]? = some (BitVec.ofNat 8 (v / 256 ^ k)) := by
  induction n generalizing k v with
  | zero => cases inside
  | succ n ih =>
    cases k with
    | zero => simp [leBytes]
    | succ k =>
      rw [leBytes, List.getElem?_cons_succ, ih (Nat.lt_of_succ_lt_succ inside), Nat.div_div_eq_div_mul, Nat.pow_succ']

theorem read_errorRecord_code (inside : k < 4) :
    (errorRecord p code pay pkt).read (3 + k) = some (BitVec.ofNat 8 ((flaggedCode p code).toNat / 256 ^ k)) := by
  rw [errorRecord, Memory.read_writeBytes_other (.inl (by omega)), Memory.read_write_other _ _ (by omega),
    Memory.writeLe, Memory.read_writeBytes, leBytes_length, if_pos (by omega), Nat.add_sub_cancel_left,
    getElem?_leBytes inside]

theorem read_errorRecord_length :
    (errorRecord p code pay pkt).read 7 = some (BitVec.ofNat 8 (errLen pay)) := by
  rw [errorRecord, Memory.read_writeBytes_other (.inl (by decide)), Memory.read_write_self]

theorem length_take_errLen (pay : List Byte) : (pay.take (errLen pay)).length = errLen pay :=
  List.length_take_of_le (Nat.min_le_left ..)

theorem read_errorRecord_payload (inside : k < errLen pay) : (errorRecord p code pay pkt).read (8 + k) = pay[k]? := by
  rw [errorRecord, Memory.read_writeBytes, length_take_errLen, if_pos (by omega), Nat.add_sub_cancel_left,
    List.getElem?_take_of_lt inside]

/-- Past the payload the record is what `residue(L)` left. -/
theorem read_errorRecord_past (past : 8 + errLen pay ≤ a) :
    (errorRecord p code pay pkt).read a = (writeResidue p.errorResidue (errLen pay) pkt).read a := by
  rw [errorRecord, Memory.read_writeBytes_other (.inr (by rwa [length_take_errLen])),
    Memory.read_write_other _ _ (by omega), Memory.read_writeLe_other (by omega)]

theorem read_residueFill (past : 8 + l ≤ a) (inside : a ≤ 57) :
    (pkt.writeBytes (8 + l) (List.replicate (errPayloadCap - l) b)).read a = some b := by
  have within : a < 8 + l + (errPayloadCap - l) := by rw [errPayloadCap]; omega
  rw [Memory.read_writeBytes, List.length_replicate, if_pos ⟨past, within⟩, List.getElem?_replicate_of_lt (by omega)]

theorem exec_error_of_ready (ready : s.ready) :
    exec (.error code pay) s =
      .next { s with pkt := errorRecord s.params code pay s.pkt, cph := .snd (isFatal s.params code) } := by
  simp only [exec, execError, ready.1, ready.2, errorBuild, Bool.false_eq_true, if_false]

/-- Settles O40: the fields of the record follow each other without overlap, so each byte is read from the one write
that reaches it. -/
theorem errorBuildsRecord : Obligations.ErrorBuildsRecord := by
  rintro s code pay _ ready rfl
  refine ⟨_, exec_error_of_ready ready, rfl, fun a outside => ?_, fun k => read_errorRecord_code,
    read_errorRecord_length, fun k => read_errorRecord_payload, fun a past inside => ?_⟩
  · exact read_errorRecord_other (outside.imp_right .inl)
  · refine (read_errorRecord_past past).trans ?_
    cases s.params.errorResidue with
    | retain => rfl
    | zero | sentinel => exact read_residueFill past inside

/-! ## The send step (R242, R270, R272) -/

/-- With the UART empty and the record written, `send_record()` starts the transmission of a valid record: the old
bytes with the two checksum bytes written. -/
theorem sendRecord_of_written (empty : s.txe = true)
    (written : ∀ k, k < 60 → k ≠ 56 → k ≠ 57 → ∃ b, s.pkt.read k = some b) :
    ∃ (r : List Byte) (c0 c1 : Byte), RecordOk r ∧ r[56]? = some c0 ∧ r[57]? = some c1 ∧
      (∀ k, k < 60 → k ≠ 56 → k ≠ 57 → r[k]? = s.pkt.read k) ∧
      sendRecord s =
        .ok
          { s with
            pkt := s.pkt.writeBytes 56 [c0, c1], txbuf := s.txbuf.writeBytes 0 r, txbusy := true, txdr := r[0]?,
            txe := false, txidx := 1#8, txie := true } := by
  obtain ⟨c0, c1, r, stamp, span⟩ := stamped_of_written written
  obtain ⟨length, reads⟩ := Memory.readSpan_eq_some.mp span
  have bytes : ∀ k, k < 60 → r[k]? = (s.pkt.writeBytes 56 [c0, c1]).read k := fun k hk => by
    rw [← reads k hk, Nat.zero_add]
  refine ⟨r, c0, c1, stamped_recordOk stamp span, (bytes 56 (by decide)).trans (Memory.read_writeBytes ..),
    (bytes 57 (by decide)).trans (Memory.read_writeBytes ..), fun k hk first second => ?_, ?_⟩
  · rw [bytes k hk, read_stamped_other stamp first second]
  · rw [sendRecord_of_empty stamp empty span, startTransmission_eq length]

theorem exec_error_of_sent (hf : s.fault = false) (hp : s.cph = .snd fatal) (idle : s.txbusy = false)
    (sent : sendRecord s = .ok t) : exec (.error code pay) s = errorSent fatal pay.length t := by
  simp only [exec, execError, hf, hp, Bool.false_eq_true, if_false]
  exact sendThen_of_sent idle sent

/-- Settles O41: the send step shares SEND's transmission, and the fatal bit decides how the command ends. -/
theorem errorSendsThenResumesOrHalts : Obligations.ErrorSendsThenResumesOrHalts := by
  intro s code pay fatal hf hp idle empty written
  obtain ⟨r, c0, c1, valid, first, second, others, sent⟩ := sendRecord_of_written empty written
  refine ⟨r, c0, c1, valid, first, second, others, ?_⟩
  rw [exec_error_of_sent hf hp idle sent]
  cases fatal <;> rfl

/-! ## HALTED (R272) -/

/-- No command has a step in HALTED: each is enabled in other phases only (R290). -/
theorem exec_of_halted (i : Instr) (halted : s.cph = .halted) : exec i s = .next s := by
  have idle : ∀ k, whenReady s k = .next s := fun k => whenReady_of_not_ready k (halted ▸ nofun)
  cases i with
  | crcSet | crcByte | crcSpan | pktReset | parseLine | pktStore | send => exact idle _
  | pop | readLine | error => simp [exec, execPop, execReadLine, execError, halted]

theorem turn_ctrl_of_halted (halted : s.cph = .halted) (h : turn .ctrl s = .next t) : t = s := by
  obtain rfl | ⟨-, -, i, rest, -, he⟩ | ⟨-, -, ready, -⟩ | ⟨ha, -⟩ | ⟨ha, -⟩ | ⟨ha, -⟩ := turn_cases h
  · rfl
  · rw [exec_of_halted i halted] at he
    cases he
    rfl
  · exact absurd (halted.symm.trans ready) nofun
  all_goals cases ha

/-- Settles O42: the control agent holds, and the events write none of these elements. -/
theorem haltedForGood : Obligations.HaltedForGood := by
  intro s t halted h
  obtain ⟨-, ht⟩ := step_cases h
  have halted' : s.spendTurn.cph = .halted := s.spendTurn_cph.trans halted
  generalize s.chosen = a at ht
  cases a with
  | ctrl =>
    obtain rfl := turn_ctrl_of_halted halted' ht
    simp [halted]
  | rxi | txi | txs => cases turnEffect_of_turn ht <;> simp [halted]

end Sys2Proof.Machine
end

section
/-! Commands and faults (R300, R302): a faulted block stops, every command answers, and which faults each raises. -/

namespace Sys2Proof.Machine

variable {s t : State}

/-- Settles O7: the launch is not refused, so the step looks at `FAULT` next. -/
theorem faultedBlockStops : Obligations.FaultedBlockStops := by
  intro s accepted hf
  simp [step, stepOf, accepted, hf]

/-- Settles O46: each command's own rule answers a next state. -/
theorem noCommandStops : Obligations.NoCommandStops :=
  fun i _ => exec_answers i

/-! ## The faults of each command (R302) -/

/-- A byte about to be taken is written (R34, R162). -/
theorem RingInv.ringHead_ne_none (h : RingInv s) (seen : s.cph.seen = true) : s.ringHead ≠ none := by
  obtain ⟨b, hb⟩ := h.written 0 (by rw [State.takeable_of_seen seen]; omega)
  rw [s.ringHead_eq, hb]
  nofun

/-- `LEN` counts written bytes only (R54). -/
theorem LineInv.readSpan_ne_none (h : LineInv s) : s.line.readSpan 0 s.len.toNat ≠ none := by
  rw [Ne, Memory.readSpan_eq_none]
  rintro ⟨j, hj, unwritten⟩
  obtain ⟨b, hb⟩ := h.written j hj
  rw [Nat.zero_add, hb] at unwritten
  cases unwritten

theorem spanBuffer_ne_none {buf : Byte} (named : buf.toNat < 2) : spanBuffer buf s ≠ none := by
  unfold spanBuffer
  split
  · nofun
  · rw [if_pos (by omega)]
    nofun

theorem execCrcSpan_fcode {buf off : Byte} {cnt : Word16} (named : buf.toNat < 2) (hf : s.fault = false)
    (h : execCrcSpan buf off cnt s = .next t) (raised : t.fault = true) : t.fcode = 0x03#8 ∨ t.fcode = 0x04#8 := by
  obtain ⟨-, -, hk⟩ | rfl := whenReady_cases h
  · split at hk
    · exact absurd ‹_› (spanBuffer_ne_none named)
    · split at hk
      · cases hk; exact .inl rfl
      · split at hk
        · cases hk; exact .inr rfl
        · cases hk; simp [hf] at raised
  · simp [hf] at raised

theorem execPop_fault (ring : RingInv s) (hf : s.fault = false) (h : execPop s = .next t) : t.fault = false := by
  obtain ⟨-, -, -, rfl⟩ | ⟨-, hp, ⟨b, -, rfl⟩ | ⟨unwritten, -⟩⟩ | rfl := execPop_cases h
  · exact hf
  · exact hf
  · exact absurd unwritten (ring.ringHead_ne_none (by rw [hp]; rfl))
  · exact hf

theorem execReadLine_fault (ring : RingInv s) (hf : s.fault = false) (h : execReadLine s = .next t) :
    t.fault = false := by
  obtain ⟨-, -, -, rfl⟩ | ⟨n, -, -, -, rfl⟩ | ⟨n, -, hp, take⟩ | rfl := execReadLine_cases h
  · exact hf
  · exact hf
  · obtain ⟨unwritten, -⟩ | ⟨b, -, ⟨-, rfl⟩ | ⟨-, rfl⟩⟩ := lineTake_cases take
    · exact absurd unwritten (ring.ringHead_ne_none (by rw [hp]; rfl))
    · exact hf
    · exact hf
  · exact hf

theorem execParseLine_fcode (line : LineInv s) (hf : s.fault = false) (h : execParseLine s = .next t)
    (raised : t.fault = true) : t.fcode = 0x05#8 ∨ t.fcode = 0x06#8 := by
  obtain ⟨-, -, ⟨-, rfl⟩ | ⟨unwritten, -⟩ | ⟨bytes, -, parse⟩⟩ | rfl := execParseLine_cases h
  · simp [hf] at raised
  · exact absurd unwritten line.readSpan_ne_none
  · obtain rfl | ⟨k, e, v, -, -, rfl⟩ | rfl | rfl := parseBytes_cases parse
    · simp [hf] at raised
    · simp [hf] at raised
    · exact .inl rfl
    · exact .inr rfl
  · simp [hf] at raised

theorem execPktStore_fcode {off val : Byte} (hf : s.fault = false) (h : execPktStore off val s = .next t)
    (raised : t.fault = true) : t.fcode = 0x03#8 := by
  obtain ⟨-, -, ⟨-, rfl⟩ | ⟨-, rfl⟩⟩ | rfl := execPktStore_cases h
  · rfl
  · simp [hf] at raised
  · simp [hf] at raised

theorem sendRecord_fcode {c : FaultCause} (h : sendRecord s = .error c) : c.code = 0x04#8 ∨ c.code = 0x07#8 := by
  obtain rfl | ⟨rfl, -⟩ := sendRecord_fault h
  · exact .inl rfl
  · exact .inr rfl

theorem sendRecord_unfaulted {u : State} (hf : s.fault = false) (h : sendRecord s = .ok u) : u.fault = false := by
  rw [sendRecord_frame h]
  exact hf

theorem execSend_fcode (hf : s.fault = false) (h : execSend s = .next t) (raised : t.fault = true) :
    t.fcode = 0x04#8 ∨ t.fcode = 0x07#8 := by
  obtain ⟨-, -, -, ⟨c, faults, rfl⟩ | ⟨u, sent, rfl⟩⟩ | rfl := execSend_cases h
  · exact sendRecord_fcode faults
  · simp [sendRecord_unfaulted hf sent] at raised
  · simp [hf] at raised

theorem execError_fcode {code : Word32} {pay : List Byte} (hf : s.fault = false) (h : execError code pay s = .next t)
    (raised : t.fault = true) : t.fcode = 0x04#8 ∨ t.fcode = 0x07#8 := by
  obtain ⟨-, -, rfl⟩ | ⟨fatal, -, -, -, ⟨c, faults, rfl⟩ | ⟨u, sent, rfl⟩⟩ | rfl := execError_cases h
  · simp [hf] at raised
  · exact sendRecord_fcode faults
  · split at raised <;> simp [sendRecord_unfaulted hf sent] at raised
  · simp [hf] at raised

/-- Settles O48: the invariant excludes the unwritten reads of POP, READ_LINE and PARSE_LINE, and a well-formed
CRC_SPAN names a buffer; the other faults are those of each command's rule. -/
theorem faultsByCommand : Obligations.FaultsByCommand := by
  intro s t i inv wf hf h raised
  cases i with
  | crcSet => obtain ⟨-, -, rfl⟩ | rfl := execCrcSet_cases h <;> simp [hf] at raised
  | crcByte => obtain ⟨-, -, rfl⟩ | rfl := execCrcByte_cases h <;> simp [hf] at raised
  | crcSpan => exact execCrcSpan_fcode (by simpa [Instr.wf] using wf) hf h raised
  | pop => exact absurd ((execPop_fault inv.ring hf h).symm.trans raised) nofun
  | readLine => exact absurd ((execReadLine_fault inv.ring hf h).symm.trans raised) nofun
  | pktReset => obtain ⟨-, -, rfl⟩ | rfl := execPktReset_cases h <;> simp [hf] at raised
  | parseLine => exact execParseLine_fcode inv.line hf h raised
  | pktStore => exact execPktStore_fcode hf h raised
  | error => exact execError_fcode hf h raised
  | send => exact execSend_fcode hf h raised

end Sys2Proof.Machine
end

section
/-! The events leave the control state alone (R297), and the final states and what the host reads in them (R49, R308,
R310). -/

namespace Sys2Proof.Machine

variable {s : State} {a : Agent}

/-- Settles O52: by the effects of the three events, and a fault they raise leaves `CPH` (R300). -/
theorem eventsLeaveControlState : Obligations.EventsLeaveControlState := by
  intro s t h event
  obtain ⟨-, ht⟩ := step_cases h
  generalize s.chosen = a at ht event
  cases turnEffect_of_turn ht with
  | command | reject => exact absurd rfl event
  | hold | push | drain | disarm | drainUnwritten | shift | shiftUnwritten => simp

/-! ## Final states (R310) -/

theorem State.ctrlDone_iff : s.ctrlDone = true ↔ (s.cph = .ready ∧ s.cix = s.cmd.length) ∨ s.cph = .halted := by
  simp [State.ctrlDone]

theorem State.final_iff :
    s.final = true ↔
      s.fault = false ∧ ((s.cph = .ready ∧ s.cix = s.cmd.length) ∨ s.cph = .halted) ∧ s.inp = [] ∧
        s.txbusy = false ∧ s.txe = true := by
  simp only [State.final, Bool.and_eq_true, Bool.not_eq_true', List.isEmpty_iff, State.ctrlDone_iff, and_assoc]

theorem fetch_of_end (atEnd : s.cix = s.cmd.length) : fetch s = none :=
  if_neg (by omega)

theorem ctrlEnabled_of_done (done : (s.cph = .ready ∧ s.cix = s.cmd.length) ∨ s.cph = .halted) :
    ctrlEnabled s = false := by
  obtain ⟨ready, atEnd⟩ | halted := done
  · simp [ctrlEnabled, ready, fetch_of_end atEnd]
  · simp [ctrlEnabled, halted]

/-- In a final state TX_DRAIN is disarmed, since `TXIE` follows `TXBUSY`; the other agents wait for what R310 rules
out. -/
theorem State.enabled_of_final (h : TransmitInv s) (final : s.final = true) : s.enabled a = false := by
  obtain ⟨-, done, inp, idle, empty⟩ := State.final_iff.mp final
  cases a with
  | ctrl => simp [State.enabled, ctrlEnabled_of_done done]
  | rxi => simp [State.enabled, State.rxPending, inp]
  | txi => simp [State.enabled, h.enable, idle]
  | txs => simp [State.enabled, empty]

/-! ## The register view and the observation (R49, R308) -/

theorem regOfNumber_eq (n : Nat) : regOfNumber n = allRegs[n]? := by
  by_cases small : n < 12
  · exact (by decide : ∀ n < 12, regOfNumber n = allRegs[n]?) n small
  · have other : ∀ r, regNumber r ≠ n := fun r => by
      have : regNumber r < 12 := by cases r <;> decide
      omega
    rw [List.getElem?_eq_none (by simpa [allRegs] using small)]
    simp [regOfNumber, other]

theorem Memory.getElem?_image (size : Nat) (m : Memory) (k : Nat) :
    (m.image size)[k]? = if k < size then some (m.read k) else none := by
  split <;> simp [Memory.image, *]

theorem observe_eq_none_iff : observe s = none ↔ s.final = false := by
  simp [observe]

/-- Settles O54: a final state by its definition, its agents by what each waits for, the registers in the order of
their numbers, and the memories byte by byte. -/
theorem finalStateIsQuiescent : Obligations.FinalStateIsQuiescent := by
  refine ⟨fun s => State.final_iff, fun s a => State.enabled_of_final, fun s => observe_eq_none_iff,
    fun x => by cases x <;> rfl, fun s n => ?_, fun s o h => ?_⟩
  · rw [regOfNumber_eq, ← List.getElem?_map]
    rfl
  · unfold observe at h
    split at h <;> cases h
    exact ⟨rfl, rfl, rfl, rfl, rfl, fun n => by rw [List.getElem?_map, regOfNumber_eq],
      Memory.getElem?_image _ _, Memory.getElem?_image _ _, Memory.getElem?_image _ _⟩

end Sys2Proof.Machine
end

section
/-! The budget of R305: every step that is no hold spends from `State.work`. -/

namespace Sys2Proof.Machine

variable {s t u : State} {i : Instr} {a : Agent} {c : FaultCause} {n : Nat} {p : Phase}

/-- The commands, the phase and the input to come decide, where they differ by more than the transmission in flight and
the fault flag can weigh. -/
theorem State.work_lt_of_margin
    (less : 1000 * (t.cmd.length - t.cix) + t.cph.work + t.inp.length + 123 <
      1000 * (s.cmd.length - s.cix) + s.cph.work + s.inp.length) : t.work < s.work := by
  have txie := t.txie.toNat_le
  have txe := (!t.txe).toNat_le
  have fault := (!t.fault).toNat_le
  unfold State.work pktSize
  omega

theorem instr_length_pos (i : Instr) : 0 < i.length := by
  cases i <;> simp [Instr.length]

/-! ## The control agent's steps -/

/-- A command's end pays for the next one's phase and for the transmission it may have started (R30). -/
theorem State.work_completed_lt (pos : 0 < n) (inside : s.cix + n ≤ s.cmd.length) (cmd : u.cmd = s.cmd)
    (cix : u.cix = s.cix) (inp : u.inp = s.inp) : (u.completed n).work < s.work := by
  apply State.work_lt_of_margin
  simp only [State.completed_cmd, State.completed_cix, State.completed_cph, State.completed_inp, cmd, cix, inp,
    Phase.work]
  omega

theorem State.work_entered_lt (less : p.work < s.cph.work) : ({ s with cph := p } : State).work < s.work := by
  simp only [State.work]
  omega

theorem Phase.work_see_lt {k : Fin 255} (hp : (p = .ready ∧ k = 0) ∨ p = .rdl k false) :
    (Phase.rdl k true).work < p.work := by
  obtain ⟨rfl, rfl⟩ | rfl := hp
  · decide
  · simp only [Phase.work]
    omega

theorem Phase.work_copy_lt {k : Fin 255} (more : k.val + 1 < lineMax) :
    (Phase.rdl ⟨k.val + 1, more⟩ false).work < (Phase.rdl k true).work := by
  simp only [Phase.work]
  omega

theorem Phase.work_build_lt (fatal : Bool) : (Phase.snd fatal).work < Phase.ready.work := by
  simp [Phase.work]

theorem State.work_raised_lt (hf : s.fault = false) : (s.raised c).work < s.work := by
  simp [State.work, hf, Phase.work]

theorem sendRecord_stream (sent : sendRecord s = .ok u) : u.cmd = s.cmd ∧ u.cix = s.cix ∧ u.inp = s.inp := by
  obtain ⟨-, pkt, record, -, -, rfl⟩ := sendRecord_ok sent
  exact ⟨rfl, rfl, rfl⟩

/-- A fatal ERROR ends the commands: the record it sends weighs less than the phase it leaves (R272). -/
theorem State.work_halt_lt (hp : s.cph = .snd true) (sent : sendRecord s = .ok u) :
    ({ u with cph := .halted } : State).work < s.work := by
  obtain ⟨cmd, cix, inp⟩ := sendRecord_stream sent
  apply State.work_lt_of_margin
  simp only [cmd, cix, inp, hp, Phase.work]
  omega

theorem Effect.eq_or_work_lt (e : Effect s i t) (inside : s.cix + i.length ≤ s.cmd.length) :
    t = s ∨ t.work < s.work := by
  have pos := instr_length_pos i
  cases e with
  | hold => exact .inl rfl
  | fault hf => exact .inr (State.work_raised_lt hf)
  | checksum | store | noMatch | field | popTake | lineEnd =>
    exact .inr (State.work_completed_lt pos inside rfl rfl rfl)
  | popSee ready => exact .inr (State.work_entered_lt (by rw [ready.2]; decide))
  | lineSee _ hp => exact .inr (State.work_entered_lt (Phase.work_see_lt hp))
  | lineCopy _ hp _ more =>
    exact .inr (State.work_entered_lt (s := s) (hp ▸ Phase.work_copy_lt more))
  | build ready => exact .inr (State.work_entered_lt (s := s) (ready.2 ▸ Phase.work_build_lt _))
  | send _ _ sent | report _ _ _ sent =>
    obtain ⟨cmd, cix, inp⟩ := sendRecord_stream sent
    exact .inr (State.work_completed_lt pos inside cmd cix inp)
  | halt _ hp _ sent => exact .inr (State.work_halt_lt hp sent)

/-! ## The events -/

theorem State.work_eventRaised_lt (hf : s.fault = false) : (s.eventRaised c).work < s.work := by
  simp [State.work, hf]

theorem rxPush_work_lt {b : Byte} {rest : List Byte} (head : s.inp = b :: rest) : (rxPush s).work < s.work := by
  simp [rxPush_cons head, State.work, head]

theorem txDrain_work_lt (hf : s.fault = false) (armed : s.txie = true) (empty : s.txe = true) :
    (txDrain s).work < s.work := by
  obtain ⟨-, -, ht⟩ | ⟨b, inside, -, ht⟩ | ⟨-, ht⟩ := txDrain_cases s <;> rw [ht]
  · exact State.work_eventRaised_lt hf
  · have kept := (!clearsOnWrite s).toNat_le
    simp only [State.work, txidx_succ_toNat inside, armed, empty, Bool.true_and, Bool.not_true, Bool.not_false,
      Bool.toNat_true, Bool.toNat_false]
    omega
  · simp [State.work, armed]

theorem txShift_work_lt (hf : s.fault = false) (full : s.txe = false) : (txShift s).work < s.work := by
  obtain ⟨-, ht⟩ | ⟨b, -, ht⟩ := txShift_cases s <;> rw [ht]
  · exact State.work_eventRaised_lt hf
  · simp [State.work, full]

/-! ## Every turn -/

theorem turn_eq_or_work_lt (h : turn a s = .next t) : t = s ∨ t.work < s.work := by
  obtain ht | ⟨-, -, i, rest, fetched, ran⟩ | ⟨-, hf, -, e, -, rfl⟩ | ⟨-, -, b, rest, head, rfl⟩ |
    ⟨-, hf, armed, empty, rfl⟩ | ⟨-, hf, full, rfl⟩ := turn_cases h
  · exact .inl ht
  · exact (effect_of_exec ran).eq_or_work_lt (fetch_length_le fetched)
  · exact .inr (State.work_raised_lt hf)
  · exact .inr (rxPush_cons head ▸ rxPush_work_lt head)
  · exact .inr (txDrain_work_lt hf armed empty)
  · exact .inr (txShift_work_lt hf full)

/-- Settles O59: each effect of a turn but the hold spends from the budget, which the turn itself leaves alone. -/
theorem everyStepHoldsOrSpends : Obligations.EveryStepHoldsOrSpends := by
  intro s t h
  obtain ⟨-, ht⟩ := step_cases h
  rw [← s.work_spendTurn]
  exact turn_eq_or_work_lt ht

end Sys2Proof.Machine
end

section
/-! A turn is a hold exactly when its agent has no enabled step (R290; log 3). -/

namespace Sys2Proof.Machine

variable {s t u : State} {i : Instr} {a : Agent} {c : FaultCause} {n : Nat} {p : Phase} {after : State → Answer}

/-! ## Answers that are no hold -/

theorem raise_ne_hold (hf : s.fault = false) : raise c s ≠ .next s := by
  intro h
  have same : s.raised c = s := by simpa [raise_eq] using h
  exact absurd ((congrArg State.fault same).trans hf) nofun

theorem complete_ne_hold (pos : n ≠ 0) (cix : u.cix = s.cix) : complete n u ≠ .next s := by
  intro h
  have same : u.completed n = s := by simpa [complete_eq] using h
  have moved : u.cix + n = s.cix := congrArg State.cix same
  omega

theorem next_ne_hold_of_cph (moved : t.cph ≠ s.cph) : (.next t : Answer) ≠ .next s := by
  intro h
  cases h
  exact moved rfl

theorem seeByte_eq_hold_iff (hp : p ≠ s.cph) : seeByte p s = .next s ↔ s.ringEmpty = true := by
  unfold seeByte
  split
  next empty => simp [empty]
  next nonempty => exact iff_of_false (next_ne_hold_of_cph hp) nonempty

theorem popTake_ne_hold (hf : s.fault = false) : popTake s ≠ .next s := by
  unfold popTake
  split
  · exact raise_ne_hold hf
  · exact complete_ne_hold one_ne_zero rfl

theorem lineTake_ne_hold {n : Fin 255} (hf : s.fault = false) (hp : s.cph = .rdl n true) :
    lineTake n s ≠ .next s := by
  unfold lineTake
  split
  · exact raise_ne_hold hf
  · split
    · exact next_ne_hold_of_cph (hp ▸ nofun)
    · exact complete_ne_hold one_ne_zero rfl

/-- A record is sent unless a transmission is under way; what comes after it leaves `TXBUSY` set (R242, R270). -/
theorem sendThen_eq_hold_iff (hf : s.fault = false) (keeps : ∀ u t, after u = .next t → t.txbusy = u.txbusy) :
    sendThen after s = .next s ↔ s.txbusy = true := by
  cases busy : s.txbusy with
  | true => simp [sendThen_of_busy busy]
  | false =>
    refine iff_of_false ?_ nofun
    cases sends : sendRecord s with
    | error c => rw [sendThen_of_fault busy sends]; exact raise_ne_hold hf
    | ok u =>
      rw [sendThen_of_sent busy sends]
      intro h
      have started : u.txbusy = true := by rw [sendRecord_frame sends]
      exact absurd (busy.symm.trans ((keeps u s h).trans started)) nofun

theorem complete_keeps_txbusy (h : complete n u = .next t) : t.txbusy = u.txbusy := by
  cases h
  rfl

theorem errorSent_keeps_txbusy {fatal : Bool} (h : errorSent fatal n u = .next t) : t.txbusy = u.txbusy := by
  unfold errorSent at h
  split at h <;> cases h <;> rfl

/-! ## The commands at READY -/

theorem whenReady_ne_hold {k : Answer} (ready : s.ready) (answers : k ≠ .next s) : whenReady s k ≠ .next s := by
  rwa [whenReady_of_ready _ ready.1 ready.2]

theorem execCrcSpan_ne_hold {buf off : Byte} {cnt : Word16} (ready : s.ready) :
    execCrcSpan buf off cnt s ≠ .next s := by
  refine whenReady_ne_hold ready ?_
  split
  · exact raise_ne_hold ready.1
  · split
    · exact raise_ne_hold ready.1
    · split
      · exact raise_ne_hold ready.1
      · exact complete_ne_hold (by decide) rfl

theorem parseBytes_ne_hold {line : List Byte} (hf : s.fault = false) : parseBytes line s ≠ .next s := by
  unfold parseBytes
  split
  · exact complete_ne_hold one_ne_zero rfl
  · split
    · exact complete_ne_hold one_ne_zero rfl
    · split
      · exact raise_ne_hold hf
      · exact complete_ne_hold one_ne_zero rfl

theorem execParseLine_ne_hold (ready : s.ready) : execParseLine s ≠ .next s := by
  refine whenReady_ne_hold ready ?_
  split
  · exact complete_ne_hold one_ne_zero rfl
  · split
    · exact raise_ne_hold ready.1
    · exact parseBytes_ne_hold ready.1

theorem execPktStore_ne_hold {off val : Byte} (ready : s.ready) : execPktStore off val s ≠ .next s := by
  refine whenReady_ne_hold ready ?_
  split
  · exact raise_ne_hold ready.1
  · exact complete_ne_hold (by decide) rfl

/-- At READY only POP, READ_LINE and SEND can hold: on an empty ring, or while a record is being sent (R162, R170,
R242). -/
theorem exec_eq_hold_iff_of_ready (ready : s.ready) (rest : List Byte) :
    exec i s = .next s ↔ firstStepEnabled s (.command i rest) = false := by
  have see : ∀ p, p ≠ .ready → (seeByte p s = .next s ↔ s.ringEmpty = true) := fun p hp =>
    seeByte_eq_hold_iff (ready.2 ▸ hp)
  cases i with
  | crcSet | crcByte | pktReset =>
    exact iff_of_false (whenReady_ne_hold ready (complete_ne_hold (by decide) rfl)) nofun
  | crcSpan => exact iff_of_false (execCrcSpan_ne_hold ready) nofun
  | parseLine => exact iff_of_false (execParseLine_ne_hold ready) nofun
  | pktStore => exact iff_of_false (execPktStore_ne_hold ready) nofun
  | error =>
    refine iff_of_false ?_ nofun
    rw [exec_error_of_ready ready]
    exact next_ne_hold_of_cph (ready.2 ▸ nofun)
  | pop => simpa [exec, execPop, ready.1, ready.2, firstStepEnabled] using see .popSeen nofun
  | readLine => simpa [exec, execReadLine, ready.1, ready.2, firstStepEnabled] using see (.rdl 0 true) nofun
  | send =>
    rw [exec, execSend, whenReady_of_ready _ ready.1 ready.2,
      sendThen_eq_hold_iff ready.1 fun u t => complete_keeps_txbusy]
    simp [firstStepEnabled]

/-! ## The control agent's turn -/

theorem turn_ctrl_of_end (fetched : fetch s = none) : turn .ctrl s = .next s := by
  simp [turn, ctrlTurn, fetched]

theorem turn_ctrl_eq_hold_iff_of_ready (ready : s.ready) : turn .ctrl s = .next s ↔ ctrlEnabled s = false := by
  cases fetched : fetch s with
  | none => simp [turn_ctrl_of_end fetched, ctrlEnabled, ready.2, fetched]
  | some d =>
    have enabled : ctrlEnabled s = firstStepEnabled s d := by simp [ctrlEnabled, ready.2, fetched]
    rw [enabled]
    cases d with
    | command i rest => rw [turn_ctrl_of_command ready.1 fetched, exec_eq_hold_iff_of_ready ready rest]
    | rejected e =>
      rw [turn_ctrl_of_rejected ready.1 ready.2 fetched]
      exact iff_of_false (raise_ne_hold ready.1) nofun

/-- No command has a step in FAULTED (R290; log 9). -/
theorem exec_of_faulted (i : Instr) (faulted : s.cph = .faulted) : exec i s = .next s := by
  have idle : ∀ k, whenReady s k = .next s := fun k => whenReady_of_not_ready k (faulted ▸ nofun)
  cases i with
  | crcSet | crcByte | crcSpan | pktReset | parseLine | pktStore | send => exact idle _
  | pop | readLine | error => simp [exec, execPop, execReadLine, execError, faulted]

theorem turn_ctrl_of_ended (ended : s.cph = .halted ∨ s.cph = .faulted) : turn .ctrl s = .next s := by
  have idle : ∀ i, exec i s = .next s := fun i => ended.elim (exec_of_halted i) (exec_of_faulted i)
  have rejects : ∀ k, whenReady s k = .next s := fun k =>
    whenReady_of_not_ready k fun ready => by simp [ready] at ended
  simp only [turn, ctrlTurn, hold_eq]
  split
  · rfl
  · split
    · rfl
    · exact idle _
    · exact rejects _

theorem turn_ctrl_eq_hold_iff (h : ControlInv s) (hf : s.fault = false) :
    turn .ctrl s = .next s ↔ ctrlEnabled s = false := by
  cases hp : s.cph with
  | ready => exact turn_ctrl_eq_hold_iff_of_ready ⟨hf, hp⟩
  | popSeen =>
    obtain ⟨rest, fetched⟩ := h.popPhase hp
    rw [turn_ctrl_of_command hf fetched]
    simpa [exec, execPop, hf, hp, ctrlEnabled] using popTake_ne_hold hf
  | rdl n seen =>
    obtain ⟨rest, fetched⟩ := h.linePhase n seen hp
    rw [turn_ctrl_of_command hf fetched]
    cases seen with
    | true => simpa [exec, execReadLine, hf, hp, ctrlEnabled] using lineTake_ne_hold hf hp
    | false =>
      have see : seeByte (.rdl n true) s = .next s ↔ s.ringEmpty = true := seeByte_eq_hold_iff (hp ▸ nofun)
      simpa [exec, execReadLine, hf, hp, ctrlEnabled] using see
  | snd fatal =>
    obtain ⟨code, pay, rest, fetched, -⟩ := h.sendPhase fatal hp
    rw [turn_ctrl_of_command hf fetched]
    simpa [exec, execError, hf, hp, ctrlEnabled] using sendThen_eq_hold_iff hf fun u t => errorSent_keeps_txbusy
  | halted => simp [turn_ctrl_of_ended (.inl hp), ctrlEnabled, hp]
  | faulted => simp [turn_ctrl_of_ended (.inr hp), ctrlEnabled, hp]

/-! ## Every agent's turn -/

theorem State.enabled_of_fault (hf : s.fault = true) : s.enabled a = false := by
  cases a <;> simp [State.enabled, hf]

theorem next_ne_hold_of_work_lt (less : t.work < s.work) : (.next t : Answer) ≠ .next s := by
  intro h
  cases h
  exact less.false

/-- An enabled event spends from the budget of R305, so it is no hold. -/
theorem turn_ne_hold_of_enabled (event : a ≠ .ctrl) (enabled : s.enabled a = true) : turn a s ≠ .next s := by
  cases a with
  | ctrl => exact absurd rfl event
  | rxi =>
    obtain ⟨b, rest, head⟩ := List.exists_cons_of_ne_nil (State.enabled_rxi_iff.mp enabled).2
    rw [turn_rxi_of_enabled enabled]
    exact next_ne_hold_of_work_lt (rxPush_work_lt head)
  | txi =>
    obtain ⟨hf, armed, empty⟩ := State.enabled_txi_iff.mp enabled
    rw [turn_txi_of_enabled enabled]
    exact next_ne_hold_of_work_lt (txDrain_work_lt hf armed empty)
  | txs =>
    obtain ⟨hf, full⟩ := State.enabled_txs_iff.mp enabled
    rw [turn, if_pos enabled]
    exact next_ne_hold_of_work_lt (txShift_work_lt hf full)

theorem turn_event_eq_hold_iff (event : a ≠ .ctrl) : turn a s = .next s ↔ s.enabled a = false := by
  refine ⟨fun holds => ?_, fun disabled => ?_⟩
  · by_contra enabled
    exact turn_ne_hold_of_enabled event (by simpa using enabled) holds
  · cases a with
    | ctrl => exact absurd rfl event
    | rxi | txi | txs => simp [turn, disabled]

/-- Settles O47: the control agent by its phase, whose command `ControlInv` names; the events by what they spend. -/
theorem turnHoldsIffNotEnabled : Obligations.TurnHoldsIffNotEnabled := by
  intro s a h
  cases hf : s.fault with
  | true => simp [turn_of_fault a hf, State.enabled_of_fault hf]
  | false =>
    by_cases ctrl : a = .ctrl
    · subst ctrl
      simp [turn_ctrl_eq_hold_iff h hf, State.enabled, hf]
    · exact turn_event_eq_hold_iff ctrl

end Sys2Proof.Machine
end

section
/-! Weakly fair runs settle (R249, R305, R350): a run spends a finite budget, so it ends in holds, and fairness leaves
no agent an enabled step there. -/

namespace Sys2Proof.Machine

variable {s : State} {run : Nat → State} {n k : Nat}

/-! ## A state without an enabled step -/

theorem State.quiescent_iff : s.quiescent = true ↔ ∀ a, s.enabled a = false := by
  refine ⟨fun h a => ?_, fun h => by simp [State.quiescent, h]⟩
  simp only [State.quiescent, Bool.and_eq_true, Bool.not_eq_true', and_assoc] at h
  obtain ⟨ctrl, rxi, txi, txs⟩ := h
  cases a with
  | ctrl => exact ctrl
  | rxi => exact rxi
  | txi => exact txi
  | txs => exact txs

theorem State.final_or_stuck_of_quiescent (hf : s.fault = false) (quiet : s.quiescent = true) :
    s.final = true ∨ s.stuck = true := by
  cases final : s.final <;> simp [State.stuck, hf, quiet, final]

theorem State.inp_of_quiescent (hf : s.fault = false) (quiet : s.quiescent = true) : s.inp = [] := by
  by_contra bytes
  exact absurd (State.quiescent_iff.mp quiet .rxi) (by simp [State.enabled_rxi_iff.mpr ⟨hf, bytes⟩])

theorem State.txe_of_quiescent (hf : s.fault = false) (quiet : s.quiescent = true) : s.txe = true := by
  simpa [State.enabled, hf] using State.quiescent_iff.mp quiet .txs

/-- With `TXDR` empty TX_DRAIN waits only for `TXIE`, which follows `TXBUSY` (R53). -/
theorem State.txbusy_of_quiescent (h : TransmitInv s) (hf : s.fault = false) (quiet : s.quiescent = true) :
    s.txbusy = false := by
  rw [← h.enable]
  simpa [State.enabled, State.txPending, hf, State.txe_of_quiescent hf quiet] using State.quiescent_iff.mp quiet .txi

theorem State.ctrlEnabled_of_quiescent (hf : s.fault = false) (quiet : s.quiescent = true) :
    ctrlEnabled s = false := by
  simpa [State.enabled, hf] using State.quiescent_iff.mp quiet .ctrl

theorem ctrlEnabled_of_snd {fatal : Bool} (hp : s.cph = .snd fatal) : ctrlEnabled s = !s.txbusy := by
  simp [ctrlEnabled, hp]

theorem ctrlEnabled_of_send {rest : List Byte} (hp : s.cph = .ready) (fetched : fetch s = some (.command .send rest)) :
    ctrlEnabled s = !s.txbusy := by
  simp [ctrlEnabled, hp, fetched, firstStepEnabled]

/-! ## Every run ends in holds (R305) -/

theorem IsRun.runs (h : IsRun run) (n : Nat) : (run n).runs :=
  (step_cases (h n)).1

theorem IsRun.inv (h : IsRun run) (start : Inv (run 0)) (n : Nat) : Inv (run n) := by
  induction n with
  | zero => exact start
  | succ n ih => exact stepKeepsInv _ _ ih (h n)

theorem IsRun.work_antitone (h : IsRun run) : Antitone fun n => (run n).work := by
  refine antitone_nat_of_succ_le fun n => ?_
  obtain held | less := everyStepHoldsOrSpends _ _ (h n)
  · rw [held, State.work_spendTurn]
  · exact less.le

/-- From `n` on every turn of the run is a hold (log 3). -/
def HoldsFrom (run : Nat → State) (n : Nat) : Prop :=
  ∀ k, n ≤ k → run (k + 1) = (run k).spendTurn

theorem HoldsFrom.mono (h : HoldsFrom run n) (later : n ≤ k) : HoldsFrom run k :=
  fun j hj => h j (later.trans hj)

/-- From where the budget is least no step can spend from it. -/
theorem IsRun.exists_holdsFrom (h : IsRun run) : ∃ n, HoldsFrom run n := by
  refine ⟨Function.argmin fun n => (run n).work, fun k later => ?_⟩
  refine (everyStepHoldsOrSpends _ _ (h k)).resolve_right fun less => ?_
  have least := Function.argmin_le (fun n => (run n).work) (k + 1)
  exact absurd (less.trans_le (h.work_antitone later)) least.not_gt

/-! ## Fairness leaves no agent enabled there (R350) -/

theorem HoldsFrom.enabled_eq (h : HoldsFrom run n) (a : Agent) (later : n ≤ k) :
    (run k).enabled a = (run n).enabled a := by
  induction k, later using Nat.le_induction with
  | base => rfl
  | succ k later ih => rw [h k later, State.enabled_spendTurn, ih]

theorem HoldsFrom.chosen_disabled (h : HoldsFrom run n) (isRun : IsRun run) (inv : Inv (run n)) :
    (run n).enabled (run n).chosen = false := by
  obtain ⟨-, turned⟩ := step_cases (isRun n)
  rw [h n le_rfl] at turned
  simpa using (turnHoldsIffNotEnabled _ _ inv.control.spendTurn).mp turned

/-- An agent enabled at `n` would stay enabled, so fairness would give it a turn, and that turn is no hold. -/
theorem HoldsFrom.quiescent (h : HoldsFrom run n) (isRun : IsRun run) (fair : WeaklyFair run)
    (inv : ∀ k, Inv (run k)) : (run n).quiescent = true := by
  refine State.quiescent_iff.mpr fun a => ?_
  by_contra disabled
  have enabled : ∀ k, n ≤ k → (run k).enabled a = true := fun k later => by
    simpa [h.enabled_eq a later] using disabled
  obtain ⟨k, later, chosen⟩ := fair a n enabled
  have idle := (h.mono later).chosen_disabled isRun (inv k)
  rw [chosen, enabled k later] at idle
  cases idle

/-- Settles O60: the run ends in holds, fairness leaves no agent enabled there, and each part of the statement is what
one agent then waits for. -/
theorem fairRunsSettle : Obligations.FairRunsSettle := by
  intro run isRun fair start
  obtain ⟨n, holds⟩ := isRun.exists_holdsFrom
  refine ⟨n, fun k later => ?_⟩
  have hf := (isRun.runs k).2
  have quiet := (holds.mono later).quiescent isRun fair (isRun.inv start)
  have waits := State.ctrlEnabled_of_quiescent hf quiet
  have idle := State.txbusy_of_quiescent (isRun.inv start k).transmit hf quiet
  refine ⟨State.final_or_stuck_of_quiescent hf quiet, State.inp_of_quiescent hf quiet,
    State.txe_of_quiescent hf quiet, idle, fun fatal sending => ?_, fun ready rest fetched => ?_⟩
  · simp [ctrlEnabled_of_snd sending, idle] at waits
  · simp [ctrlEnabled_of_send ready fetched, idle] at waits

end Sys2Proof.Machine
end
